-- ==== Sys2Proof/Word.lean ====
section
/-! DEFINITION. The vocabulary types: words, bytes, numbers, the enumerations of 30_encoding.md section 7, and the fixed group of four. -/

namespace Sys2Proof

/-- The command word `W[31:0]` (R9, R80); also the 32-bit LFO random state (R25). -/
abbrev Word := BitVec 32

/-- A byte of a patch memory or of the command word (R9). -/
abbrev Byte := BitVec 8

/-- The carrier of NUM (R8). Both admitted instances are held here: exact rationals, and binary32, whose finite values are
rationals and whose operations are the exact ones followed by `NumFormat.store`. DESIGN CHOICE, log entry 2. -/
abbrev Num := Rat

/-- The source's "7/8-bit unsigned quantities (0..127)" (R12): notes, velocities and clamped patch bytes. -/
abbrev U7 := Fin 128

/-- The two instances of NUM that R8 admits. -/
inductive NumFormat where
  /-- R8 (a): every written operation is exact. -/
  | exact
  /-- R8 (b): every written operation is rounded to the nearest binary32 value, ties to even. -/
  | binary32
  deriving DecidableEq, Repr

/-- Envelope stages, used by AEG and PEG, in code order 0 to 5 (R100). -/
inductive Stage where
  | attack | decay1 | decay2 | sustain | release | idle
  deriving DecidableEq, Repr

/-- `P.common.mode`, codes 0, 1, 2 (R101). -/
inductive Mode where
  | poly | monoFull | monoLegato
  deriving DecidableEq, Repr

/-- `P.common.lfoWave`, codes 0 to 6 (R102). -/
inductive LfoWave where
  | sine | tri | sawUp | sawDown | square | sh8 | shFree
  deriving DecidableEq, Repr

/-- `ksCurveL`, `ksCurveR`, codes 0 to 3 (R103). -/
inductive KsCurve where
  | negLin | negExp | posExp | posLin
  deriving DecidableEq, Repr

/-- `fbType`, codes 0 and 1 (R104). -/
inductive FbType where
  | plain | square
  deriving DecidableEq, Repr

/-- `freqMode`, codes 0 and 1 (R105). -/
inductive FreqMode where
  | ratio | fixed
  deriving DecidableEq, Repr

/-- The retrigger policy handed to a gate-on (R120, R157, R186). -/
inductive GateKind where
  | hard | soft
  deriving DecidableEq, Repr

/-- Exactly four like things, one per operator index 0 to 3 (R2, R10). -/
structure Quad (α : Type) where
  q0 : α
  q1 : α
  q2 : α
  q3 : α
  deriving DecidableEq, Repr

/-- An algorithm descriptor (R250): `mods[i][j]` says that operator `j` modulates operator `i`. -/
structure AlgDesc where
  mods     : Quad (Quad Bool)
  carriers : Quad Bool
  mixGain  : Num
  deriving DecidableEq, Repr

end Sys2Proof
end

