-- ==== Sys2Proof/Syntax.lean ====
section
/-! DEFINITION. The commands (R81): one constructor per row of spec/opcode_table.json. Operands are the numbers an assembler
writes (R87); that they fit their fields is WellFormed's check. Ignored fields (R80) are no part of a command. -/

namespace Sys2Proof

/-- The twelve commands of R81. -/
inductive Instr where
  /-- `NOP` (R300). -/
  | nop
  /-- `NOTE_ON note, velocity` (R301, R303). -/
  | noteOn (note velocity : Nat)
  /-- `NOTE_OFF note` (R302). -/
  | noteOff (note : Nat)
  /-- `CTRL_CHANGE id, value` (R304). -/
  | ctrlChange (id value : Nat)
  /-- `PITCH_BEND value`, a signed 16-bit number (R83, R305). -/
  | pitchBend (bend : Int)
  /-- `OP_PARAM op, offset, value` (R307). -/
  | opParam (op offset value : Nat)
  /-- `PATCH_WR addr, value` (R306). -/
  | patchWr (addr value : Nat)
  /-- `APPLY_PATCH` (R308). -/
  | applyPatch
  /-- `ALL_NOTES_OFF` (R309). -/
  | allNotesOff
  /-- `ALL_SOUND_OFF` (R310). -/
  | allSoundOff
  /-- `SYS_RESET` (R311). -/
  | sysReset
  /-- `RENDER n`, an unsigned 16-bit number (R83, R312). -/
  | render (n : Nat)
  deriving DecidableEq, Repr

end Sys2Proof
end

