-- ==== Sys2Proof/WellFormed.lean ====
section
/-! DEFINITION. The checks on a command as syntax: every operand fits its field of the command word (R80, R82, R83). Operands that fit but lie
outside the source's ranges (a note above 127, an address above 149) are well formed; what they do is in the command's rule (R82, R341). -/

namespace Sys2Proof

/-- `v` fits an unsigned byte field `a`, `b` or `c`, 0..255 (R82). -/
def fitsByte (v : Nat) : Bool := v < 256

/-- `v` fits the unsigned 16-bit field of `RENDER`, 0..65535 (R83). -/
def fitsImm16 (v : Nat) : Bool := v < 65536

/-- `v` fits the signed 16-bit field of `PITCH_BEND`, -32768..32767 (R83). -/
def fitsSigned16 (v : Int) : Bool := -32768 ≤ v && v ≤ 32767

/-- Every operand of the command fits its field. -/
def Instr.wf (i : Instr) : Bool :=
  match i with
  | .nop => true
  | .noteOn note velocity => fitsByte note && fitsByte velocity
  | .noteOff note => fitsByte note
  | .ctrlChange id value => fitsByte id && fitsByte value
  | .pitchBend bend => fitsSigned16 bend
  | .opParam op offset value => fitsByte op && fitsByte offset && fitsByte value
  | .patchWr addr value => fitsByte addr && fitsByte value
  | .applyPatch => true
  | .allNotesOff => true
  | .allSoundOff => true
  | .sysReset => true
  | .render n => fitsImm16 n

/-- A command is well formed. -/
abbrev WellFormed (i : Instr) : Prop := i.wf = true

end Sys2Proof
end

