-- ==== Sys2Proof/Decode.lean ====
section
/-! DEFINITION. The decoder of the command word (R80, R81), total and rejecting by name, and the encoder written from the same tables (R87). -/

namespace Sys2Proof

/-- Why a word is no command of the table. -/
inductive DecodeReject where
  /-- The opcode is 0x0C to 0xFF (R85). `step` runs such a word as `NOP`, as R85 and R300 say. -/
  | reservedOpcode (opcode : Nat)
  deriving DecidableEq, Repr

/-- `W[31:24]` (R80). -/
def fieldOpcode (w : Word) : Nat := (w.extractLsb' 24 8).toNat

/-- Operand `a = W[23:16]` (R80). -/
def fieldA (w : Word) : Nat := (w.extractLsb' 16 8).toNat

/-- Operand `b = W[15:8]` (R80). -/
def fieldB (w : Word) : Nat := (w.extractLsb' 8 8).toNat

/-- Operand `c = W[7:0]` (R80). -/
def fieldC (w : Word) : Nat := (w.extractLsb' 0 8).toNat

/-- `zext_32(W[15:0])` (R83). -/
def fieldImm16 (w : Word) : Nat := (w.extractLsb' 0 16).toNat

/-- `sext_32(W[15:0])`, a two's-complement number (R83). -/
def fieldSigned16 (w : Word) : Int := (w.extractLsb' 0 16).toInt

/-- The command a word stands for (R81); ignored fields are not looked at (R80, R84). -/
def decode (w : Word) : Except DecodeReject Instr :=
  match fieldOpcode w with
  | 0x00 => .ok .nop
  | 0x01 => .ok (.noteOn (fieldA w) (fieldB w))
  | 0x02 => .ok (.noteOff (fieldA w))
  | 0x03 => .ok (.ctrlChange (fieldA w) (fieldB w))
  | 0x04 => .ok (.pitchBend (fieldSigned16 w))
  | 0x05 => .ok (.opParam (fieldA w) (fieldB w) (fieldC w))
  | 0x06 => .ok (.patchWr (fieldA w) (fieldB w))
  | 0x07 => .ok .applyPatch
  | 0x08 => .ok .allNotesOff
  | 0x09 => .ok .allSoundOff
  | 0x0A => .ok .sysReset
  | 0x0B => .ok (.render (fieldImm16 w))
  | op => .error (.reservedOpcode op)

/-- A word of format B: opcode, `a`, `b`, `c` (R80). Format Z is the same with zeros (R87). -/
def wordB (opcode a b c : Nat) : Word :=
  BitVec.ofNat 8 opcode ++ BitVec.ofNat 8 a ++ BitVec.ofNat 8 b ++ BitVec.ofNat 8 c

/-- A word of format H: opcode, an ignored zero byte, `imm16` (R80, R87). -/
def wordH (opcode : Nat) (imm16 : BitVec 16) : Word :=
  BitVec.ofNat 8 opcode ++ (0 : Byte) ++ imm16

/-- The word an assembler writes for a command, 0 in every ignored field (R81, R87). -/
def encode (i : Instr) : Word :=
  match i with
  | .nop => wordB 0x00 0 0 0
  | .noteOn note velocity => wordB 0x01 note velocity 0
  | .noteOff note => wordB 0x02 note 0 0
  | .ctrlChange id value => wordB 0x03 id value 0
  | .pitchBend bend => wordH 0x04 (BitVec.ofInt 16 bend)
  | .opParam op offset value => wordB 0x05 op offset value
  | .patchWr addr value => wordB 0x06 addr value 0
  | .applyPatch => wordB 0x07 0 0 0
  | .allNotesOff => wordB 0x08 0 0 0
  | .allSoundOff => wordB 0x09 0 0 0
  | .sysReset => wordB 0x0A 0 0 0
  | .render n => wordH 0x0B (BitVec.ofNat 16 n)

/-- The word whose bits are `w`, of which the table gives the low `nbits`; every bit above them is 0. A command is one 32-bit word, "one
indivisible unit at the command port, described by bit number" (R63), so there is no byte order to lay out. -/
def tableWord (nbits w : Nat) : Word := BitVec.ofNat 32 (w % 2 ^ nbits)

/-- The command the decoder reads from an opcode-table word. -/
def decodeTableWord (nbits w : Nat) : Option Instr :=
  match decode (tableWord nbits w) with
  | .ok i => some i
  | .error _ => none

end Sys2Proof
end

