-- ==== Sys2Proof/Machine/Basic.lean ====
section
/-! DEFINITION. Helpers that need no configuration: access to a group of four, and the rounding of an exact result to binary32 (R8). -/

namespace Sys2Proof

/-- Element `i` of a group of four (`x[i]`, R10). -/
def Quad.get {α : Type} (q : Quad α) (i : Fin 4) : α :=
  match i with
  | 0 => q.q0
  | 1 => q.q1
  | 2 => q.q2
  | 3 => q.q3

/-- `x[i] <- a` on a group of four (R10). -/
def Quad.set {α : Type} (q : Quad α) (i : Fin 4) (a : α) : Quad α :=
  match i with
  | 0 => { q with q0 := a }
  | 1 => { q with q1 := a }
  | 2 => { q with q2 := a }
  | 3 => { q with q3 := a }

/-- The same value at all four indices. -/
def Quad.replicate {α : Type} (a : α) : Quad α := ⟨a, a, a, a⟩

/-- "for i in 0..3" over a group of four, each index on its own element. -/
def Quad.mapIdx {α β : Type} (f : Fin 4 → α → β) (q : Quad α) : Quad β :=
  ⟨f 0 q.q0, f 1 q.q1, f 2 q.q2, f 3 q.q3⟩

/-- "exists i in 0..3". -/
def Quad.any {α : Type} (p : α → Bool) (q : Quad α) : Bool :=
  p q.q0 || p q.q1 || p q.q2 || p q.q3

/-- How many of the four flags are set: the size of a subset of operators (R250). -/
def Quad.count (q : Quad Bool) : Nat :=
  q.q0.toNat + q.q1.toNat + q.q2.toNat + q.q3.toNat

/-- `2 ^ e` for any integer `e`. -/
def pow2 (e : Int) : Num :=
  match e with
  | .ofNat n => ((2 ^ n : Nat) : Num)
  | .negSucc n => 1 / ((2 ^ (n + 1) : Nat) : Num)

/-- The exponent `e` with `2^e <= q < 2^(e+1)`, for `q > 0`. -/
def ilog2 (q : Num) : Int :=
  let e : Int := (Nat.log2 q.num.toNat : Int) - (Nat.log2 q.den : Int)
  if pow2 e ≤ q then e else e - 1

/-- The nearest integer, ties to the even one. -/
def roundHalfEven (q : Num) : Int :=
  let f := q.floor
  let r := q - (f : Num)
  if r < 1 / 2 then f
  else if 1 / 2 < r then f + 1
  else if f % 2 = 0 then f
  else f + 1

/-- `x` is a finite IEEE 754 binary32 value (R8 (b)): a significand below 2^24 at an exponent from -149 to 104. The two zeros are one value: log
entry 2. -/
def IsBinary32 (x : Num) : Prop :=
  ∃ m e : Int, |m| < 2 ^ 24 ∧ -149 ≤ e ∧ e ≤ 104 ∧ x = (m : Num) * (2 : Num) ^ e

/-- Round to the nearest multiple of the unit in the last place, ties to even (R8 (b)): 24 significant bits, least exponent -126, gradual underflow. The
exponent has no upper limit here; `NumFormat.store` sets it. -/
def roundBinary32 (q : Num) : Num :=
  if q = 0 then 0
  else
    let m := |q|
    let ulp := pow2 (max (ilog2 m) (-126) - 23)
    let r := (roundHalfEven (m / ulp) : Num) * ulp
    if q < 0 then -r else r

/-- The largest finite binary32 value. -/
def binary32Max : Num := pow2 128 - pow2 104

/-- The value stored for an exact result `q` (R8). R8 and R380 say that under binary32 no operation leaves the finite range; for a `q` that would,
the value is free, `overflow q`: log entry 18. -/
def NumFormat.store (f : NumFormat) (overflow : Num → Num) (q : Num) : Num :=
  match f with
  | .exact => q
  | .binary32 =>
    let r := roundBinary32 q
    if |r| ≤ binary32Max then r else overflow q

end Sys2Proof
end

