-- ==== Sys2Proof/Config.lean ====
section
/-! DEFINITION. The configuration record CFG (R6, R7, R8): the parameters and functions an implementation fixes, and the constraints the spec puts on
them. The one configuration of the machine is chosen in Machine/Chosen.lean, once the scores that bound `SCORE_SENTINEL` are defined. -/

namespace Sys2Proof

/-- The parameters of R6 and the functions of R7, without their constraints. Byte arguments are clamped by the caller (R7, R62), so a
byte of the domain 0..127 is a `U7` and an enumeration byte is its name. `NUM_OPS`, `NUM_ALGS` and `SCORE_RELEASED_ATTEN` are fixed (R6). -/
structure CfgData where
  /-- NUM (R8). -/
  num : NumFormat
  /-- NUM_VOICES. -/
  numVoices : Nat
  /-- SAMPLE_RATE, Hz. -/
  sampleRate : Num
  /-- NOTE_STACK_CAP. -/
  noteStackCap : Nat
  /-- FALLBACK_VELOCITY. -/
  fallbackVelocity : U7
  /-- SCORE_SENTINEL. -/
  scoreSentinel : Num
  /-- INV_SQRT2. -/
  invSqrt2 : Num
  /-- INV_SQRT3. -/
  invSqrt3 : Num
  /-- EG_RISE_SCALE. -/
  egRiseScale : Num
  /-- EG_FALL_SCALE. -/
  egFallScale : Num
  /-- PEG_FALL_SCALE. -/
  pegFallScale : Num
  /-- FB_LP_COEF. -/
  fbLpCoef : Num
  /-- MOD_INDEX. -/
  modIndex : Num
  /-- MASTER_GAIN. -/
  masterGain : Num
  /-- PEG_CENTER. -/
  pegCenter : Num
  /-- LFO_SEED(v). -/
  lfoSeed : Nat → Word
  /-- SINE(p). -/
  sine : Num → Num
  /-- SEMI_RATIO(s). -/
  semiRatio : Num → Num
  /-- NOTE_HZ(t). -/
  noteHz : Int → Num
  /-- OP_FREQ(mode, coarse, fine, detune, baseHz). -/
  opFreq : FreqMode → U7 → U7 → U7 → Num → Num
  /-- KS_FACTOR(t, dL, cL, dR, cR). -/
  ksFactor : Int → U7 → KsCurve → U7 → KsCurve → Num
  /-- VEL_GAIN(vel, sens). -/
  velGain : U7 → U7 → Num
  /-- EXP_GAIN(x). -/
  expGain : Num → Num
  /-- FB_SCALE(level). -/
  fbScale : U7 → Num
  /-- RECTIFY(x). -/
  rectify : Num → Num
  /-- EG_LEVEL(b). -/
  egLevel : U7 → Num
  /-- EG_RATE_STEP(b). -/
  egRateStep : U7 → Num
  /-- EG_CURVE(x). -/
  egCurve : Num → Num
  /-- EG_GAIN(x). -/
  egGain : Num → Num
  /-- EG_GAIN_INV(y). -/
  egGainInv : Num → Num
  /-- PEG_LEVEL(b). -/
  pegLevel : U7 → Num
  /-- PEG_RATE_STEP(b). -/
  pegRateStep : U7 → Num
  /-- LFO_HZ(b). -/
  lfoHz : U7 → Num
  /-- LFO_DELAY_SAMPLES(b). -/
  lfoDelaySamples : U7 → Nat
  /-- LFO_PMD(b). -/
  lfoPmd : U7 → Num
  /-- LFO_AMD(b). -/
  lfoAmd : U7 → Num
  /-- MODWHEEL_PM(mw, lfo). -/
  modwheelPm : Num → Num → Num
  /-- RAND_MAP(u). -/
  randMap : Word → Num
  /-- TRANSPOSE(b); the byte is clamped by its reader (R62), log entry 19. -/
  transpose : U7 → Int
  /-- PORTA_TIME(b), seconds. -/
  portaTime : U7 → Num
  /-- BEND_MAP(bend, rangeByte). -/
  bendMap : Int → U7 → Num
  /-- MW_FACTOR(b). -/
  mwFactor : U7 → Num
  /-- VOL_FACTOR(b). -/
  volFactor : U7 → Num
  /-- ALG_TABLE(a). -/
  algTable : Fin 12 → AlgDesc
  /-- The quotient of a number by a denominator that is 0. R8 says that no rule forms one; where the open functions let one arise all the same, it
  is free. Not the spec's: DESIGN CHOICE, log entry 15. -/
  divZero : Num → Num
  /-- The value stored where a binary32 operation would leave the finite range. R8 and R380 say that none does; where the open functions let it happen all
  the same, it is free. Not the spec's: DESIGN CHOICE, log entry 18. -/
  overflow : Num → Num

/-- `x` is a value of NUM: any rational under the exact instance, a finite binary32 value under the other (R8). -/
def CfgData.IsNum (c : CfgData) (x : Num) : Prop :=
  match c.num with
  | .exact => True
  | .binary32 => IsBinary32 x

/-- `x` is the binary32 value nearest `1/√n` (R6, the row `INV_SQRT2`, `INV_SQRT3`; 90 C8). -/
def NearestInvSqrt (n : Nat) (x : Num) : Prop :=
  IsBinary32 x ∧ ∀ z : Num, IsBinary32 z → |(x : ℝ) - 1 / Real.sqrt n| ≤ |(z : ℝ) - 1 / Real.sqrt n|

/-- `x` lies on the interval from 0 to the largest value of `EG_LEVEL` (R7, the rows `EG_CURVE`, `EG_GAIN`, `EG_GAIN_INV`). -/
def CfgData.InEgRange (c : CfgData) (x : Num) : Prop := 0 ≤ x ∧ ∃ b : U7, x ≤ c.egLevel b

/-- The shape of R250: an operator is modulated only by higher-numbered ones, and there is at least one carrier. With four operators a
chain then has at most 3 links and there are at most 4 carriers. -/
def AlgDesc.WellShaped (a : AlgDesc) : Prop :=
  (∀ i j : Fin 4, (a.mods.get i).get j = true → i < j) ∧ ∃ i : Fin 4, a.carriers.get i = true

/-- Every parameter and every value of a function, at NUM arguments, is a NUM (R8: "one type, a parameter of the model"). -/
structure CfgData.NumValued (c : CfgData) : Prop where
  params : ∀ x ∈ [c.sampleRate, c.scoreSentinel, c.invSqrt2, c.invSqrt3, c.egRiseScale, c.egFallScale, c.pegFallScale,
    c.fbLpCoef, c.modIndex, c.masterGain, c.pegCenter], c.IsNum x
  ofNum : ∀ f ∈ [c.sine, c.semiRatio, c.expGain, c.rectify, c.egCurve, c.egGain, c.egGainInv], ∀ x, c.IsNum x → c.IsNum (f x)
  ofByte : ∀ f ∈ [c.fbScale, c.egLevel, c.egRateStep, c.pegLevel, c.pegRateStep, c.lfoHz, c.lfoPmd, c.lfoAmd, c.portaTime,
    c.mwFactor, c.volFactor], ∀ b, c.IsNum (f b)
  noteHz : ∀ t, c.IsNum (c.noteHz t)
  opFreq : ∀ m co fi de hz, c.IsNum hz → c.IsNum (c.opFreq m co fi de hz)
  ksFactor : ∀ t dL cL dR cR, c.IsNum (c.ksFactor t dL cL dR cR)
  velGain : ∀ v s, c.IsNum (c.velGain v s)
  modwheelPm : ∀ m x, c.IsNum m → c.IsNum x → c.IsNum (c.modwheelPm m x)
  randMap : ∀ u, c.IsNum (c.randMap u)
  bendMap : ∀ b r, c.IsNum (c.bendMap b r)
  mixGain : ∀ a, c.IsNum (c.algTable a).mixGain
  free : ∀ x, c.IsNum (c.divZero x) ∧ c.IsNum (c.overflow x)

/-- The constraints of the rows of R6 and R7, and one each on the two free values that are the model's own. The row `SCORE_SENTINEL` speaks of the scores
the rules produce, so it stands after them: `Cfg.SentinelAboveScores`, which `Config.cfg` meets. -/
structure CfgData.Valid (c : CfgData) : Prop where
  numValued : c.NumValued
  numVoices_pos : 1 ≤ c.numVoices
  sampleRate_pos : 0 < c.sampleRate
  noteStackCap_pos : 1 ≤ c.noteStackCap
  /-- R6 and 90 C8: under binary32 the nearest values. -/
  invSqrt_nearest : c.num = .binary32 → NearestInvSqrt 2 c.invSqrt2 ∧ NearestInvSqrt 3 c.invSqrt3
  /-- Under the exact instance "any rational approximations" (R6) that keep the bound of R263 (3). DEDUCED, log entry 10. -/
  invSqrt_range : (0 < c.invSqrt2 ∧ c.invSqrt2 ≤ 1) ∧ 0 < c.invSqrt3 ∧ c.invSqrt3 ≤ 2 / 3
  egRiseScale_pos : 0 < c.egRiseScale
  egFallScale_pos : 0 < c.egFallScale
  pegFallScale_pos : 0 < c.pegFallScale
  fbLpCoef_range : 0 < c.fbLpCoef ∧ c.fbLpCoef ≤ 1
  lfoSeed_ne : ∀ v, v < c.numVoices → c.lfoSeed v ≠ 0
  semiRatio_zero : c.semiRatio 0 = 1
  noteHz_pos : ∀ t, 0 < c.noteHz t
  opFreq_nonneg : ∀ m co fi de hz, 0 ≤ hz → 0 ≤ c.opFreq m co fi de hz
  rectify_nonneg : ∀ x, 0 ≤ c.rectify x
  egLevel_nonneg : ∀ b, 0 ≤ c.egLevel b
  egRateStep_nonneg : ∀ b, 0 ≤ c.egRateStep b
  egCurve_strict : ∀ x y, c.IsNum x → c.IsNum y → c.InEgRange x → c.InEgRange y → x < y → c.egCurve x < c.egCurve y
  egGain_strict : ∀ x y, c.IsNum x → c.IsNum y → c.InEgRange x → c.InEgRange y → x < y → c.egGain x < c.egGain y
  /-- The row of R7. What R22 asks of it at other values stands after the envelopes: `Cfg.GainInvKeepsRawType`, which `Config.cfg` meets. -/
  egGainInv_right : ∀ x, c.IsNum x → c.InEgRange x →
    c.egGain (c.egGainInv (c.egGain x)) = c.egGain x ∧ c.InEgRange (c.egGainInv (c.egGain x))
  pegRateStep_nonneg : ∀ b, 0 ≤ c.pegRateStep b
  lfoHz_nonneg : ∀ b, 0 ≤ c.lfoHz b
  modwheelPm_zero : ∀ x, c.modwheelPm 0 x = 0
  randMap_range : ∀ u, -1 ≤ c.randMap u ∧ c.randMap u ≤ 1
  portaTime_nonneg : ∀ b, 0 ≤ c.portaTime b
  bendMap_zero : ∀ r, c.bendMap 0 r = 0
  mwFactor_zero : c.mwFactor 0 = 0
  algTable_shaped : ∀ a, (c.algTable a).WellShaped
  /-- The limit R34 sets: `portaPos` is never negative. DESIGN CHOICE, log entry 15. -/
  divZero_nonneg : ∀ x, 0 ≤ x → 0 ≤ c.divZero x
  /-- The same limit for the other free value. DESIGN CHOICE, log entry 18. -/
  overflow_nonneg : ∀ q, 0 ≤ q → 0 ≤ c.overflow q

/-- A configuration record: the data and the constraints of R6 and R7. -/
structure Cfg extends CfgData where
  valid : toCfgData.Valid

/-- Four carriers and no modulator, a well-shaped descriptor. -/
def AlgDesc.fourCarriers : AlgDesc := ⟨Quad.replicate (Quad.replicate false), Quad.replicate true, 1⟩

theorem AlgDesc.fourCarriers_wellShaped : AlgDesc.fourCarriers.WellShaped := by
  constructor <;> decide

/-- A configuration that meets every constraint. It is used for nothing but to show Lean that the type `Cfg` is not empty; no
definition of the machine and no statement can see it. -/
def Cfg.sample : Cfg where
  num := .exact
  numVoices := 1
  sampleRate := 1
  noteStackCap := 1
  fallbackVelocity := 0
  scoreSentinel := 1000
  invSqrt2 := 1
  invSqrt3 := 1 / 2
  egRiseScale := 1
  egFallScale := 1
  pegFallScale := 1
  fbLpCoef := 1
  modIndex := 1
  masterGain := 1
  pegCenter := 0
  lfoSeed := fun _ => 1
  sine := fun _ => 0
  semiRatio := fun _ => 1
  noteHz := fun _ => 1
  opFreq := fun _ _ _ _ _ => 0
  ksFactor := fun _ _ _ _ _ => 1
  velGain := fun _ _ => 1
  expGain := fun _ => 1
  fbScale := fun _ => 0
  rectify := fun _ => 0
  egLevel := fun _ => 0
  egRateStep := fun _ => 0
  egCurve := fun x => x
  egGain := fun x => x
  egGainInv := fun x => x
  pegLevel := fun _ => 0
  pegRateStep := fun _ => 1
  lfoHz := fun _ => 0
  lfoDelaySamples := fun _ => 0
  lfoPmd := fun _ => 0
  lfoAmd := fun _ => 0
  modwheelPm := fun _ _ => 0
  randMap := fun _ => 0
  transpose := fun _ => 0
  portaTime := fun _ => 0
  bendMap := fun _ _ => 0
  mwFactor := fun _ => 0
  volFactor := fun _ => 1
  algTable := fun _ => AlgDesc.fourCarriers
  divZero := fun _ => 0
  overflow := fun _ => 0
  valid := {
    numValued := by constructor <;> intros <;> trivial
    numVoices_pos := by decide
    sampleRate_pos := by norm_num
    noteStackCap_pos := by decide
    invSqrt_nearest := fun h => by cases h
    invSqrt_range := by norm_num
    egRiseScale_pos := by norm_num
    egFallScale_pos := by norm_num
    pegFallScale_pos := by norm_num
    fbLpCoef_range := by norm_num
    lfoSeed_ne := fun _ _ => by show (1 : Word) ≠ 0; decide
    semiRatio_zero := rfl
    noteHz_pos := by norm_num
    opFreq_nonneg := by norm_num
    rectify_nonneg := by norm_num
    egLevel_nonneg := by norm_num
    egRateStep_nonneg := by norm_num
    egCurve_strict := fun _ _ _ _ _ _ h => h
    egGain_strict := fun _ _ _ _ _ _ h => h
    egGainInv_right := fun _ _ h => ⟨rfl, h⟩
    pegRateStep_nonneg := by norm_num
    lfoHz_nonneg := by norm_num
    modwheelPm_zero := by norm_num
    randMap_range := by norm_num
    portaTime_nonneg := by norm_num
    bendMap_zero := by norm_num
    mwFactor_zero := rfl
    algTable_shaped := fun _ => AlgDesc.fourCarriers_wellShaped
    divZero_nonneg := fun _ _ => le_refl 0
    overflow_nonneg := fun _ _ => le_refl 0 }

end Sys2Proof
end

