-- ==== Sys2Proof/Machine/Units.lean ====
section
/-! DEFINITION. The parts of the state that a voice and its rules work on (R21 to R29): the patch memory, the envelopes, the operator, the LFO, the voice and
the Controls, all plain data. -/

namespace Sys2Proof.Machine

/-- The patch memories' size in bytes, addresses 0 to 149 (R29, R60). -/
abbrev patchSize : Nat := 150

/-- A patch memory (R29, R60): the bytes that are not 0x00, by rising address. An unlisted address reads as its reset content, 0x00 (R29). -/
abbrev Memory := List Host.Cell

/-- Amplitude envelope state (R22). -/
structure Aeg where
  stage  : Stage
  raw    : Num
  target : Num
  step   : Num
  rising : Bool
  k      : Num
  c      : Num
  deriving DecidableEq, Repr

/-- Operator state (R21). -/
structure Operator where
  phase   : Num
  inc     : Num
  fbAcc   : Num
  fbFilt  : Num
  outGain : Num
  fbScale : Num
  enabled : Bool
  aeg     : Aeg
  deriving DecidableEq, Repr

/-- Pitch envelope state (R24). -/
structure Peg where
  stage  : Stage
  raw    : Num
  target : Num
  step   : Num
  rising : Bool
  deriving DecidableEq, Repr

/-- LFO state (R25). -/
structure Lfo where
  p       : Num
  e       : Nat
  val     : Num
  inc     : Num
  sh      : Num
  rng     : Word
  stepIdx : Fin 8
  wrap    : Bool
  deriving DecidableEq, Repr

/-- Voice state (R26). -/
structure Voice where
  note          : U7
  velocity      : U7
  gate          : Bool
  sustained     : Bool
  justAllocated : Bool
  portaStart    : Num
  portaTarget   : Num
  portaPos      : Num
  pm            : Quad Num
  am            : Quad Num
  algId         : Byte
  lfoCur        : Num
  op            : Quad Operator
  peg           : Peg
  lfo           : Lfo
  deriving DecidableEq, Repr

/-- Controls (R28). -/
structure Controls where
  pitchBend    : Num
  modWheel     : Num
  volume       : Num
  sustain      : Bool
  portaEnable  : Bool
  portaTimeSec : Num
  deriving DecidableEq, Repr

end Sys2Proof.Machine
end

