-- ==== Sys2Proof/Machine/Ops.lean ====
section
/-! DEFINITION. The named operations every family shares: NUM arithmetic under the configuration (R8), the helper functions of R12 and the patch
memory primitives (R11). Those on the whole state stand in Machine/Pool.lean. There is no exception to take and none to return from (R340, R343), so
neither file has such an operation. -/

namespace Sys2Proof

/-! NUM arithmetic: the exact operation, then the rounding of the instance (R8). -/

/-- The NUM stored for an exact result (R8). -/
def Cfg.round (c : Cfg) (q : Num) : Num := c.num.store c.overflow q

/-- `x + y` (R8). -/
def Cfg.add (c : Cfg) (x y : Num) : Num := c.round (x + y)

/-- `x - y` (R8). -/
def Cfg.sub (c : Cfg) (x y : Num) : Num := c.round (x - y)

/-- `x × y` (R8). -/
def Cfg.mul (c : Cfg) (x y : Num) : Num := c.round (x * y)

/-- `x / y`; every division of a rule is guarded in its rule (R8). Where a denominator is 0 all the same the quotient is free, log entry 15. -/
def Cfg.div (c : Cfg) (x y : Num) : Num := if y = 0 then c.divZero x else c.round (x / y)

/-- An integer as a NUM. DEDUCED: under binary32 it is the nearest value, log entry 7. -/
def Cfg.ofInt (c : Cfg) (n : Int) : Num := c.round (n : Num)

/-- A natural number as a NUM; see `Cfg.ofInt`. -/
def Cfg.ofNat (c : Cfg) (n : Nat) : Num := c.round (n : Num)

/-- `SCORE_RELEASED_ATTEN`, "fixed 0.1" (R6); the nearest value under binary32. -/
def Cfg.scoreReleasedAtten (c : Cfg) : Num := c.round (1 / 10)

/-- `frac(x) = x - floor(x)`, always in [0,1) (R12): where rounding gives 1, 0 is stored (R133). -/
def Cfg.frac (c : Cfg) (x : Num) : Num :=
  let r := c.sub x (x.floor : Num)
  if r < 1 then r else 0

/-- `clamp(x, lo, hi)` (R12). -/
def clamp (x lo hi : Num) : Num :=
  if x < lo then lo else if hi < x then hi else x

end Sys2Proof

namespace Sys2Proof.Machine

/-! The patch memories (R11). -/

/-- `MemRead(space, addr, 1)` (R11): an unlisted address holds its reset content 0x00 (R29). -/
def memRead (m : Memory) (addr : Nat) : Byte :=
  match m with
  | [] => 0
  | (k, b) :: rest => if k = addr then b else memRead rest addr

/-- `MemWrite(space, addr, 1, v)` (R11), keeping the canonical form: a byte 0x00 is not listed. -/
def memWrite (m : Memory) (addr : Nat) (v : Byte) : Memory :=
  match m with
  | [] => if v = 0 then [] else [(addr, v)]
  | (k, b) :: rest =>
    if addr < k then (if v = 0 then (k, b) :: rest else (addr, v) :: (k, b) :: rest)
    else if addr = k then (if v = 0 then rest else (addr, v) :: rest)
    else (k, b) :: memWrite rest addr v

/-- The canonical form from address `lo` on: addresses rising and below 150, no listed byte 0x00. -/
def memCanonicalFrom (lo : Nat) (m : Memory) : Bool :=
  match m with
  | [] => true
  | (k, b) :: rest => decide (lo ≤ k) && decide (k < patchSize) && decide (b ≠ 0) && memCanonicalFrom (k + 1) rest

/-- The canonical form of a patch memory, so that equal memories are equal data. -/
def Memory.wf (m : Memory) : Bool := memCanonicalFrom 0 m

end Sys2Proof.Machine
end

