-- ==== Sys2Proof/Machine/Operands.lean ====
section
/-! DEFINITION. How a command operand and a patch byte are read: the clamps of R12, the enumeration codes of R101 to R105, and the fields of the
patch at their addresses (R66, R95, R96), each "read as" R30 says. -/

namespace Sys2Proof.Machine

/-- A number clamped into 0..127 (R12): the operand `min(b, 127)` of R301 and R304. -/
def u7Nat (n : Nat) : U7 := ⟨min n 127, by omega⟩

/-- `u7(b) = min(b, 127)` (R12). -/
def u7 (b : Byte) : U7 := u7Nat b.toNat

/-- `enum_2(b)` as a mode (R12, R101). -/
def enumMode (b : Byte) : Mode :=
  match b.toNat with
  | 0 => .poly
  | 1 => .monoFull
  | _ => .monoLegato

/-- `enum_6(b)` as an LFO waveform (R12, R102). -/
def enumLfoWave (b : Byte) : LfoWave :=
  match b.toNat with
  | 0 => .sine
  | 1 => .tri
  | 2 => .sawUp
  | 3 => .sawDown
  | 4 => .square
  | 5 => .sh8
  | _ => .shFree

/-- `enum_3(b)` as a key-scaling curve (R12, R103). -/
def enumKsCurve (b : Byte) : KsCurve :=
  match b.toNat with
  | 0 => .negLin
  | 1 => .negExp
  | 2 => .posExp
  | _ => .posLin

/-- `enum_1(b)` as a feedback type (R12, R104). -/
def enumFbType (b : Byte) : FbType :=
  match b.toNat with
  | 0 => .plain
  | _ => .square

/-- `enum_1(b)` as a frequency mode (R12, R105). -/
def enumFreqMode (b : Byte) : FreqMode :=
  match b.toNat with
  | 0 => .ratio
  | _ => .fixed

/-- The pair index of a stage, for AEG and PEG (R151, R181). -/
def stageIdx (s : Stage) : Nat :=
  match s with
  | .attack => 0
  | .decay1 => 1
  | .decay2 => 2
  | .sustain => 2
  | .release => 3
  | .idle => 3

/-! The Common block, addresses 0x00 to 0x25 (R95). -/

/-- `u7(P.common.transpose)`: R62 and 90 C2 clamp the byte, which R30 and R233 write bare. DEDUCED, log entry 19. -/
def patchTranspose (P : Memory) : U7 := u7 (memRead P 0x0C)

/-- `enum_2(P.common.mode)`. -/
def patchMode (P : Memory) : Mode := enumMode (memRead P 0x0D)

/-- `u7(P.common.portaTime)`. -/
def patchPortaTime (P : Memory) : U7 := u7 (memRead P 0x0E)

/-- `u7(P.common.pbRange)`. -/
def patchPbRange (P : Memory) : U7 := u7 (memRead P 0x0F)

/-- `P.common.alg`, not clamped (R107). -/
def patchAlg (P : Memory) : Byte := memRead P 0x10

/-- `enum_6(P.common.lfoWave)`. -/
def patchLfoWave (P : Memory) : LfoWave := enumLfoWave (memRead P 0x11)

/-- `u7(P.common.lfoSpeed)`. -/
def patchLfoSpeed (P : Memory) : U7 := u7 (memRead P 0x12)

/-- `u7(P.common.lfoDelay)`. -/
def patchLfoDelay (P : Memory) : U7 := u7 (memRead P 0x13)

/-- `u7(P.common.lfoDepth)`. -/
def patchLfoDepth (P : Memory) : U7 := u7 (memRead P 0x14)

/-- `u7(P.common.pegRate[idx(s)])`. -/
def patchPegRate (P : Memory) (s : Stage) : U7 := u7 (memRead P (0x15 + stageIdx s))

/-- `u7(P.common.pegLevel[idx(s)])`. -/
def patchPegLevel (P : Memory) (s : Stage) : U7 := u7 (memRead P (0x19 + stageIdx s))

/-! The Operator blocks (R96). -/

/-- The address of a byte of operator block `k`: `38 + 28 × k + offset` (R66, R96, R307). -/
def opAddr (k offset : Nat) : Nat := 38 + 28 * k + offset

/-- A byte of `P.op[i]`. -/
def opByte (P : Memory) (i : Fin 4) (offset : Nat) : Byte := memRead P (opAddr i.val offset)

/-- `P.op[i].enable`. -/
def opEnable (P : Memory) (i : Fin 4) : Byte := opByte P i 0x00

/-- `u7(P.op[i].egRate[idx(s)])`. -/
def opEgRate (P : Memory) (i : Fin 4) (s : Stage) : U7 := u7 (opByte P i (0x01 + stageIdx s))

/-- `u7(P.op[i].egLevel[idx(s)])`. -/
def opEgLevel (P : Memory) (i : Fin 4) (s : Stage) : U7 := u7 (opByte P i (0x05 + stageIdx s))

/-- `u7(P.op[i].ksDepthL)`. -/
def opKsDepthL (P : Memory) (i : Fin 4) : U7 := u7 (opByte P i 0x0A)

/-- `u7(P.op[i].ksDepthR)`. -/
def opKsDepthR (P : Memory) (i : Fin 4) : U7 := u7 (opByte P i 0x0B)

/-- `enum_3(P.op[i].ksCurveL)`. -/
def opKsCurveL (P : Memory) (i : Fin 4) : KsCurve := enumKsCurve (opByte P i 0x0C)

/-- `enum_3(P.op[i].ksCurveR)`. -/
def opKsCurveR (P : Memory) (i : Fin 4) : KsCurve := enumKsCurve (opByte P i 0x0D)

/-- `u7(P.op[i].lfoAmDepth)`. -/
def opLfoAmDepth (P : Memory) (i : Fin 4) : U7 := u7 (opByte P i 0x0E)

/-- `P.op[i].lfoPmEnable`. -/
def opLfoPmEnable (P : Memory) (i : Fin 4) : Byte := opByte P i 0x0F

/-- `P.op[i].pegEnable`. -/
def opPegEnable (P : Memory) (i : Fin 4) : Byte := opByte P i 0x10

/-- `u7(P.op[i].velSens)`. -/
def opVelSens (P : Memory) (i : Fin 4) : U7 := u7 (opByte P i 0x11)

/-- `u7(P.op[i].outLevel)`. -/
def opOutLevel (P : Memory) (i : Fin 4) : U7 := u7 (opByte P i 0x12)

/-- `u7(P.op[i].fbLevel)`. -/
def opFbLevel (P : Memory) (i : Fin 4) : U7 := u7 (opByte P i 0x13)

/-- `enum_1(P.op[i].fbType)`. -/
def opFbType (P : Memory) (i : Fin 4) : FbType := enumFbType (opByte P i 0x14)

/-- `enum_1(P.op[i].freqMode)`. -/
def opFreqMode (P : Memory) (i : Fin 4) : FreqMode := enumFreqMode (opByte P i 0x15)

/-- `u7(P.op[i].freqCoarse)`. -/
def opFreqCoarse (P : Memory) (i : Fin 4) : U7 := u7 (opByte P i 0x16)

/-- `u7(P.op[i].freqFine)`. -/
def opFreqFine (P : Memory) (i : Fin 4) : U7 := u7 (opByte P i 0x17)

/-- `u7(P.op[i].freqDetune)`. -/
def opFreqDetune (P : Memory) (i : Fin 4) : U7 := u7 (opByte P i 0x18)

end Sys2Proof.Machine
end

