-- ==== Sys2Proof/Machine/Flags.lean ====
section
/-! DEFINITION. The one-bit conditions (R31): the hardware has no condition codes; its flags are state elements, and these are the conditions the
rules compute for them or test on them. -/

namespace Sys2Proof.Machine

/-- `en(b)`: a flag byte, 0 false, every other value true (R12, R106). -/
def en (b : Byte) : Bool := b ≠ 0

/-- `en(b)` as the NUM 0 or 1, a factor of R241. -/
def enNum (b : Byte) : Num := if en b then 1 else 0

/-- A switch controller is on at 64 or more (R304, ids 2 and 4). -/
def switchOn (v : U7) : Bool := 64 ≤ v.val

/-- `portaActive`: portamento enabled and of nonzero time (R233, R241 line 2). -/
def portaInForce (ctl : Controls) : Bool := ctl.portaEnable && decide (0 < ctl.portaTimeSec)

/-- The pedal goes from down to up (R304, id 2). -/
def pedalRaised (old new : Bool) : Bool := old && !new

/-- The direction of a ramp, set at stage entry; an equal target counts as falling (R154, R183). -/
def ramps (raw target : Num) : Bool := decide (raw < target)

/-- A ramp has arrived: it is at or past its target in its own direction (R155, R184). -/
def rampDone (rising : Bool) (raw target : Num) : Bool :=
  if rising then decide (target ≤ raw) else decide (raw ≤ target)

/-- The stage does not ramp: `g.stage = IDLE or g.stage = SUSTAIN` (R155, R184). -/
def stageHolds (s : Stage) : Bool := s = .idle || s = .sustain

/-- The stage is one a gate-off ends: ATTACK, DECAY1, DECAY2, SUSTAIN (R158, R187). -/
def stageGated (s : Stage) : Bool := !(s = .release || s = .idle)

/-- An operator sounds: it is enabled and its AEG is out of IDLE (R231). -/
def opSounding (o : Operator) : Bool := o.enabled && o.aeg.stage ≠ .idle

/-- `isActive(v)` (R231). -/
def isActive (v : Voice) : Bool := v.op.any opSounding

end Sys2Proof.Machine
end

