-- ==== Sys2Proof/Machine/Lfo.lean ====
section
/-! DEFINITION. The low-frequency oscillator (43_lfo.md, R200 to R212). `P` is the current patch. -/

namespace Sys2Proof.Machine

/-- The 32-bit xorshift (R205). -/
def xorshift32 (x : Word) : Word :=
  let x := x ^^^ (x <<< 13)
  let x := x ^^^ (x >>> 17)
  x ^^^ (x <<< 5)

/-- `LFO.draw` (R204). -/
def lfoDraw (c : Cfg) (l : Lfo) : Lfo :=
  let u := xorshift32 l.rng
  { l with rng := u, sh := c.randMap u }

/-- `LFO.reset` (R202): the random state is kept. -/
def lfoReset (l : Lfo) : Lfo :=
  { l with p := 0, e := 0, val := 0, inc := 0, sh := 0, stepIdx := 0, wrap := false }

/-- `LFO.sync` (R203). -/
def lfoSync (c : Cfg) (l : Lfo) : Lfo :=
  lfoDraw c { l with p := 0, e := 0, stepIdx := 0, wrap := false }

/-- `getValue` (R201). -/
def lfoGetValue (l : Lfo) : Num := l.val

/-- `getIncrement` (R201). -/
def lfoGetIncrement (l : Lfo) : Num := l.inc

/-- `WAVE(w, p, sh)` (R207). -/
def wave (c : Cfg) (w : LfoWave) (p sh : Num) : Num :=
  match w with
  | .sine => c.sine p
  | .tri =>
    if p < 1 / 4 then c.mul 4 p
    else if p < 3 / 4 then c.sub 2 (c.mul 4 p)
    else c.sub (c.mul 4 p) 4
  | .sawUp => c.sub (c.mul 2 p) 1
  | .sawDown => c.sub 1 (c.mul 2 p)
  | .square => if p < 1 / 2 then 1 else -1
  | .sh8 => sh
  | .shFree => sh

/-- The waveforms with a per-sample increment (R207, the class column; R212 line 11). -/
def waveContinuous (w : LfoWave) : Bool :=
  match w with
  | .sine => true
  | .tri => true
  | .sawUp => true
  | .sawDown => true
  | .square => false
  | .sh8 => false
  | .shFree => false

/-- `fade(e, D)` (R211). -/
def fade (c : Cfg) (e D : Nat) : Num :=
  if D = 0 then 1 else min 1 (c.div (c.ofNat e) (c.ofNat D))

/-- The phase advance per sample in cycles (R208). -/
def lfoDphi (c : Cfg) (P : Memory) : Num := c.div (c.lfoHz (patchLfoSpeed P)) c.sampleRate

/-- `delaySamples` (R208). -/
def lfoDelay (c : Cfg) (P : Memory) : Nat := c.lfoDelaySamples (patchLfoDelay P)

/-- `min(floor(8 × p), 7)`, the eighth of the cycle (R15, R209). -/
def lfoEighth (c : Cfg) (p : Num) : Fin 8 :=
  ⟨min (c.mul 8 p).floor.toNat 7, by omega⟩

/-- The redraw at the start of a block in 8-step mode (R209). -/
def lfoRedrawSh8 (c : Cfg) (l : Lfo) : Lfo :=
  let idx := lfoEighth c l.p
  if idx ≠ l.stepIdx then { lfoDraw c l with stepIdx := idx } else l

/-- The redraw at the start of a block, by waveform; `wasWrap` is the wrap flag the previous block left (R212 lines 2 to 4, R209, R210). -/
def lfoRedraw (c : Cfg) (w : LfoWave) (l : Lfo) : Lfo :=
  let wasWrap := l.wrap
  let l := { l with wrap := false }
  match w with
  | .sh8 => lfoRedrawSh8 c l
  | .shFree => if wasWrap then lfoDraw c l else l
  | .sine => l
  | .tri => l
  | .sawUp => l
  | .sawDown => l
  | .square => l

/-- `LFO.blockUpdate(v, n)`, `n >= 1` (R212, its pseudocode; its corner case (d) disagrees, log entry 21). -/
def lfoBlockUpdate (c : Cfg) (P : Memory) (n : Nat) (l : Lfo) : Lfo :=
  let w := patchLfoWave P
  let D := lfoDelay c P
  let l := lfoRedraw c w l
  let u := c.add l.p (c.mul (c.ofNat n) (lfoDphi c P))
  let p1 := c.frac u
  let e1 := min (l.e + n) D
  let val := c.mul (wave c w l.p l.sh) (fade c l.e D)
  let inc :=
    if waveContinuous w then c.div (c.sub (c.mul (wave c w p1 l.sh) (fade c e1 D)) val) (c.ofNat n) else 0
  { l with p := p1, e := e1, val := val, inc := inc, wrap := decide (1 ≤ u) }

end Sys2Proof.Machine
end

