-- ==== Sys2Proof/Machine/Aeg.lean ====
section
/-! DEFINITION. The amplitude envelope generator (41_aeg.md, R150 to R159). `P` is the current patch, `i` the operator's index. -/

namespace Sys2Proof.Machine

/-- The output level `aeg_out` (R152). -/
def aegOut (c : Cfg) (g : Aeg) : Num :=
  if g.stage = .idle then 0
  else if g.rising then c.add (c.mul g.k (c.egCurve g.raw)) g.c
  else c.egGain g.raw

/-- The target of stage `s` of operator `i` (R151). -/
def aegTarget (c : Cfg) (P : Memory) (i : Fin 4) (s : Stage) : Num := c.egLevel (opEgLevel P i s)

/-- `AEG.reset` (R153). -/
def aegReset (c : Cfg) (P : Memory) (i : Fin 4) (_g : Aeg) : Aeg :=
  { stage := .idle, raw := 0, rising := false, step := 0, k := 0, c := 0, target := aegTarget c P i .idle }

/-- The slope `k` of the rising map from `raw` to `target` (R154). -/
def aegSlope (c : Cfg) (raw target : Num) : Num :=
  c.div (c.sub (c.egGain target) (c.egGain raw)) (c.sub (c.egCurve target) (c.egCurve raw))

/-- `AEG.enter(v, i, s)`, the stage-entry step (R154). -/
def aegEnter (c : Cfg) (P : Memory) (i : Fin 4) (s : Stage) (g : Aeg) : Aeg :=
  let target := aegTarget c P i s
  if s = .sustain then { g with stage := s, target := target, rising := false, step := 0 }
  else
    let rising := ramps g.raw target
    let step := c.mul (c.egRateStep (opEgRate P i s)) (if rising then c.egRiseScale else c.egFallScale)
    if rising then
      let k := aegSlope c g.raw target
      { g with stage := s, target := target, rising := true, step := step, k := k,
               c := c.sub (c.egGain g.raw) (c.mul k (c.egCurve g.raw)) }
    else { g with stage := s, target := target, rising := false, step := step }

/-- `AEG.toIdle` (R156). -/
def aegToIdle (c : Cfg) (P : Memory) (i : Fin 4) (g : Aeg) : Aeg :=
  { g with stage := .idle, raw := 0, rising := false, step := 0, target := aegTarget c P i .idle }

/-- What the end of a ramping stage does (R155, the case of its last lines). -/
def aegNextStage (c : Cfg) (P : Memory) (i : Fin 4) (g : Aeg) : Aeg :=
  match g.stage with
  | .attack => aegEnter c P i .decay1 g
  | .decay1 => aegEnter c P i .decay2 g
  | .decay2 => aegEnter c P i .sustain g
  | .release => aegToIdle c P i g
  | .sustain => g
  | .idle => g

/-- `AEG.tick` (R155): one sample, at most one transition. -/
def aegTick (c : Cfg) (P : Memory) (i : Fin 4) (g : Aeg) : Aeg :=
  if stageHolds g.stage then g
  else
    let raw := if g.rising then c.add g.raw g.step else c.sub g.raw g.step
    if rampDone g.rising raw g.target then aegNextStage c P i { g with raw := g.target }
    else { g with raw := raw }

/-- `AEG.reexpress`, the change of domain (R159). That it leaves `raw` at least 0 (R22) is `Cfg.GainInvKeepsRawType`: log entry 9. -/
def aegReexpress (c : Cfg) (g : Aeg) : Aeg :=
  if g.stage ≠ .idle ∧ g.rising = true then { g with raw := c.egGainInv (aegOut c g) } else g

/-- `AEG.gateOn` (R157). -/
def aegGateOn (c : Cfg) (P : Memory) (i : Fin 4) (kind : GateKind) (g : Aeg) : Aeg :=
  match kind with
  | .hard => aegEnter c P i .attack { g with raw := 0, rising := false }
  | .soft => aegEnter c P i .attack (aegReexpress c g)

/-- `AEG.gateOff` (R158). -/
def aegGateOff (c : Cfg) (P : Memory) (i : Fin 4) (g : Aeg) : Aeg :=
  if stageGated g.stage then aegEnter c P i .release (aegReexpress c g) else g

/-- A state an AEG can be in: any the rules of 41_aeg.md bring about from a reset, each reading whatever patch is current then (R69). -/
inductive AegReached (c : Cfg) : Aeg → Prop where
  | reset (P : Memory) (i : Fin 4) (g : Aeg) : AegReached c (aegReset c P i g)
  | gateOn (P : Memory) (i : Fin 4) (kind : GateKind) {g : Aeg} : AegReached c g → AegReached c (aegGateOn c P i kind g)
  | gateOff (P : Memory) (i : Fin 4) {g : Aeg} : AegReached c g → AegReached c (aegGateOff c P i g)
  | tick (P : Memory) (i : Fin 4) {g : Aeg} : AegReached c g → AegReached c (aegTick c P i g)

end Sys2Proof.Machine
end

