-- ==== Sys2Proof/Machine/Oper.lean ====
section
/-! DEFINITION. The Operator (40_operator.md, R120 to R134). `P` is the current patch, `i` the operator's index. -/

namespace Sys2Proof.Machine

/-- `Operator.reset` (R121). -/
def operReset (c : Cfg) (P : Memory) (i : Fin 4) (o : Operator) : Operator :=
  { o with phase := 0, fbAcc := 0, fbFilt := 0, aeg := aegReset c P i o.aeg }

/-- The phase increment per sample (R123). -/
def operInc (c : Cfg) (P : Memory) (i : Fin 4) (baseHz : Num) : Num :=
  c.div (c.opFreq (opFreqMode P i) (opFreqCoarse P i) (opFreqFine P i) (opFreqDetune P i) baseHz) c.sampleRate

/-- The key-scaling factor, clamped to [0,2] (R124). -/
def operKeyScale (c : Cfg) (P : Memory) (i : Fin 4) (t : Int) : Num :=
  clamp (c.ksFactor t (opKsDepthL P i) (opKsCurveL P i) (opKsDepthR P i) (opKsCurveR P i)) 0 2

/-- The velocity gain (R125). -/
def operVelGain (c : Cfg) (P : Memory) (i : Fin 4) (vel : U7) : Num := c.velGain vel (opVelSens P i)

/-- The output gain (R126). -/
def operOutGain (c : Cfg) (P : Memory) (i : Fin 4) (t : Int) (vel : U7) : Num :=
  c.mul (c.expGain (c.mul (c.ofNat (opOutLevel P i).val) (operVelGain c P i vel))) (operKeyScale c P i t)

/-- `Operator.setParams(v, i, t, vel, baseHz)` (R122 to R127). -/
def operSetParams (c : Cfg) (P : Memory) (i : Fin 4) (t : Int) (vel : U7) (baseHz : Num) (o : Operator) : Operator :=
  { o with enabled := en (opEnable P i), inc := operInc c P i baseHz,
           outGain := operOutGain c P i t vel, fbScale := c.fbScale (opFbLevel P i) }

/-- `Operator.gate(v, i, true, kind)` (R128): the enable flag is not consulted, so a disabled operator's envelope is gated too. Against R373's last
sentence: log entry 20. -/
def operGateOn (c : Cfg) (P : Memory) (i : Fin 4) (kind : GateKind) (o : Operator) : Operator :=
  { o with aeg := aegGateOn c P i kind o.aeg }

/-- `Operator.gate(v, i, false, _)` (R128). -/
def operGateOff (c : Cfg) (P : Memory) (i : Fin 4) (o : Operator) : Operator :=
  { o with aeg := aegGateOff c P i o.aeg }

/-- The input of the feedback filter: the accumulator, rectified for the square-like type (R130 lines 3 and 4, R131). -/
def operFeedback (c : Cfg) (P : Memory) (i : Fin 4) (o : Operator) : Num :=
  match opFbType P i with
  | .square => c.rectify o.fbAcc
  | .plain => o.fbAcc

/-- `Operator.compute(v, i, in, pmS)` (R130): the sample, and the operator one tick on. -/
def operCompute (c : Cfg) (P : Memory) (i : Fin 4) (inp pmS : Num) (o : Operator) : Num × Operator :=
  if o.enabled = false then (0, o)
  else
    let aeg := aegTick c P i o.aeg
    let fbFilt := c.add o.fbFilt (c.mul c.fbLpCoef (c.sub (operFeedback c P i o) o.fbFilt))
    let s := c.sine (c.frac (c.add (c.add o.phase inp) (c.mul fbFilt o.fbScale)))
    let phase := c.frac (c.add o.phase (c.mul o.inc (c.semiRatio pmS)))
    (c.mul (c.mul s o.outGain) (aegOut c aeg), { o with aeg := aeg, fbFilt := fbFilt, phase := phase, fbAcc := s })

end Sys2Proof.Machine
end

