-- ==== Sys2Proof/Machine/Peg.lean ====
section
/-! DEFINITION. The pitch envelope generator (42_peg.md, R180 to R188). `P` is the current patch. -/

namespace Sys2Proof.Machine

/-- The target of stage `s` (R181). -/
def pegTarget (c : Cfg) (P : Memory) (s : Stage) : Num := c.pegLevel (patchPegLevel P s)

/-- `PEG.reset` (R182): it rests at its RELEASE level. -/
def pegReset (c : Cfg) (P : Memory) (_g : Peg) : Peg :=
  { stage := .idle, raw := pegTarget c P .release, target := pegTarget c P .release, step := 0, rising := false }

/-- `PEG.enter(v, s)`, the stage-entry step (R183). -/
def pegEnter (c : Cfg) (P : Memory) (s : Stage) (g : Peg) : Peg :=
  let target := pegTarget c P s
  if s = .sustain then { g with stage := s, target := target, rising := false, step := 0 }
  else
    let rising := ramps g.raw target
    { g with stage := s, target := target, rising := rising,
             step := c.mul (c.pegRateStep (patchPegRate P s)) (if rising then 1 else c.pegFallScale) }

/-- `PEG.toIdle` (R185): the level stays where it arrived. -/
def pegToIdle (g : Peg) : Peg := { g with stage := .idle, rising := false, step := 0 }

/-- What the end of a ramping stage does (R184, the case of its last lines). -/
def pegNextStage (c : Cfg) (P : Memory) (g : Peg) : Peg :=
  match g.stage with
  | .attack => pegEnter c P .decay1 g
  | .decay1 => pegEnter c P .decay2 g
  | .decay2 => pegEnter c P .sustain g
  | .release => pegToIdle g
  | .sustain => g
  | .idle => g

/-- `PEG.tick` (R184): one sample, at most one transition. -/
def pegTick (c : Cfg) (P : Memory) (g : Peg) : Peg :=
  if stageHolds g.stage then g
  else
    let raw := if g.rising then c.add g.raw g.step else c.sub g.raw g.step
    if rampDone g.rising raw g.target then pegNextStage c P { g with raw := g.target }
    else { g with raw := raw }

/-- `PEG.gateOn` (R186). -/
def pegGateOn (c : Cfg) (P : Memory) (kind : GateKind) (g : Peg) : Peg :=
  match kind with
  | .hard => pegEnter c P .attack { g with raw := pegTarget c P .release, rising := false }
  | .soft => pegEnter c P .attack g

/-- `PEG.gateOff` (R187). -/
def pegGateOff (c : Cfg) (P : Memory) (g : Peg) : Peg :=
  if stageGated g.stage then pegEnter c P .release g else g

/-- `peg_out`, the source's `outVal()` (R188). -/
def pegOut (c : Cfg) (g : Peg) : Num := c.sub g.raw c.pegCenter

end Sys2Proof.Machine
end

