-- ==== Sys2Proof/Machine/Voices.lean ====
section
/-! DEFINITION. The Voice (44_voice.md, R230 to R263): note state, modulation routing, the algorithm mixer and the stealing score. `P` is the
current patch, `ctl` the Controls. -/

namespace Sys2Proof.Machine

/-- `Voice.reset` (R232). -/
def voiceReset (c : Cfg) (P : Memory) (v : Voice) : Voice :=
  { note := 0, velocity := 0, gate := false, sustained := false, justAllocated := false,
    portaStart := 0, portaTarget := 0, portaPos := 1, pm := Quad.replicate 0, am := Quad.replicate 0,
    algId := patchAlg P, lfoCur := 0, op := v.op.mapIdx (operReset c P), peg := pegReset c P v.peg, lfo := lfoReset v.lfo }

/-- `currentNote(v)`, the pitch the glide has reached (R242). -/
def currentNote (c : Cfg) (v : Voice) : Num :=
  c.add v.portaStart (c.mul (c.sub v.portaTarget v.portaStart) v.portaPos)

/-! Note-on (R233 to R238). -/

/-- The three actions of a note-on (R234). -/
inductive NoteAction where
  /-- A, retrigger (R236). -/
  | retrigger
  /-- B, legato glide (R237). -/
  | glide
  /-- C, glide with re-gate (R238). -/
  | regate
  deriving DecidableEq, Repr

/-- The target semitone: note plus transpose, the sum not clamped (R233). -/
def noteTarget (c : Cfg) (P : Memory) (n : U7) : Int := (n.val : Int) + c.transpose (patchTranspose P)

/-- The action table (R234). -/
def noteAction (mode : Mode) (overlap portaAndActive : Bool) : NoteAction :=
  match mode, overlap, portaAndActive with
  | .poly, _, _ => .retrigger
  | .monoLegato, true, _ => .glide
  | .monoLegato, false, _ => .retrigger
  | .monoFull, true, _ => .glide
  | .monoFull, false, true => .regate
  | .monoFull, false, false => .retrigger

/-- The writes common to all three actions (R235). -/
def noteOnCommon (P : Memory) (n vel : U7) (v : Voice) : Voice :=
  { v with note := n, velocity := vel, gate := true, sustained := false, justAllocated := false, algId := patchAlg P }

/-- Action A, retrigger (R236). The AEG of a disabled operator is gated too and stands still (R128, R132); enabled later by `OP_PARAM` and action B it starts
its ATTACK, where R373 says it stays silent. DESIGN CHOICE, log entry 20. -/
def voiceRetrigger (c : Cfg) (P : Memory) (tgt : Int) (vel : U7) (v : Voice) : Voice :=
  { v with
    op := v.op.mapIdx fun i o =>
      operGateOn c P i .hard (operSetParams c P i tgt vel (c.noteHz tgt) (operReset c P i o))
    peg := pegGateOn c P .hard v.peg
    lfo := lfoSync c v.lfo
    portaStart := c.ofInt tgt, portaTarget := c.ofInt tgt, portaPos := 1 }

/-- Action B, legato glide (R237); `cur` is the pitch the voice had. -/
def voiceGlide (c : Cfg) (P : Memory) (portaActive : Bool) (cur : Num) (tgt : Int) (vel : U7) (v : Voice) : Voice :=
  { v with
    op := v.op.mapIdx fun i o => operSetParams c P i tgt vel (c.noteHz tgt) o
    portaStart := if portaActive then cur else c.ofInt tgt
    portaTarget := c.ofInt tgt
    portaPos := if portaActive then 0 else 1 }

/-- Action C, glide with re-gate (R238): action B, then every envelope gated on softly. -/
def voiceRegate (c : Cfg) (P : Memory) (portaActive : Bool) (cur : Num) (tgt : Int) (vel : U7) (v : Voice) : Voice :=
  let v := voiceGlide c P portaActive cur tgt vel v
  { v with op := v.op.mapIdx fun i o => operGateOn c P i .soft o, peg := pegGateOn c P .soft v.peg }

/-- `Voice.noteOn(v, n, vel)` (R233 to R238): the decision is made before any write. -/
def voiceNoteOn (c : Cfg) (P : Memory) (ctl : Controls) (n vel : U7) (v : Voice) : Voice :=
  let tgt := noteTarget c P n
  let porta := portaInForce ctl
  let cur := currentNote c v
  let w := noteOnCommon P n vel v
  match noteAction (patchMode P) v.gate (porta && isActive v) with
  | .retrigger => voiceRetrigger c P tgt vel w
  | .glide => voiceGlide c P porta cur tgt vel w
  | .regate => voiceRegate c P porta cur tgt vel w

/-! Note-off and release. -/

/-- `Voice.release` (R240). -/
def voiceRelease (c : Cfg) (P : Memory) (v : Voice) : Voice :=
  { v with op := v.op.mapIdx (operGateOff c P), peg := pegGateOff c P v.peg, sustained := false }

/-- `Voice.noteOff` (R239). -/
def voiceNoteOff (c : Cfg) (P : Memory) (ctl : Controls) (v : Voice) : Voice :=
  let v := { v with gate := false }
  if ctl.sustain then { v with sustained := true } else voiceRelease c P v

/-! The per-sample update. -/

/-- The portamento position one sample on (R241 lines 2 to 5). -/
def portaAdvance (c : Cfg) (ctl : Controls) (pos : Num) : Num :=
  if portaInForce ctl = false then 1
  else if pos < 1 then min 1 (c.add pos (c.div 1 (c.mul ctl.portaTimeSec c.sampleRate)))
  else pos

/-- The phase modulation of operator `i`, five addends summed left to right (R241 lines 11 to 15). -/
def phaseMod (c : Cfg) (P : Memory) (ctl : Controls) (pg lfoCur off : Num) (i : Fin 4) : Num :=
  c.add (c.add (c.add (c.add
    (c.mul pg (enNum (opPegEnable P i)))
    (c.mul (c.mul lfoCur (c.lfoPmd (patchLfoDepth P))) (enNum (opLfoPmEnable P i))))
    (c.modwheelPm ctl.modWheel lfoCur))
    ctl.pitchBend)
    off

/-- The amplitude modulation of operator `i` (R241 line 16). -/
def ampMod (c : Cfg) (P : Memory) (lfoCur : Num) (i : Fin 4) : Num :=
  clamp (c.mul lfoCur (c.lfoAmd (opLfoAmDepth P i))) 0 1

/-- `Voice.updateMods` (R241). -/
def voiceUpdateMods (c : Cfg) (P : Memory) (ctl : Controls) (v : Voice) : Voice :=
  let peg := pegTick c P v.peg
  let v := { v with peg := peg, portaPos := portaAdvance c ctl v.portaPos, lfoCur := c.add v.lfoCur (lfoGetIncrement v.lfo) }
  let off := c.sub (currentNote c v) v.portaTarget
  { v with
    pm := v.pm.mapIdx fun i _ => phaseMod c P ctl (pegOut c peg) v.lfoCur off i
    am := v.am.mapIdx fun i _ => ampMod c P v.lfoCur i }

/-! The algorithm mixer. -/

/-- The sum of the flagged values in ascending order, starting from 0 (R251 lines 5, 6, 9, 10; R262 lines 5, 6). -/
def sumFlagged (c : Cfg) (f : Quad Bool) (y : Quad Num) : Num :=
  let a0 := if f.q0 then c.add 0 y.q0 else 0
  let a1 := if f.q1 then c.add a0 y.q1 else a0
  let a2 := if f.q2 then c.add a1 y.q2 else a1
  if f.q3 then c.add a2 y.q3 else a2

/-- One turn of the operator loop (R251 lines 5 to 8) for operator `i`: `y` holds the outputs found so far. -/
def stepOperator (c : Cfg) (P : Memory) (A : AlgDesc) (pm am : Quad Num) (y : Quad Num) (ops : Quad Operator) (i : Fin 4) :
    Quad Num × Quad Operator :=
  let inp := c.mul c.modIndex (sumFlagged c (A.mods.get i) y)
  let r := operCompute c P i inp (pm.get i) (ops.get i)
  (y.set i (c.mul r.1 (c.sub 1 (am.get i))), ops.set i r.2)

/-- The operator loop: 3, 2, 1, 0 (R251 line 4). -/
def stepOperators (c : Cfg) (P : Memory) (A : AlgDesc) (pm am : Quad Num) (ops : Quad Operator) : Quad Num × Quad Operator :=
  let r3 := stepOperator c P A pm am (Quad.replicate 0) ops 3
  let r2 := stepOperator c P A pm am r3.1 r3.2 2
  let r1 := stepOperator c P A pm am r2.1 r2.2 1
  stepOperator c P A pm am r1.1 r1.2 0

/-- The algorithm descriptor an id selects; none above 11 (R107, R252). -/
def algorithmOf (c : Cfg) (algId : Byte) : Option AlgDesc :=
  if h : algId.toNat < 12 then some (c.algTable ⟨algId.toNat, h⟩) else none

/-- `Voice.step` (R251): the sample, and the voice one tick on; silence for an invalid id (R252). -/
def voiceStep (c : Cfg) (P : Memory) (ctl : Controls) (v : Voice) : Num × Voice :=
  let v := voiceUpdateMods c P ctl v
  match algorithmOf c v.algId with
  | none => (0, v)
  | some A =>
    let r := stepOperators c P A v.pm v.am v.op
    (c.mul A.mixGain (sumFlagged c A.carriers r.1), { v with op := r.2 })

/-! The stealing score. -/

/-- The weight by carrier count (R262 line 7). -/
def scoreWeight (c : Cfg) (carriers : Nat) : Num :=
  match carriers with
  | 1 => 1
  | 2 => c.invSqrt2
  | 3 => c.invSqrt3
  | _ => 1 / 2

/-- `Voice.calcScore` (R262). -/
def calcScore (c : Cfg) (v : Voice) : Num :=
  if isActive v = false then 0
  else if v.justAllocated then c.scoreSentinel
  else
    match algorithmOf c v.algId with
    | none => 0
    | some A =>
      let flags := A.carriers.mapIdx fun i f => f && (v.op.get i).enabled
      let S := sumFlagged c flags (v.op.mapIdx fun _ o => aegOut c o.aeg)
      let h := if v.gate || v.sustained then 1 else c.scoreReleasedAtten
      c.mul (c.mul (c.mul S (scoreWeight c A.carriers.count)) (c.ofNat v.velocity.val)) h

end Sys2Proof.Machine
end

