-- ==== Sys2Proof/Machine/Chosen.lean ====
section
/-! DEFINITION. The last constraints on a configuration, which need the envelopes and scores themselves: that of `SCORE_SENTINEL` (R6, R263), and the type R22
gives `raw`; and the one configuration of the machine, of which nothing but the constraints is known. -/

namespace Sys2Proof

open Sys2Proof.Machine

/-- The constraint on `SCORE_SENTINEL` (R6), each envelope taken on its own: DEDUCED, log entry 8. -/
structure Cfg.SentinelAboveScores (c : Cfg) : Prop where
  /-- R263 (3): above `4 × G × 0.5 × 127` for every value `aeg_out` can take. -/
  bound : ∀ g, AegReached c g → 4 * aegOut c g * (1 / 2) * 127 < c.scoreSentinel
  /-- R6: "greater than every score rule R262 can produce without it", under either instance of NUM. -/
  scores : ∀ x : Voice, (∀ i, AegReached c (x.op.get i).aeg) → x.justAllocated = false → calcScore c x < c.scoreSentinel

/-- R22 types `raw` as at least 0, and only a re-expression (R159) can make it anything else: so `EG_GAIN_INV` is at least 0 at every output at which a rising
envelope can be re-expressed, one that `EG_GAIN` takes (R7) or not. DEDUCED, log entry 9. -/
def Cfg.GainInvKeepsRawType (c : Cfg) : Prop :=
  ∀ g, AegReached c g → g.stage ≠ .idle → g.rising = true → 0 ≤ c.egGainInv (aegOut c g)

/-- A configuration record that meets every constraint of R6 and R7, and under which R22's type of `raw` holds. -/
structure MachineCfg extends Cfg where
  sentinelAboveScores : toCfg.SentinelAboveScores
  gainInvKeepsRawType : toCfg.GainInvKeepsRawType

/-- Where all levels and rates are 0, every AEG stays at level 0 and never rises. -/
theorem Machine.AegReached.of_flat {c : Cfg} (h0 : c.round 0 = 0) (hl : ∀ b, c.egLevel b = 0) (hr : ∀ b, c.egRateStep b = 0) {g : Aeg}
    (h : AegReached c g) : g.raw = 0 ∧ g.target = 0 ∧ g.rising = false ∧ g.step = 0 := by
  have mul0 : ∀ x, c.mul 0 x = 0 := fun x => by rw [Cfg.mul, zero_mul, h0]
  have ht : ∀ P i s, aegTarget c P i s = 0 := fun P i s => hl _
  have enter : ∀ P i s (g : Aeg), g.raw = 0 → g.rising = false → g.step = 0 →
      (aegEnter c P i s g).raw = 0 ∧ (aegEnter c P i s g).target = 0 ∧ (aegEnter c P i s g).rising = false ∧ (aegEnter c P i s g).step = 0 := by
    intro P i s g h1 h2 h3
    have : ramps g.raw (aegTarget c P i s) = false := by simp [ramps, h1, ht]
    unfold aegEnter
    simp only [this]
    split_ifs <;> simp_all
  have expr : ∀ g : Aeg, g.rising = false → aegReexpress c g = g := fun g h => by simp [aegReexpress, h]
  induction h with
  | reset P i g => exact ⟨rfl, ht _ _ _, rfl, rfl⟩
  | @gateOn P i kind g _ ih =>
    cases kind
    · exact enter P i .attack { g with raw := 0, rising := false } rfl rfl ih.2.2.2
    · have e : aegGateOn c P i .soft g = aegEnter c P i .attack g := congrArg (aegEnter c P i .attack) (expr g ih.2.2.1)
      rw [e]
      exact enter P i .attack g ih.1 ih.2.2.1 ih.2.2.2
  | @gateOff P i g _ ih =>
    unfold aegGateOff
    split_ifs
    · rw [expr g ih.2.2.1]
      exact enter P i .release g ih.1 ih.2.2.1 ih.2.2.2
    · exact ih
  | @tick P i g _ ih =>
    have arrives : aegTick c P i g = g ∨ aegTick c P i g = aegNextStage c P i { g with raw := g.target } := by
      unfold aegTick
      simp only [ih.1, ih.2.1, ih.2.2.1, ih.2.2.2, rampDone, Cfg.sub, sub_zero, h0]
      split_ifs <;> simp_all
    rcases arrives with e | e <;> rw [e]
    · exact ih
    · unfold aegNextStage
      split
      · exact enter P i _ _ ih.2.1 ih.2.2.1 ih.2.2.2
      · exact enter P i _ _ ih.2.1 ih.2.2.1 ih.2.2.2
      · exact enter P i _ _ ih.2.1 ih.2.2.1 ih.2.2.2
      · exact ⟨rfl, ht _ _ _, rfl, rfl⟩
      · exact ⟨ih.2.1, ih.2.1, ih.2.2⟩
      · exact ⟨ih.2.1, ih.2.1, ih.2.2⟩

/-- A configuration whose levels and rates are all 0 meets the constraint on the sentinel. -/
theorem Cfg.SentinelAboveScores.of_flat {c : Cfg} (h0 : c.round 0 = 0) (hl : ∀ b, c.egLevel b = 0) (hr : ∀ b, c.egRateStep b = 0)
    (hg : c.egGain 0 = 0) (hs : 0 < c.scoreSentinel) : c.SentinelAboveScores := by
  have mul0 : ∀ x, c.mul 0 x = 0 := fun x => by rw [Cfg.mul, zero_mul, h0]
  have out : ∀ g, AegReached c g → aegOut c g = 0 := by
    intro g h
    obtain ⟨h1, -, h3, -⟩ := h.of_flat h0 hl hr
    unfold aegOut
    rw [h1, h3, hg]
    simp
  refine ⟨fun g h => by rw [out g h]; simpa using hs, fun x hx hj => ?_⟩
  have hsum : ∀ f, sumFlagged c f (x.op.mapIdx fun _ o => aegOut c o.aeg) = 0 := by
    intro f
    have q : x.op.mapIdx (fun _ o => aegOut c o.aeg) = ⟨0, 0, 0, 0⟩ := by
      show (⟨aegOut c (x.op.get 0).aeg, aegOut c (x.op.get 1).aeg, aegOut c (x.op.get 2).aeg, aegOut c (x.op.get 3).aeg⟩ : Quad Num) = _
      rw [out _ (hx 0), out _ (hx 1), out _ (hx 2), out _ (hx 3)]
    simp [q, sumFlagged, Cfg.add, h0]
  have score : calcScore c x = 0 := by
    unfold calcScore
    by_cases h : isActive x = false
    · rw [if_pos h]
    · rw [if_neg h, if_neg (by simp [hj])]
      cases algorithmOf c x.algId with
      | none => rfl
      | some A => simp only [hsum, mul0]
  rw [score]
  exact hs

/-- It meets the constraint on `EG_GAIN_INV` too, since nothing rises. -/
theorem Cfg.GainInvKeepsRawType.of_flat {c : Cfg} (h0 : c.round 0 = 0) (hl : ∀ b, c.egLevel b = 0) (hr : ∀ b, c.egRateStep b = 0) :
    c.GainInvKeepsRawType := fun g h _ hrise => by
  rw [(h.of_flat h0 hl hr).2.2.1] at hrise
  cases hrise

/-- `Cfg.sample` with the two last constraints. -/
def MachineCfg.sample : MachineCfg :=
  { Cfg.sample with
    sentinelAboveScores := Cfg.SentinelAboveScores.of_flat (c := Cfg.sample) rfl (fun _ => rfl) (fun _ => rfl) rfl (by show (0 : Num) < 1000; norm_num)
    gainInvKeepsRawType := Cfg.GainInvKeepsRawType.of_flat (c := Cfg.sample) rfl (fun _ => rfl) (fun _ => rfl) }

/-- Some configuration, chosen by nothing: it has no body, so Lean can neither evaluate it nor prove of it anything but the
constraints every `MachineCfg` carries. (The argument only tells Lean that one exists.) DESIGN CHOICE, log entry 1. -/
opaque Config.choose [Inhabited MachineCfg] : MachineCfg

/-- THE configuration of the machine, "fixed before power-on" (R361, R364). Everything the spec leaves OPEN (92 D1, D2, D3) is free in it. -/
def Config.cfg : Cfg := (@Config.choose ⟨MachineCfg.sample⟩).toCfg

/-- The machine's configuration meets the constraint of R6 on `SCORE_SENTINEL`. -/
theorem Config.cfg_sentinelAboveScores : Config.cfg.SentinelAboveScores := (@Config.choose ⟨MachineCfg.sample⟩).sentinelAboveScores

/-- Under the machine's configuration no re-expression leaves R22's type of `raw`. -/
theorem Config.cfg_gainInvKeepsRawType : Config.cfg.GainInvKeepsRawType := (@Config.choose ⟨MachineCfg.sample⟩).gainInvKeepsRawType

end Sys2Proof
end

