-- ==== Sys2Proof/Machine/State.lean ====
section
/-! DEFINITION. The state of the machine (R20 to R35), all of it plain data, the reasons a step can stop, and the state after power-on (R36). The parts of
a voice and the patch memory stand in Machine/Units.lean. -/

namespace Sys2Proof.Machine

/-- Why the machine stops. It never does: "No exceptions are used" (R340), "synthesis never halts"; so there is no fault to name. Safe: nothing
that the spec lets go on is stopped. -/
inductive Fault where
  deriving DecidableEq, Repr

/-- Why a command has no meaning in the model. -/
inductive Refusal where
  /-- Raised only by an arm of `exec` whose command is not modelled; no arm does. Safe: nothing is claimed of such a command. -/
  | notModelled (mnemonic : String)
  deriving DecidableEq, Repr

/-- Allocator state (R27): `stack` holds all NOTE_STACK_CAP cells, `depth` says how many are valid. -/
structure Alloc where
  stack      : List U7
  depth      : Nat
  monoActive : Bool
  deriving DecidableEq, Repr

/-- One pair of the output stream (R35). -/
structure Sample where
  left  : Num
  right : Num
  deriving DecidableEq, Repr

/-- The whole state: the tuple of R20, and `port`, the command words the host has presented and the core has not taken yet (R13,
R313; the model's own field, DESIGN CHOICE, log entry 3). -/
structure State where
  stg    : Memory
  cur    : Memory
  ctl    : Controls
  alloc  : Alloc
  voices : List Voice
  out    : List Sample
  port   : List Word
  deriving DecidableEq, Repr

/-- The AEG at power-on (R22): `CUR` is all zero, so its target is `EG_LEVEL(0)`. -/
def Aeg.powerOn (c : Cfg) : Aeg :=
  { stage := .idle, raw := 0, target := c.egLevel 0, step := 0, rising := false, k := 0, c := 0 }

/-- The operator at power-on (R21). -/
def Operator.powerOn (c : Cfg) : Operator :=
  { phase := 0, inc := 0, fbAcc := 0, fbFilt := 0, outGain := 0, fbScale := 0, enabled := false, aeg := Aeg.powerOn c }

/-- The PEG at power-on (R24): it rests at `PEG_LEVEL(0)`. -/
def Peg.powerOn (c : Cfg) : Peg :=
  { stage := .idle, raw := c.pegLevel 0, target := c.pegLevel 0, step := 0, rising := false }

/-- The LFO of voice `v` at power-on (R25). -/
def Lfo.powerOn (c : Cfg) (v : Nat) : Lfo :=
  { p := 0, e := 0, val := 0, inc := 0, sh := 0, rng := c.lfoSeed v, stepIdx := 0, wrap := false }

/-- Voice `v` at power-on (R26). -/
def Voice.powerOn (c : Cfg) (v : Nat) : Voice :=
  { note := 0, velocity := 0, gate := false, sustained := false, justAllocated := false,
    portaStart := 0, portaTarget := 0, portaPos := 1, pm := Quad.replicate 0, am := Quad.replicate 0,
    algId := 0, lfoCur := 0, op := Quad.replicate (Operator.powerOn c), peg := Peg.powerOn c, lfo := Lfo.powerOn c v }

/-- The Controls after reset (R28). -/
def Controls.initial : Controls :=
  { pitchBend := 0, modWheel := 0, volume := 1, sustain := false, portaEnable := true, portaTimeSec := 0 }

/-- The state after power-on (R36) under a configuration. The stack cells, of which the spec leaves the content unspecified (R27), hold
0: DESIGN CHOICE, log entry 6. -/
def State.powerOn (c : Cfg) : State :=
  { stg := [], cur := [], ctl := Controls.initial,
    alloc := { stack := List.replicate c.noteStackCap 0, depth := 0, monoActive := false },
    voices := (List.range c.numVoices).map (Voice.powerOn c), out := [], port := [] }

/-- The machine right after reset (R36, R361). -/
def State.reset : State := State.powerOn Config.cfg

end Sys2Proof.Machine
end

