-- ==== Sys2Proof/Machine/Pool.lean ====
section
/-! DEFINITION. The named operations on the whole state: access to the voice pool (R10), the mono stack emptied, the command port (R313), and what the effects
collaborator may read (R14). -/

namespace Sys2Proof.Machine

/-! The voice pool (R10, R26). -/

/-- `V[v] <- f(V[v])` (R10). An index past the pool, which no rule forms, changes nothing. -/
def State.modifyVoice (s : State) (v : Nat) (f : Voice → Voice) : State :=
  { s with voices := s.voices.modify v f }

/-- "for v in 0 .. NUM_VOICES - 1" (R10). -/
def State.mapVoices (s : State) (f : Voice → Voice) : State :=
  { s with voices := s.voices.map f }

/-- The mono stack emptied (R289, R290, R308): `ALLOC.depth <- 0; ALLOC.monoActive <- false`. -/
def Alloc.clear (a : Alloc) : Alloc := { a with depth := 0, monoActive := false }

/-! The command port (R313). -/

/-- The next word from the host, and the state once it is taken (R313); none while the host has presented nothing. -/
def takeCommand (s : State) : Option (Word × State) :=
  match s.port with
  | [] => none
  | w :: rest => some (w, { s with port := rest })

/-- The word presented to the core as its next command. -/
def presentCommand (w : Word) (s : State) : State := { s with port := w :: s.port }

/-! The effects collaborator. -/

/-- The six bytes of the two effect-slot descriptors `fx1`, `fx2`, which the core never reads and the effects collaborator may (R14, R60). -/
def effectSlotBytes (s : State) : List Byte := (List.range 6).map fun k => memRead s.cur (0x1D + k)

end Sys2Proof.Machine
end

