-- ==== Sys2Proof/Machine/Allocator.lean ====
section
/-! DEFINITION. The voice allocator (45_allocator.md, R280 to R290). -/

namespace Sys2Proof.Machine

/-- `Alloc.push` (R281): a push on a full stack is dropped. -/
def allocPush (c : Cfg) (n : U7) (a : Alloc) : Alloc :=
  if a.depth < c.noteStackCap then { a with stack := a.stack.set a.depth n, depth := a.depth + 1 } else a

/-- The greatest index below `d` whose cell holds `n` (R282). -/
def lastIndexOf (n : U7) (stack : List U7) (d : Nat) : Option Nat :=
  match d with
  | 0 => none
  | k + 1 => if stack[k]? = some n then some k else lastIndexOf n stack k

/-- The shift of R282: every cell from `k` to `depth - 2` takes its upper neighbour's note; the cell at `depth - 1` keeps its own. -/
def closeGap (stack : List U7) (k depth : Nat) : List U7 :=
  stack.take k ++ (stack.take depth).drop (k + 1) ++ stack.drop (depth - 1)

/-- `Alloc.remove` (R282). -/
def allocRemove (n : U7) (a : Alloc) : Alloc :=
  match lastIndexOf n a.stack a.depth with
  | none => a
  | some k => { a with stack := closeGap a.stack k a.depth, depth := a.depth - 1 }

/-- The note on top of the stack, `stack[depth-1]` (R27, R287). -/
def allocTop (a : Alloc) : U7 := a.stack.getD (a.depth - 1) 0

/-- The scan of R284 for the least score, from voice `v` on; the comparison is strict, so the first minimum wins. -/
def leastScore (c : Cfg) (voices : List Voice) (v best : Nat) (bestScore : Num) : Nat :=
  match voices with
  | [] => best
  | x :: rest =>
    if calcScore c x < bestScore then leastScore c rest (v + 1) v (calcScore c x)
    else leastScore c rest (v + 1) best bestScore

/-- The voice to steal (R284). -/
def stealVoice (c : Cfg) (voices : List Voice) : Nat :=
  match voices with
  | [] => 0
  | x :: rest => leastScore c rest 1 0 (calcScore c x)

/-- `Alloc.findVoice` in the mono modes (R283). -/
def findVoiceMono (c : Cfg) (n : U7) (s : State) : Nat × State :=
  (0, { s with alloc := { allocPush c n s.alloc with monoActive := true } })

/-- `Alloc.findVoice` in polyphonic mode (R284). -/
def findVoicePoly (c : Cfg) (s : State) : Nat × State :=
  match s.voices.findIdx? (fun v => !isActive v) with
  | some v => (v, s)
  | none =>
    let best := stealVoice c s.voices
    (best, s.modifyVoice best fun v => { v with justAllocated := true })

/-- `Alloc.findVoice(n, vel, mode)` (R283, R284): the velocity is used by neither. -/
def findVoice (c : Cfg) (n : U7) (mode : Mode) (s : State) : Nat × State :=
  match mode with
  | .poly => findVoicePoly c s
  | .monoFull => findVoiceMono c n s
  | .monoLegato => findVoiceMono c n s

/-- `Voice.noteOn(v, n, vel)` on voice `v` of the pool (R233). -/
def noteOnVoice (c : Cfg) (v : Nat) (n vel : U7) (s : State) : State :=
  s.modifyVoice v (voiceNoteOn c s.cur s.ctl n vel)

/-- `Voice.noteOff(v)` on voice `v` of the pool (R239). -/
def noteOffVoice (c : Cfg) (v : Nat) (s : State) : State :=
  s.modifyVoice v (voiceNoteOff c s.cur s.ctl)

/-- `Alloc.noteOff` in the mono modes (R287): release when the stack is empty, else the fallback note-on of the top note. -/
def allocNoteOffMono (c : Cfg) (n : U7) (s : State) : State :=
  let s := { s with alloc := allocRemove n s.alloc }
  if s.alloc.depth = 0 then
    let s := noteOffVoice c 0 s
    { s with alloc := { s.alloc with monoActive := false } }
  else noteOnVoice c 0 (allocTop s.alloc) c.fallbackVelocity s

/-- The voice a polyphonic note-off matches: active, held, on that note (R288). -/
def holdsNote (n : U7) (v : Voice) : Bool := isActive v && v.gate && v.note = n

/-- `Alloc.noteOff` in polyphonic mode (R288): the first match only. -/
def allocNoteOffPoly (c : Cfg) (n : U7) (s : State) : State :=
  match s.voices.findIdx? (holdsNote n) with
  | some v => noteOffVoice c v s
  | none => s

/-- `Alloc.noteOff(n, mode)` (R287, R288). -/
def allocNoteOff (c : Cfg) (n : U7) (mode : Mode) (s : State) : State :=
  match mode with
  | .poly => allocNoteOffPoly c n s
  | .monoFull => allocNoteOffMono c n s
  | .monoLegato => allocNoteOffMono c n s

/-- `Alloc.allNotesOff` (R289). -/
def allocAllNotesOff (c : Cfg) (s : State) : State :=
  let s := s.mapVoices fun v => if isActive v && v.gate then voiceNoteOff c s.cur s.ctl v else v
  { s with alloc := s.alloc.clear }

/-- Every voice reset and the mono stack emptied (R290, R308). -/
def resetVoices (c : Cfg) (s : State) : State :=
  let s := s.mapVoices (voiceReset c s.cur)
  { s with alloc := s.alloc.clear }

/-- `Alloc.allSoundOff` (R290). -/
def allocAllSoundOff (c : Cfg) (s : State) : State := resetVoices c s

end Sys2Proof.Machine
end

