-- ==== Sys2Proof/Machine/Controllers.lean ====
section
/-! DEFINITION. The controller commands: CTRL_CHANGE and PITCH_BEND (46_commands.md). -/

namespace Sys2Proof.Machine

/-- The pedal-release procedure (R304, id 2): every sustained voice is released, its mark cleared. -/
def releaseSustained (c : Cfg) (s : State) : State :=
  s.mapVoices fun v => if v.sustained then voiceRelease c s.cur v else v

/-- Control id 2, `SUSTAIN` (R304). -/
def setSustain (c : Cfg) (down : Bool) (s : State) : State :=
  let t := { s with ctl := { s.ctl with sustain := down } }
  if pedalRaised s.ctl.sustain down then releaseSustained c t else t

/-- `CTRL_CHANGE` (R92, R304): a value above 127 is clamped, an id above 4 ignored. -/
def cmdCtrlChange (c : Cfg) (id value : Nat) (s : State) : State :=
  let val := u7Nat value
  match id with
  | 0 => { s with ctl := { s.ctl with portaTimeSec := c.portaTime val } }
  | 1 => { s with ctl := { s.ctl with modWheel := c.mwFactor val } }
  | 2 => setSustain c (switchOn val) s
  | 3 => { s with ctl := { s.ctl with volume := c.volFactor val } }
  | 4 => { s with ctl := { s.ctl with portaEnable := switchOn val } }
  | _ => s

/-- `PITCH_BEND` (R305): semitones by the range byte of the current patch, at the moment the command runs. -/
def cmdPitchBend (c : Cfg) (bend : Int) (s : State) : State :=
  { s with ctl := { s.ctl with pitchBend := c.bendMap bend (patchPbRange s.cur) } }

/-- The meaning of `CTRL_CHANGE`. -/
def execCtrlChange (id value : Nat) (s : State) : Host.Outcome State Fault Refusal :=
  .next (cmdCtrlChange Config.cfg id value s)

/-- The meaning of `PITCH_BEND`. -/
def execPitchBend (bend : Int) (s : State) : Host.Outcome State Fault Refusal :=
  .next (cmdPitchBend Config.cfg bend s)

end Sys2Proof.Machine
end

