-- ==== Sys2Proof/Machine/Notes.lean ====
section
/-! DEFINITION. The note commands: NOTE_ON, NOTE_OFF, ALL_NOTES_OFF, ALL_SOUND_OFF (46_commands.md). Each command is a function of the configuration
and the state; its meaning is that function at the machine's own configuration. -/

namespace Sys2Proof.Machine

/-- `NOTE_ON` (R301): a note above 127 is ignored, a velocity above 127 clamped; velocity 0 is an ordinary note-on (R303). -/
def cmdNoteOn (c : Cfg) (note velocity : Nat) (s : State) : State :=
  if 127 < note then s
  else
    let n := u7Nat note
    let vel := u7Nat velocity
    let found := findVoice c n (patchMode s.cur) s
    noteOnVoice c found.1 n vel found.2

/-- `NOTE_OFF` (R302): a note above 127 is ignored. -/
def cmdNoteOff (c : Cfg) (note : Nat) (s : State) : State :=
  if 127 < note then s else allocNoteOff c (u7Nat note) (patchMode s.cur) s

/-- `ALL_NOTES_OFF` (R309). -/
def cmdAllNotesOff (c : Cfg) (s : State) : State := allocAllNotesOff c s

/-- `ALL_SOUND_OFF` (R310). -/
def cmdAllSoundOff (c : Cfg) (s : State) : State := allocAllSoundOff c s

/-- The meaning of `NOTE_ON`. -/
def execNoteOn (note velocity : Nat) (s : State) : Host.Outcome State Fault Refusal :=
  .next (cmdNoteOn Config.cfg note velocity s)

/-- The meaning of `NOTE_OFF`. -/
def execNoteOff (note : Nat) (s : State) : Host.Outcome State Fault Refusal :=
  .next (cmdNoteOff Config.cfg note s)

/-- The meaning of `ALL_NOTES_OFF`. -/
def execAllNotesOff (s : State) : Host.Outcome State Fault Refusal :=
  .next (cmdAllNotesOff Config.cfg s)

/-- The meaning of `ALL_SOUND_OFF`. -/
def execAllSoundOff (s : State) : Host.Outcome State Fault Refusal :=
  .next (cmdAllSoundOff Config.cfg s)

end Sys2Proof.Machine
end

