-- ==== Sys2Proof/Machine/Patches.lean ====
section
/-! DEFINITION. The patch commands: OP_PARAM, PATCH_WR, APPLY_PATCH (46_commands.md). -/

namespace Sys2Proof.Machine

/-- The byte an operand stands for; a number that does not fit, which no decoded command has, is taken modulo 256 (log entry 11). -/
def operandByte (v : Nat) : Byte := BitVec.ofNat 8 v

/-- `PATCH_WR` (R306): an address above 149 is ignored. -/
def cmdPatchWr (addr value : Nat) (s : State) : State :=
  if 149 < addr then s else { s with stg := memWrite s.stg addr (operandByte value) }

/-- `OP_PARAM` (R307): an operator above 3 or an offset above 27 is ignored. -/
def cmdOpParam (op offset value : Nat) (s : State) : State :=
  if 3 < op ∨ 27 < offset then s
  else { s with cur := memWrite s.cur (opAddr op offset) (operandByte value) }

/-- `APPLY_PATCH` (R308): the whole staging patch becomes current, its portamento time is loaded, every voice is reset, the note stack emptied. -/
def cmdApplyPatch (c : Cfg) (s : State) : State :=
  let s := { s with cur := s.stg }
  let s := { s with ctl := { s.ctl with portaTimeSec := c.portaTime (patchPortaTime s.cur) } }
  resetVoices c s

/-- The meaning of `OP_PARAM`. -/
def execOpParam (op offset value : Nat) (s : State) : Host.Outcome State Fault Refusal :=
  .next (cmdOpParam op offset value s)

/-- The meaning of `PATCH_WR`. -/
def execPatchWr (addr value : Nat) (s : State) : Host.Outcome State Fault Refusal :=
  .next (cmdPatchWr addr value s)

/-- The meaning of `APPLY_PATCH`. -/
def execApplyPatch (s : State) : Host.Outcome State Fault Refusal :=
  .next (cmdApplyPatch Config.cfg s)

end Sys2Proof.Machine
end

