-- ==== Sys2Proof/Machine/Render.lean ====
section
/-! DEFINITION. The command RENDER (46_commands.md, R312). -/

namespace Sys2Proof.Machine

/-- The block start of one voice (R312 lines 3 to 5): an active voice's LFO is updated and its interpolated value reloaded. So the LFO
elements depend on where the blocks begin even where all depths are 0, as the pseudocode gives; R312's remark says the whole state then does not. DEDUCED,
log entry 22. -/
def voiceBlockStart (c : Cfg) (P : Memory) (n : Nat) (v : Voice) : Voice :=
  if isActive v then
    let lfo := lfoBlockUpdate c P n v.lfo
    { v with lfo := lfo, lfoCur := lfoGetValue lfo }
  else v

/-- One sample of the pool (R312 lines 8 and 9): the active voices' samples added to `mix` in ascending order, each voice one tick on. -/
def mixVoices (c : Cfg) (P : Memory) (ctl : Controls) (voices : List Voice) (mix : Num) : Num × List Voice :=
  match voices with
  | [] => (mix, [])
  | v :: rest =>
    if isActive v then
      let r := voiceStep c P ctl v
      let rs := mixVoices c P ctl rest (c.add mix r.1)
      (rs.1, r.2 :: rs.2)
    else
      let rs := mixVoices c P ctl rest mix
      (rs.1, v :: rs.2)

/-- The output pair of a mix (R312 lines 10 and 11): no clipping, left and right alike. -/
def outputSample (c : Cfg) (ctl : Controls) (mix : Num) : Sample :=
  let x := c.mul (c.mul mix ctl.volume) c.masterGain
  { left := x, right := x }

/-- `n` samples (R312 lines 6 to 11): the pairs in order and the pool after them. -/
def renderSamples (c : Cfg) (P : Memory) (ctl : Controls) (n : Nat) (voices : List Voice) : List Sample × List Voice :=
  match n with
  | 0 => ([], voices)
  | m + 1 =>
    let r := mixVoices c P ctl voices 0
    let rs := renderSamples c P ctl m r.2
    (outputSample c ctl r.1 :: rs.1, rs.2)

/-- `RENDER n` (R312). -/
def cmdRender (c : Cfg) (n : Nat) (s : State) : State :=
  if n = 0 then s
  else
    let r := renderSamples c s.cur s.ctl n (s.voices.map (voiceBlockStart c s.cur n))
    { s with voices := r.2, out := s.out ++ r.1 }

/-- The meaning of `RENDER`. -/
def execRender (n : Nat) (s : State) : Host.Outcome State Fault Refusal := .next (cmdRender Config.cfg n s)

end Sys2Proof.Machine
end

