-- ==== Sys2Proof/Machine/System.lean ====
section
/-! DEFINITION. The commands NOP and SYS_RESET (46_commands.md). -/

namespace Sys2Proof.Machine

/-- `NOP` (R300): nothing. -/
def cmdNop (s : State) : State := s

/-- What `SYS_RESET` does to voice `v`, the patch being zeroed: the cached parameters cleared, `Voice.reset`, the random state reseeded (R311). -/
def voiceSysReset (c : Cfg) (P : Memory) (v : Nat) (x : Voice) : Voice :=
  let x := { x with op := x.op.mapIdx fun _ o => { o with inc := 0, outGain := 0, fbScale := 0, enabled := false } }
  let x := voiceReset c P x
  { x with lfo := { x.lfo with rng := c.lfoSeed v } }

/-- `SYS_RESET` (R311): every element to its power-on value but `OUT`, which keeps the samples delivered (R35). -/
def cmdSysReset (c : Cfg) (s : State) : State :=
  let s := { s with stg := [], cur := [], ctl := Controls.initial, alloc := s.alloc.clear }
  { s with voices := s.voices.mapIdx fun v x => voiceSysReset c s.cur v x }

/-- The meaning of `NOP`. -/
def execNop (s : State) : Host.Outcome State Fault Refusal := .next (cmdNop s)

/-- The meaning of `SYS_RESET`. -/
def execSysReset (s : State) : Host.Outcome State Fault Refusal := .next (cmdSysReset Config.cfg s)

end Sys2Proof.Machine
end

