-- ==== Sys2Proof/Machine/Dispatch.lean ====
section
/-! DEFINITION. exec: one arm per command (R313). -/

namespace Sys2Proof.Machine

def exec (i : Instr) (s : State) : Host.Outcome State Fault Refusal :=
  match i with
  | .nop => Sys2Proof.Machine.execNop s
  | .noteOn note velocity => Sys2Proof.Machine.execNoteOn note velocity s
  | .noteOff note => Sys2Proof.Machine.execNoteOff note s
  | .ctrlChange id value => Sys2Proof.Machine.execCtrlChange id value s
  | .pitchBend bend => Sys2Proof.Machine.execPitchBend bend s
  | .opParam op offset value => Sys2Proof.Machine.execOpParam op offset value s
  | .patchWr addr value => Sys2Proof.Machine.execPatchWr addr value s
  | .applyPatch => Sys2Proof.Machine.execApplyPatch s
  | .allNotesOff => Sys2Proof.Machine.execAllNotesOff s
  | .allSoundOff => Sys2Proof.Machine.execAllSoundOff s
  | .sysReset => Sys2Proof.Machine.execSysReset s
  | .render n => Sys2Proof.Machine.execRender n s

end Sys2Proof.Machine
end

