-- ==== Sys2Proof/Machine/Step.lean ====
section
/-! DEFINITION. One step: the core takes the next word from the command port, finds its rule by the opcode and runs it to its end (R313). -/

namespace Sys2Proof.Machine

/-- One step (R313). A reserved opcode executes as `NOP` (R85, R300). While the host has presented no word the core "is idle and holds its
state indefinitely" (R355): the step changes nothing. -/
def step (s : State) : Host.Outcome State Fault Refusal :=
  match takeCommand s with
  | none => .next s
  | some (w, t) =>
    match decode w with
    | .ok i => exec i t
    | .error (.reservedOpcode _) => exec .nop t

/-- `s` with an opcode-table word presented at the command port, where `step` takes its next command (log entry 4). -/
def State.withFetchWord (s : State) (nbits w : Nat) : State := presentCommand (tableWord nbits w) s

end Sys2Proof.Machine
end

