-- ==== Sys2Proof/Machine/Apply.lean ====
section
/-! DEFINITION. The commands under any configuration ("a model is a function of CFG", R364): what `exec` does, with the configuration as an argument, so
that the fixture TC0 of 95_test_vectors.md can be run. `Laws/Exec.lean` shows that `exec` is this at `Config.cfg`. -/

namespace Sys2Proof.Machine

/-- The state after a command, under configuration `c`. -/
def applyInstr (c : Cfg) (i : Instr) (s : State) : State :=
  match i with
  | .nop => cmdNop s
  | .noteOn note velocity => cmdNoteOn c note velocity s
  | .noteOff note => cmdNoteOff c note s
  | .ctrlChange id value => cmdCtrlChange c id value s
  | .pitchBend bend => cmdPitchBend c bend s
  | .opParam op offset value => cmdOpParam op offset value s
  | .patchWr addr value => cmdPatchWr addr value s
  | .applyPatch => cmdApplyPatch c s
  | .allNotesOff => cmdAllNotesOff c s
  | .allSoundOff => cmdAllSoundOff c s
  | .sysReset => cmdSysReset c s
  | .render n => cmdRender c n s

end Sys2Proof.Machine
end

