-- ==== Sys2Proof/Safety.lean ====
section
/-! DEFINITION. What counts as a sound state, in the terms the claims use: the invariants the spec states (R34) and those its rules keep (R33, R133, R160, R189,
R213, R287, R291, R304, R381). Every step goes on (R340), so a safe run is a run through sound states. -/

namespace Sys2Proof.Machine

/-- A ramp in progress has not passed its target; a stage that holds does not ramp (R34 (4), R155, R160 (4), R184, R189 (5)). -/
def RampSound (stage : Stage) (rising : Bool) (raw target step : Num) : Prop :=
  0 ≤ step ∧
  (stageHolds stage = true → rising = false ∧ step = 0) ∧
  (stageHolds stage = false → rising = true → raw < target) ∧
  (stageHolds stage = false → rising = false → target ≤ raw)

/-- A sound AEG: an idle one is at level 0 (R150, R153, R156). -/
def AegSound (g : Aeg) : Prop :=
  RampSound g.stage g.rising g.raw g.target g.step ∧ (g.stage = .idle → g.raw = 0)

/-- A sound PEG: an idle one rests at its target (R182, R185). -/
def PegSound (g : Peg) : Prop :=
  RampSound g.stage g.rising g.raw g.target g.step ∧ (g.stage = .idle → g.raw = g.target)

/-- A sound LFO (R25, R34, R211, R213). -/
def LfoSound (c : Cfg) (l : Lfo) : Prop :=
  (0 ≤ l.p ∧ l.p < 1) ∧ l.rng ≠ 0 ∧ (-1 ≤ l.sh ∧ l.sh ≤ 1) ∧ ∃ b : U7, l.e ≤ c.lfoDelaySamples b

/-- A sound operator (R21, R34 (3), R133); its AEG is one the rules can bring about, so that its output is one `SCORE_SENTINEL` allows for (R6, R263). -/
def OperSound (c : Cfg) (o : Operator) : Prop := (0 ≤ o.phase ∧ o.phase < 1) ∧ 0 ≤ o.inc ∧ AegSound o.aeg ∧ AegReached c o.aeg

/-- A sound voice (R33, R34, R304). -/
def VoiceSound (c : Cfg) (v : Voice) : Prop :=
  (∀ i, OperSound c (v.op.get i)) ∧ PegSound v.peg ∧ LfoSound c v.lfo ∧
  (0 ≤ v.portaPos ∧ v.portaPos ≤ 1) ∧ (∀ i, 0 ≤ v.am.get i ∧ v.am.get i ≤ 1) ∧
  v.justAllocated = false ∧ (v.sustained = true → v.gate = false)

/-- A sound state: both patch memories in canonical form inside 0..149 (R29), the note stack within its capacity (R34 (5), R291 (1)), empty in polyphonic
mode (R284, R381) and in a mono mode not empty only while voice 0 is held (R287), the pool of its fixed size (R34 (1)), every voice sound, the portamento
time not negative (R28), every delivered pair identical left and right (R35). -/
structure Sound (c : Cfg) (s : State) : Prop where
  stg_wf : Memory.wf s.stg = true
  cur_wf : Memory.wf s.cur = true
  stack_length : s.alloc.stack.length = c.noteStackCap
  depth_le : s.alloc.depth ≤ c.noteStackCap
  poly_depth : enumMode (memRead s.cur 0x0D) = .poly → s.alloc.depth = 0
  mono_held : enumMode (memRead s.cur 0x0D) ≠ .poly → 0 < s.alloc.depth → ∀ x, s.voices[0]? = some x → x.gate = true
  pool_size : s.voices.length = c.numVoices
  voices : ∀ v ∈ s.voices, VoiceSound c v
  portaTime : 0 ≤ s.ctl.portaTimeSec
  stereo : ∀ p ∈ s.out, p.left = p.right

/-- Voice `x` is in the state `Voice.reset` leaves under patch `P`: resetting it again changes nothing (R232, R362). -/
def AtRest (c : Cfg) (P : Memory) (x : Voice) : Prop := voiceReset c P x = x

/-- The operator's cached parameters are cleared (R36, R311). -/
def CacheCleared (o : Operator) : Prop := o.inc = 0 ∧ o.outGain = 0 ∧ o.fbScale = 0 ∧ o.enabled = false

/-! What the rules of the operators, envelopes and voices do, element by element, in the terms the claims use. `x` or `g` is before, `y` or `g'` after. -/

/-- The stage-entry step of the AEG for a stage that ramps (R154, R151): every element of the envelope. -/
structure AegEntered (c : Cfg) (P : Memory) (i : Fin 4) (s : Stage) (g g' : Aeg) : Prop where
  stage : g'.stage = s
  raw : g'.raw = g.raw
  target : g'.target = c.egLevel (u7 (memRead P (38 + 28 * i.val + (5 + stageIdx s))))
  rising : g'.rising = decide (g.raw < g'.target)
  step : g'.step = c.mul (c.egRateStep (u7 (memRead P (38 + 28 * i.val + (1 + stageIdx s)))))
    (if g'.rising then c.egRiseScale else c.egFallScale)
  slope : g'.rising = true →
    g'.k = c.div (c.sub (c.egGain g'.target) (c.egGain g.raw)) (c.sub (c.egCurve g'.target) (c.egCurve g.raw)) ∧
    g'.c = c.sub (c.egGain g.raw) (c.mul g'.k (c.egCurve g.raw))
  kept : g'.rising = false → g'.k = g.k ∧ g'.c = g.c

/-- The stage-entry step of the PEG for a stage that ramps (R183, R181): every element of the envelope. -/
structure PegEntered (c : Cfg) (P : Memory) (s : Stage) (g g' : Peg) : Prop where
  stage : g'.stage = s
  raw : g'.raw = g.raw
  target : g'.target = c.pegLevel (u7 (memRead P (0x19 + stageIdx s)))
  rising : g'.rising = decide (g.raw < g'.target)
  step : g'.step = c.mul (c.pegRateStep (u7 (memRead P (0x15 + stageIdx s)))) (if g'.rising then 1 else c.pegFallScale)

/-- The cached parameters `setParams` leaves in operator `i` (R123 to R127), each patch byte at its address (R96); the key-scaling factor lies in [0,2] by its
clamp (R124). -/
structure ParamsSet (c : Cfg) (P : Memory) (i : Fin 4) (t : Int) (vel : U7) (baseHz : Num) (o : Operator) : Prop where
  enabled : o.enabled = decide (memRead P (38 + 28 * i.val) ≠ 0)
  inc : o.inc = c.div (c.opFreq (enumFreqMode (memRead P (38 + 28 * i.val + 0x15))) (u7 (memRead P (38 + 28 * i.val + 0x16)))
    (u7 (memRead P (38 + 28 * i.val + 0x17))) (u7 (memRead P (38 + 28 * i.val + 0x18))) baseHz) c.sampleRate
  outGain : ∃ ks : Num, (0 ≤ ks ∧ ks ≤ 2) ∧
    ks = clamp (c.ksFactor t (u7 (memRead P (38 + 28 * i.val + 0x0A))) (enumKsCurve (memRead P (38 + 28 * i.val + 0x0C)))
      (u7 (memRead P (38 + 28 * i.val + 0x0B))) (enumKsCurve (memRead P (38 + 28 * i.val + 0x0D)))) 0 2 ∧
    o.outGain = c.mul (c.expGain (c.mul (c.ofNat (u7 (memRead P (38 + 28 * i.val + 0x12))).val)
      (c.velGain vel (u7 (memRead P (38 + 28 * i.val + 0x11)))))) ks
  fbScale : o.fbScale = c.fbScale (u7 (memRead P (38 + 28 * i.val + 0x13)))

/-- `tgt` of R233: the note plus the transpose of the patch byte 0x0C, clamped by its reader (R62; log entry 19). -/
def targetNote (c : Cfg) (P : Memory) (n : U7) : Int := (n.val : Int) + c.transpose (u7 (memRead P 0x0C))

/-- The writes common to all three note-on actions (R235), and the elements no note-on writes. -/
structure NoteWritten (P : Memory) (n vel : U7) (x y : Voice) : Prop where
  note : y.note = n
  velocity : y.velocity = vel
  gate : y.gate = true
  sustained : y.sustained = false
  justAllocated : y.justAllocated = false
  algId : y.algId = memRead P 0x10
  pm : y.pm = x.pm
  am : y.am = x.am
  lfoCur : y.lfoCur = x.lfoCur

/-- Action A, retrigger (R235, R236): every element of the voice. -/
structure ActionA (c : Cfg) (P : Memory) (n vel : U7) (x y : Voice) : Prop where
  written : NoteWritten P n vel x y
  running : ∀ i, (y.op.get i).phase = 0 ∧ (y.op.get i).fbAcc = 0 ∧ (y.op.get i).fbFilt = 0
  params : ∀ i, ParamsSet c P i (targetNote c P n) vel (c.noteHz (targetNote c P n)) (y.op.get i)
  aeg : ∀ i, AegEntered c P i .attack { (x.op.get i).aeg with raw := 0, k := 0, c := 0 } (y.op.get i).aeg
  peg : PegEntered c P .attack { x.peg with raw := c.pegLevel (u7 (memRead P 0x1C)) } y.peg
  lfo : y.lfo = { x.lfo with p := 0, e := 0, stepIdx := 0, wrap := false, rng := xorshift32 x.lfo.rng, sh := c.randMap (xorshift32 x.lfo.rng) }
  porta : y.portaStart = c.ofInt (targetNote c P n) ∧ y.portaTarget = c.ofInt (targetNote c P n) ∧ y.portaPos = 1

/-- The parameters and the portamento of a glide (R233, R235, R237), common to actions B and C: phases, feedback and the LFO run on. -/
structure Glides (c : Cfg) (P : Memory) (ctl : Controls) (n vel : U7) (x y : Voice) : Prop where
  written : NoteWritten P n vel x y
  running : ∀ i, (y.op.get i).phase = (x.op.get i).phase ∧ (y.op.get i).fbAcc = (x.op.get i).fbAcc ∧
    (y.op.get i).fbFilt = (x.op.get i).fbFilt
  params : ∀ i, ParamsSet c P i (targetNote c P n) vel (c.noteHz (targetNote c P n)) (y.op.get i)
  lfo : y.lfo = x.lfo
  portaOn : ctl.portaEnable = true ∧ 0 < ctl.portaTimeSec →
    y.portaStart = c.add x.portaStart (c.mul (c.sub x.portaTarget x.portaStart) x.portaPos) ∧ y.portaTarget = c.ofInt (targetNote c P n) ∧ y.portaPos = 0
  portaOff : ¬ (ctl.portaEnable = true ∧ 0 < ctl.portaTimeSec) →
    y.portaStart = c.ofInt (targetNote c P n) ∧ y.portaTarget = c.ofInt (targetNote c P n) ∧ y.portaPos = 1

/-- Action B, legato glide (R237): the envelopes run on. -/
structure ActionB (c : Cfg) (P : Memory) (ctl : Controls) (n vel : U7) (x y : Voice) : Prop where
  glides : Glides c P ctl n vel x y
  aeg : ∀ i, (y.op.get i).aeg = (x.op.get i).aeg
  peg : y.peg = x.peg

/-- Action C, glide with re-gate (R238): the envelopes are gated on softly. -/
structure ActionC (c : Cfg) (P : Memory) (ctl : Controls) (n vel : U7) (x y : Voice) : Prop where
  glides : Glides c P ctl n vel x y
  aeg : ∀ i, AegEntered c P i .attack (aegReexpress c (x.op.get i).aeg) (y.op.get i).aeg
  peg : PegEntered c P .attack x.peg y.peg

/-- A note-on on voice `x`, by the action table (R233, R234); the mode is the patch byte 0x0D (R95, R101). -/
structure NoteOnEffect (c : Cfg) (P : Memory) (ctl : Controls) (n vel : U7) (x y : Voice) : Prop where
  poly : enumMode (memRead P 0x0D) = .poly → ActionA c P n vel x y
  overlap : enumMode (memRead P 0x0D) ≠ .poly → x.gate = true → ActionB c P ctl n vel x y
  legatoIsolated : enumMode (memRead P 0x0D) = .monoLegato → x.gate = false → ActionA c P n vel x y
  fullIsolatedGlide : enumMode (memRead P 0x0D) = .monoFull → x.gate = false → ctl.portaEnable = true → 0 < ctl.portaTimeSec →
    isActive x = true → ActionC c P ctl n vel x y
  fullIsolatedHard : enumMode (memRead P 0x0D) = .monoFull → x.gate = false →
    (¬ (ctl.portaEnable = true ∧ 0 < ctl.portaTimeSec) ∨ isActive x = false) → ActionA c P n vel x y

/-- A release of voice `x` (R240): every envelope gated off, the pedal mark cleared, nothing else. -/
structure ReleaseEffect (c : Cfg) (P : Memory) (x y : Voice) : Prop where
  op : ∀ i, y.op.get i = { x.op.get i with aeg := aegGateOff c P i (x.op.get i).aeg }
  peg : y.peg = pegGateOff c P x.peg
  rest : { y with op := x.op, peg := x.peg } = { x with sustained := false }

/-- A note-off on voice `x` (R239): with the pedal down it is only marked. -/
structure NoteOffEffect (c : Cfg) (P : Memory) (ctl : Controls) (x y : Voice) : Prop where
  down : ctl.sustain = true → y = { x with gate := false, sustained := true }
  up : ctl.sustain = false → ReleaseEffect c P { x with gate := false } y

/-- `Voice.reset` on voice `x` (R232 with R121, R153, R182, R202): every element of the voice. -/
structure VoiceResetEffect (c : Cfg) (P : Memory) (x y : Voice) : Prop where
  note : y.note = 0 ∧ y.velocity = 0
  flags : y.gate = false ∧ y.sustained = false ∧ y.justAllocated = false
  porta : y.portaStart = 0 ∧ y.portaTarget = 0 ∧ y.portaPos = 1
  mods : ∀ i, y.pm.get i = 0 ∧ y.am.get i = 0
  algId : y.algId = memRead P 0x10
  lfoCur : y.lfoCur = 0
  running : ∀ i, (y.op.get i).phase = 0 ∧ (y.op.get i).fbAcc = 0 ∧ (y.op.get i).fbFilt = 0
  cached : ∀ i, (y.op.get i).inc = (x.op.get i).inc ∧ (y.op.get i).outGain = (x.op.get i).outGain ∧
    (y.op.get i).fbScale = (x.op.get i).fbScale ∧ (y.op.get i).enabled = (x.op.get i).enabled
  aeg : ∀ i, (y.op.get i).aeg =
    { stage := .idle, raw := 0, target := c.egLevel (u7 (memRead P (38 + 28 * i.val + 8))), step := 0, rising := false, k := 0, c := 0 }
  peg : y.peg = { stage := .idle, raw := c.pegLevel (u7 (memRead P 0x1C)), target := c.pegLevel (u7 (memRead P 0x1C)), step := 0, rising := false }
  lfo : y.lfo = { p := 0, e := 0, val := 0, inc := 0, sh := 0, rng := x.lfo.rng, stepIdx := 0, wrap := false }

/-- Both patch memories (every address reads as before), the Controls, the output stream and the port are as they were. -/
structure SameSurroundings (s t : State) : Prop where
  stg : t.stg = s.stg
  cur : t.cur = s.cur
  ctl : t.ctl = s.ctl
  out : t.out = s.out
  port : t.port = s.port

/-- No voice but voice `v` changes, and the pool keeps its size. -/
def OnlyVoice (v : Nat) (s t : State) : Prop :=
  t.voices.length = s.voices.length ∧ ∀ u : Nat, u ≠ v → t.voices[u]? = s.voices[u]?

/-- Every voice of the pool goes from its old to its new state by `effect`, and the pool keeps its size. -/
def EachVoice (effect : Voice → Voice → Prop) (s t : State) : Prop :=
  t.voices.length = s.voices.length ∧
  ∀ (v : Nat) (x : Voice), s.voices[v]? = some x → ∃ y, t.voices[v]? = some y ∧ effect x y

/-- Voice `v` is the first with the least score (R284): no voice scores less, and every earlier one scores more. -/
def FirstLeastScore (c : Cfg) (voices : List Voice) (v : Nat) : Prop :=
  ∃ x, voices[v]? = some x ∧
    (∀ (u : Nat) (y : Voice), voices[u]? = some y → calcScore c x ≤ calcScore c y) ∧
    (∀ (u : Nat) (y : Voice), u < v → voices[u]? = some y → calcScore c x < calcScore c y)

/-- No operator can start: the patch enables none, and none is enabled in any voice (R363). -/
def NoneEnabled (s : State) : Prop :=
  (∀ i : Fin 4, memRead s.cur (38 + 28 * i.val) = 0) ∧ ∀ x ∈ s.voices, ∀ i, (x.op.get i).enabled = false

/-- The block start of one voice inside `RENDER n` (R312 lines 3 to 5): an active voice's LFO is updated and `lfoCur` reloaded from it. -/
def blockStarted (c : Cfg) (P : Memory) (n : Nat) (x : Voice) : Voice :=
  if isActive x then { x with lfo := lfoBlockUpdate c P n x.lfo, lfoCur := (lfoBlockUpdate c P n x.lfo).val } else x

/-- One tick of a voice inside `RENDER` (R312 line 9): an inactive voice is skipped. -/
def voiceTick (c : Cfg) (P : Memory) (ctl : Controls) (x : Voice) : Voice :=
  if isActive x then (voiceStep c P ctl x).2 else x

/-- The mix of one sample (R312 lines 7 to 9): the active voices' samples, added in ascending order starting from 0. -/
def poolMix (c : Cfg) (P : Memory) (ctl : Controls) (voices : List Voice) : Num :=
  (voices.filter isActive).foldl (fun mix x => c.add mix (voiceStep c P ctl x).1) 0

/-- "for j in ..., ascending: s <- s + y[j]", from 0, over the operators flagged (R251 lines 5, 6, 9, 10; R262 lines 5, 6). -/
def ascendingSum (c : Cfg) (flag : Fin 4 → Bool) (y : Fin 4 → Num) : Num :=
  ((List.finRange 4).filter flag).foldl (fun s j => c.add s (y j)) 0

/-- One step of a voice under algorithm `A` (R251): `y` are the four outputs. Each operator is computed once, its input the scaled sum of its modulators'
outputs; no operator is modulated by itself or a lower one (R250), so these equations determine `y[3]`, `y[2]`, `y[1]`, `y[0]` in that order. -/
structure MixesAlgorithm (c : Cfg) (P : Memory) (ctl : Controls) (A : AlgDesc) (x : Voice) (sample : Num) (x' : Voice) (y : Fin 4 → Num) : Prop where
  acyclic : ∀ i j : Fin 4, (A.mods.get i).get j = true → i < j
  output : ∀ i, y i = c.mul
    (operCompute c P i (c.mul c.modIndex (ascendingSum c (A.mods.get i).get y)) ((voiceUpdateMods c P ctl x).pm.get i) (x.op.get i)).1
    (c.sub 1 ((voiceUpdateMods c P ctl x).am.get i))
  op : ∀ i, x'.op.get i =
    (operCompute c P i (c.mul c.modIndex (ascendingSum c (A.mods.get i).get y)) ((voiceUpdateMods c P ctl x).pm.get i) (x.op.get i)).2
  rest : { x' with op := x.op } = voiceUpdateMods c P ctl x
  sample : sample = c.mul A.mixGain (ascendingSum c A.carriers.get y)

/-- `r` is the round-to-nearest-even of the exact result `q` (R8 (b)): no binary32 value is nearer, and where another is as near, `r` is the even multiple of
the distance between the two. -/
structure NearestEven (q r : Num) : Prop where
  value : IsBinary32 r
  nearest : ∀ z, IsBinary32 z → |r - q| ≤ |z - q|
  even : ∀ z, IsBinary32 z → z ≠ r → |z - q| = |r - q| → ∃ k : Int, r = 2 * (k : Num) * |r - z|

end Sys2Proof.Machine
end

