-- ==== Sys2Proof/Certificates/Slice0/Obligations.lean ====
section
/-! DEFINITION. The statements for the provers. A statement about a command is about `exec`, at the machine's own configuration `Config.cfg`, of which
nothing is known but the constraints of R6 and R7; a statement about an operation of the machine is about every configuration. `s` is the state before and
`t` the state after. The effect of a rule on a voice, operator or envelope, element by element, is a predicate of `Sys2Proof/Safety.lean`. -/

open Sys2Proof Sys2Proof.Machine

/-! The command word and the step. -/

/-- R80, R81, R83, R87: what an assembler writes for a well-formed command, the decoder reads back, with every operand at every value its field admits. -/
def Obligations.DecodeOfEncodeIsIdentity : Prop :=
  ∀ i : Instr, WellFormed i → decode (encode i) = .ok i

/-- R80, R81, R82, R84: the decoder reads every bit of the fields a command uses and no bit of the fields it ignores: every word of an opcode below 0x0C
decodes, whatever stands in its ignored fields; the command it decodes to is well formed, and encoding it gives back the word with its ignored fields
cleared. -/
def Obligations.DecoderReadsExactlyTheUsedFields : Prop :=
  (∀ w : Word, (w >>> 24).toNat < 0x0C → ∃ i, decode w = .ok i) ∧
  ∀ (w : Word) (i : Instr), decode w = .ok i →
    WellFormed i ∧
    encode i = w &&& (match i with
      | .nop => 0xFF000000
      | .noteOn _ _ => 0xFFFFFF00
      | .noteOff _ => 0xFFFF0000
      | .ctrlChange _ _ => 0xFFFFFF00
      | .pitchBend _ => 0xFF00FFFF
      | .opParam _ _ _ => 0xFFFFFFFF
      | .patchWr _ _ => 0xFFFFFF00
      | .applyPatch => 0xFF000000
      | .allNotesOff => 0xFF000000
      | .allSoundOff => 0xFF000000
      | .sysReset => 0xFF000000
      | .render _ => 0xFF00FFFF)

/-- The example words of R87, R300, R304 to R311 and one more per opcode of R81, written out: sanity of the decoder. -/
def Obligations.ExampleWordsDecode : Prop :=
  decode 0x00ABCDEF = .ok .nop ∧ decode 0x013C6400 = .ok (.noteOn 60 100) ∧ decode 0x023C0000 = .ok (.noteOff 60) ∧
  decode 0x03027F00 = .ok (.ctrlChange 2 127) ∧ decode 0x0400E000 = .ok (.pitchBend (-8192)) ∧
  decode 0x05011263 = .ok (.opParam 1 18 99) ∧ decode 0x06100B00 = .ok (.patchWr 16 11) ∧ decode 0x07000000 = .ok .applyPatch ∧
  decode 0x08000000 = .ok .allNotesOff ∧ decode 0x09000000 = .ok .allSoundOff ∧ decode 0x0A000000 = .ok .sysReset ∧
  decode 0x0B000080 = .ok (.render 128) ∧ decode 0x0C000000 = .error (.reservedOpcode 12)

/-- R313: when the next word at the port decodes to `i`, the step is `exec i` on the state with the word taken. The port list is the model's own
(log entry 3). -/
def Obligations.StepRunsTheDecodedCommand : Prop :=
  ∀ (s : State) (w : Word) (rest : List Word) (i : Instr), s.port = w :: rest → decode w = .ok i →
    step s = exec i { s with port := rest }

/-- R355: between commands the core is idle and holds its state. That the model then takes an idle step is its own choice (log entry 3). -/
def Obligations.IdleCoreHoldsItsState : Prop :=
  ∀ s : State, s.port = [] → step s = .next s

/-- R85, R300: `NOP` and every word of a reserved opcode change no state and produce no sample; only the word itself is taken from the port, the
model's own field (log entry 3). That a reserved word runs, where a model may refuse it, is log entry 5. -/
def Obligations.NopAndReservedOpcodesChangeNothing : Prop :=
  (∀ s : State, exec .nop s = .next s) ∧
  (∀ (s : State) (w : Word) (rest : List Word), s.port = w :: rest →
    ((w >>> 24).toNat = 0 ∨ 0x0C ≤ (w >>> 24).toNat) → step s = .next { s with port := rest }) ∧
  ∀ w : Word, 0x0C ≤ (w >>> 24).toNat → decode w = .error (.reservedOpcode (w >>> 24).toNat)

/-- R340: nothing is raised: every command and every step completes, whatever the operands and the state. -/
def Obligations.NothingIsRaised : Prop :=
  (∀ (i : Instr) (s : State), ∃ t, exec i s = .next t) ∧ ∀ s : State, ∃ t, step s = .next t

/-! Reset. -/

/-- R36: the state after power-on. (What `SYS_RESET` leaves is `SysResetRestoresPowerOn`; the stack cells, log entry 6, and the port, log entry 3, are the
model's and not stated.) -/
def Obligations.PowerOnState : Prop :=
  (∀ a, memRead State.reset.stg a = 0 ∧ memRead State.reset.cur a = 0) ∧
  State.reset.ctl = { pitchBend := 0, modWheel := 0, volume := 1, sustain := false, portaEnable := true, portaTimeSec := 0 } ∧
  State.reset.alloc.depth = 0 ∧ State.reset.alloc.monoActive = false ∧
  State.reset.alloc.stack.length = Config.cfg.noteStackCap ∧
  State.reset.voices.length = Config.cfg.numVoices ∧
  (∀ (v : Nat) (x : Voice), State.reset.voices[v]? = some x →
    VoiceResetEffect Config.cfg State.reset.cur x x ∧ x.lfo.rng = Config.cfg.lfoSeed v ∧ isActive x = false ∧
    ∀ i, CacheCleared (x.op.get i)) ∧
  State.reset.out = []

/-- R311, R36: `SYS_RESET` brings every element to its power-on value but `OUT`, which keeps the samples delivered. What the stack cells hold then the spec
leaves open (R27, R36; log entry 6): nothing is said of them but their number. The pool has its size by the invariant `StepKeepsSound`. -/
def Obligations.SysResetRestoresPowerOn : Prop :=
  ∀ s : State, s.voices.length = Config.cfg.numVoices →
    ∃ t, exec .sysReset s = .next t ∧
      (∀ a, memRead t.stg a = 0 ∧ memRead t.cur a = 0) ∧
      t.ctl = { pitchBend := 0, modWheel := 0, volume := 1, sustain := false, portaEnable := true, portaTimeSec := 0 } ∧
      t.alloc.depth = 0 ∧ t.alloc.monoActive = false ∧ t.alloc.stack.length = s.alloc.stack.length ∧
      t.voices.length = Config.cfg.numVoices ∧
      (∀ (v : Nat) (x : Voice), t.voices[v]? = some x →
        VoiceResetEffect Config.cfg t.cur x x ∧ x.lfo.rng = Config.cfg.lfoSeed v ∧ ∀ i, CacheCleared (x.op.get i)) ∧
      t.stg = State.reset.stg ∧ t.cur = State.reset.cur ∧ t.ctl = State.reset.ctl ∧ t.voices = State.reset.voices ∧
      t.out = s.out ∧ t.port = s.port

/-- The state after power-on is sound. -/
def Obligations.PowerOnIsSound : Prop := Sound Config.cfg State.reset

/-- R34 and R133, R160 (4), R189 (5), R213 (1) (2), R291 (1), R33, R304, R287, R381: every step from a sound state, reachable or not, leaves a sound state: the
pool keeps its size, the stack its bound, the stack is empty in polyphonic mode and in a mono mode empty unless voice 0 is held, every phase stays in [0,1), no ramp passes its target, `portaPos` and `am` stay in [0,1], no random state is 0, every AEG is one the rules of 41_aeg.md bring about, `justAllocated` is false and a sustained voice is not gated at every command boundary, both patch memories stay canonical inside 0..149, left and right
are alike. In every sound state `raw`, `target` and `step` of every AEG are at least 0, as R22 types them: for `raw` this rests on what the model asks of
`EG_GAIN_INV` (DEDUCED, log entry 9). -/
def Obligations.StepKeepsSound : Prop :=
  (∀ s t : State, Sound Config.cfg s → step s = .next t → Sound Config.cfg t) ∧
  ∀ s : State, Sound Config.cfg s → ∀ x ∈ s.voices, ∀ i,
    0 ≤ (x.op.get i).aeg.raw ∧ 0 ≤ (x.op.get i).aeg.target ∧ 0 ≤ (x.op.get i).aeg.step

/-! Notes. -/

/-- R301, R302, R341: a note above 127 makes the command ignored. -/
def Obligations.BadNoteIsIgnored : Prop :=
  ∀ (note velocity : Nat) (s : State), 127 < note →
    exec (.noteOn note velocity) s = .next s ∧ exec (.noteOff note) s = .next s

/-- R233 to R238: a note-on runs exactly one of the actions A, B, C, chosen by the action table, and writes exactly what the action says. The model's
own readings in it: the transpose byte is clamped (DEDUCED, log entry 19), and a disabled operator's envelope is gated too, as R128 says, against the
last sentence of R373 (DESIGN CHOICE, log entry 20). -/
def Obligations.NoteOnActionTable : Prop :=
  ∀ (c : Cfg) (P : Memory) (ctl : Controls) (n vel : U7) (x : Voice),
    NoteOnEffect c P ctl n vel x (voiceNoteOn c P ctl n vel x)

/-- R301, R284, R236: `NOTE_ON` in polyphonic mode with a voice free takes the first inactive voice, retriggers it, and touches nothing else.
The model's own readings in it: the transpose byte is clamped (DEDUCED,
log entry 19), and a disabled operator's envelope is gated too, as R128 says, against the last sentence of R373 (DESIGN CHOICE, log entry 20). -/
def Obligations.PolyNoteOnTakesFirstFreeVoice : Prop :=
  ∀ (s : State) (note velocity v : Nat) (x : Voice), note ≤ 127 → enumMode (memRead s.cur 0x0D) = .poly →
    s.voices[v]? = some x → isActive x = false →
    (∀ (u : Nat) (y : Voice), u < v → s.voices[u]? = some y → isActive y = true) →
    ∃ t y, exec (.noteOn note velocity) s = .next t ∧ t.voices[v]? = some y ∧
      ActionA Config.cfg s.cur (u7Nat note) (u7Nat velocity) x y ∧
      OnlyVoice v s t ∧ SameSurroundings s t ∧ t.alloc = s.alloc

/-- R301, R284, R379: `NOTE_ON` in polyphonic mode on a full pool steals the first voice with the least score, retriggers it, and touches nothing
else. The model's own readings in it: the transpose byte is clamped (DEDUCED,
log entry 19), and a disabled operator's envelope is gated too, as R128 says, against the last sentence of R373 (DESIGN CHOICE, log entry 20). -/
def Obligations.PolyNoteOnStealsFirstLeastScore : Prop :=
  ∀ (s : State) (note velocity : Nat), note ≤ 127 → enumMode (memRead s.cur 0x0D) = .poly → s.voices ≠ [] →
    (∀ x ∈ s.voices, isActive x = true) →
    ∃ t v x y, exec (.noteOn note velocity) s = .next t ∧ FirstLeastScore Config.cfg s.voices v ∧
      s.voices[v]? = some x ∧ t.voices[v]? = some y ∧
      ActionA Config.cfg s.cur (u7Nat note) (u7Nat velocity) x y ∧
      OnlyVoice v s t ∧ SameSurroundings s t ∧ t.alloc = s.alloc

/-- R301, R283, R281, R234: `NOTE_ON` in a mono mode pushes the note (dropped when the stack is full), records mono-active, and runs the note-on of voice 0
by the action table; no other voice changes. The model's own readings in it: the transpose byte is clamped (DEDUCED,
log entry 19), and a disabled operator's envelope is gated too, as R128 says, against the last sentence of R373 (DESIGN CHOICE, log entry 20). -/
def Obligations.MonoNoteOnPlaysVoiceZero : Prop :=
  ∀ (s : State) (note velocity : Nat) (x : Voice), note ≤ 127 → enumMode (memRead s.cur 0x0D) ≠ .poly → s.voices[0]? = some x →
    s.alloc.stack.length = Config.cfg.noteStackCap →
    ∃ t y, exec (.noteOn note velocity) s = .next t ∧ t.voices[0]? = some y ∧
      NoteOnEffect Config.cfg s.cur s.ctl (u7Nat note) (u7Nat velocity) x y ∧
      OnlyVoice 0 s t ∧ SameSurroundings s t ∧ t.alloc.monoActive = true ∧
      (s.alloc.depth < Config.cfg.noteStackCap →
        t.alloc.depth = s.alloc.depth + 1 ∧ t.alloc.stack[s.alloc.depth]? = some (u7Nat note) ∧
        ∀ k : Nat, k ≠ s.alloc.depth → t.alloc.stack[k]? = s.alloc.stack[k]?) ∧
      (Config.cfg.noteStackCap ≤ s.alloc.depth → t.alloc.depth = s.alloc.depth ∧ t.alloc.stack = s.alloc.stack)

/-- R243: of two overlapping note-ons in a mono mode the second leaves every output level of voice 0 as it is; an isolated one in mono-legato mode puts
every AEG at raw level 0 in ATTACK. -/
def Obligations.OverlapKeepsLevelsIsolatedRetriggers : Prop :=
  ∀ (s : State) (note velocity : Nat) (x : Voice), note ≤ 127 → s.voices[0]? = some x →
    (enumMode (memRead s.cur 0x0D) = .monoLegato ∨ enumMode (memRead s.cur 0x0D) = .monoFull) →
    (x.gate = true → ∃ t y, exec (.noteOn note velocity) s = .next t ∧ t.voices[0]? = some y ∧
      ∀ i, (y.op.get i).aeg = (x.op.get i).aeg ∧ aegOut Config.cfg (y.op.get i).aeg = aegOut Config.cfg (x.op.get i).aeg) ∧
    (x.gate = false → enumMode (memRead s.cur 0x0D) = .monoLegato → ∃ t y, exec (.noteOn note velocity) s = .next t ∧
      t.voices[0]? = some y ∧ ∀ i, (y.op.get i).aeg.stage = .attack ∧ (y.op.get i).aeg.raw = 0)

/-- R302, R288, R239: `NOTE_OFF` in polyphonic mode releases (or, with the pedal down, marks) the first active voice that holds the note, and only that
one; with no such voice it does nothing. -/
def Obligations.PolyNoteOffReleasesFirstMatch : Prop :=
  ∀ (s : State) (note : Nat), note ≤ 127 → enumMode (memRead s.cur 0x0D) = .poly →
    (∀ (v : Nat) (x : Voice), s.voices[v]? = some x → isActive x = true → x.gate = true → x.note = u7Nat note →
      (∀ (u : Nat) (y : Voice), u < v → s.voices[u]? = some y → ¬ (isActive y = true ∧ y.gate = true ∧ y.note = u7Nat note)) →
      ∃ t y, exec (.noteOff note) s = .next t ∧ t.voices[v]? = some y ∧ NoteOffEffect Config.cfg s.cur s.ctl x y ∧
        OnlyVoice v s t ∧ SameSurroundings s t ∧ t.alloc = s.alloc) ∧
    ((∀ x ∈ s.voices, ¬ (isActive x = true ∧ x.gate = true ∧ x.note = u7Nat note)) → exec (.noteOff note) s = .next s)

/-- R302, R287: `NOTE_OFF` in a mono mode removes the note from the stack, as `allocRemove` does (R282). If that leaves the stack empty, voice 0 gets a
note-off and mono-active ends; otherwise voice 0 gets a note-on of the top note at the fallback velocity, which does not push. In every sound state
(`StepKeepsSound`) voice 0 is still held when that note-on arrives, so it is action B in both mono modes. No other voice changes. The model's own readings in it: the transpose byte is clamped (DEDUCED,
log entry 19), and a disabled operator's envelope is gated too, as R128 says, against the last sentence of R373 (DESIGN CHOICE, log entry 20). -/
def Obligations.MonoNoteOffReleasesOrFallsBack : Prop :=
  ∀ (s : State) (note : Nat) (x : Voice), note ≤ 127 → enumMode (memRead s.cur 0x0D) ≠ .poly → s.voices[0]? = some x →
    s.alloc.depth ≤ s.alloc.stack.length →
    ((allocRemove (u7Nat note) s.alloc).depth = 0 →
      ∃ t y, exec (.noteOff note) s = .next t ∧ t.voices[0]? = some y ∧ NoteOffEffect Config.cfg s.cur s.ctl x y ∧
        t.alloc = { allocRemove (u7Nat note) s.alloc with monoActive := false } ∧ OnlyVoice 0 s t ∧ SameSurroundings s t) ∧
    ((allocRemove (u7Nat note) s.alloc).depth ≠ 0 →
      ∃ t y top, exec (.noteOff note) s = .next t ∧ t.voices[0]? = some y ∧
        (allocRemove (u7Nat note) s.alloc).stack[(allocRemove (u7Nat note) s.alloc).depth - 1]? = some top ∧
        NoteOnEffect Config.cfg s.cur s.ctl top Config.cfg.fallbackVelocity x y ∧
        (Sound Config.cfg s → x.gate = true ∧ ActionB Config.cfg s.cur s.ctl top Config.cfg.fallbackVelocity x y) ∧
        t.alloc = allocRemove (u7Nat note) s.alloc ∧ OnlyVoice 0 s t ∧ SameSurroundings s t)

/-- R289, R309: every active held voice gets an ordinary note-off, every other voice is left alone, the mono stack is emptied; nothing else changes. -/
def Obligations.AllNotesOffIsPedalAware : Prop :=
  ∀ s : State, ∃ t, exec .allNotesOff s = .next t ∧
    EachVoice (fun x y => (isActive x = true → x.gate = true → NoteOffEffect Config.cfg s.cur s.ctl x y) ∧
      ((isActive x = false ∨ x.gate = false) → y = x)) s t ∧
    SameSurroundings s t ∧ t.alloc = { s.alloc with depth := 0, monoActive := false }

/-- R290, R310: every voice is reset and inactive, the mono stack is emptied, nothing else changes; the next `RENDER` appends zeros. -/
def Obligations.AllSoundOffIsImmediate : Prop :=
  ∀ s : State, ∃ t, exec .allSoundOff s = .next t ∧
    EachVoice (VoiceResetEffect Config.cfg s.cur) s t ∧ (∀ x ∈ t.voices, isActive x = false) ∧
    SameSurroundings s t ∧ t.alloc = { s.alloc with depth := 0, monoActive := false } ∧
    ∀ n, exec (.render n) t = .next { t with out := t.out ++ List.replicate n { left := 0, right := 0 } }

/-! The allocator. -/

/-- R281: a push writes the next cell and counts it; on a full stack it is dropped. -/
def Obligations.PushAppendsOrIsDropped : Prop :=
  ∀ (c : Cfg) (n : U7) (a : Alloc), a.stack.length = c.noteStackCap →
    (a.depth < c.noteStackCap →
      (allocPush c n a).depth = a.depth + 1 ∧ (allocPush c n a).stack[a.depth]? = some n ∧
      (∀ k : Nat, k ≠ a.depth → (allocPush c n a).stack[k]? = a.stack[k]?) ∧ (allocPush c n a).monoActive = a.monoActive) ∧
    (c.noteStackCap ≤ a.depth → allocPush c n a = a)

/-- R282: a removal takes the entry of greatest index that holds the note and moves the later ones down by one; without such an entry nothing changes. -/
def Obligations.RemoveTakesMostRecentEntry : Prop :=
  ∀ (n : U7) (a : Alloc), a.depth ≤ a.stack.length →
    (∀ k : Nat, k < a.depth → a.stack[k]? = some n → (∀ m : Nat, k < m → m < a.depth → a.stack[m]? ≠ some n) →
      (allocRemove n a).depth = a.depth - 1 ∧
      (∀ m : Nat, m < k → (allocRemove n a).stack[m]? = a.stack[m]?) ∧
      (∀ m : Nat, k ≤ m → m + 1 < a.depth → (allocRemove n a).stack[m]? = a.stack[m + 1]?) ∧
      (∀ m : Nat, a.depth ≤ m + 1 → (allocRemove n a).stack[m]? = a.stack[m]?) ∧
      (allocRemove n a).monoActive = a.monoActive) ∧
    ((∀ k : Nat, k < a.depth → a.stack[k]? ≠ some n) → allocRemove n a = a)

/-- R284: the polyphonic search returns the first inactive voice and changes nothing; on a full pool it returns the first voice with the least score and
marks it, and nothing else. -/
def Obligations.FindVoicePolyPrefersFree : Prop :=
  ∀ (c : Cfg) (n : U7) (s : State), s.voices ≠ [] →
    (∀ (v : Nat) (x : Voice), s.voices[v]? = some x → isActive x = false →
      (∀ (u : Nat) (y : Voice), u < v → s.voices[u]? = some y → isActive y = true) → findVoice c n .poly s = (v, s)) ∧
    ((∀ x ∈ s.voices, isActive x = true) →
      ∃ v x t, findVoice c n .poly s = (v, t) ∧ FirstLeastScore c s.voices v ∧ s.voices[v]? = some x ∧
        t.voices[v]? = some { x with justAllocated := true } ∧ OnlyVoice v s t ∧ SameSurroundings s t ∧ t.alloc = s.alloc)

/-- R291 (2): in polyphonic mode the allocator's state is written by no command but the two bulk releases and the two commands that reset every voice. -/
def Obligations.PolyModeNeverWritesStack : Prop :=
  ∀ (i : Instr) (s t : State), enumMode (memRead s.cur 0x0D) = .poly →
    i ≠ .allNotesOff → i ≠ .allSoundOff → i ≠ .applyPatch → i ≠ .sysReset →
    exec i s = .next t → t.alloc = s.alloc

/-! The Controls. -/

/-- R304, R92: `CTRL_CHANGE`, every id, the value clamped to 127. Id 2 with the pedal going up releases every sustained voice, and only those. -/
def Obligations.CtrlChangeById : Prop :=
  ∀ (s : State) (id value : Nat),
    (id = 0 → exec (.ctrlChange id value) s =
      .next { s with ctl := { s.ctl with portaTimeSec := Config.cfg.portaTime (u7Nat value) } }) ∧
    (id = 1 → exec (.ctrlChange id value) s =
      .next { s with ctl := { s.ctl with modWheel := Config.cfg.mwFactor (u7Nat value) } }) ∧
    (id = 2 → ∃ t, exec (.ctrlChange id value) s = .next t ∧
      t.stg = s.stg ∧ t.cur = s.cur ∧ t.alloc = s.alloc ∧ t.out = s.out ∧ t.port = s.port ∧
      t.ctl = { s.ctl with sustain := decide (64 ≤ value) } ∧
      (s.ctl.sustain = true → value < 64 →
        EachVoice (fun x y => (x.sustained = true → ReleaseEffect Config.cfg s.cur x y) ∧ (x.sustained = false → y = x)) s t) ∧
      ((s.ctl.sustain = false ∨ 64 ≤ value) → t.voices = s.voices)) ∧
    (id = 3 → exec (.ctrlChange id value) s =
      .next { s with ctl := { s.ctl with volume := Config.cfg.volFactor (u7Nat value) } }) ∧
    (id = 4 → exec (.ctrlChange id value) s = .next { s with ctl := { s.ctl with portaEnable := decide (64 ≤ value) } }) ∧
    (5 ≤ id → exec (.ctrlChange id value) s = .next s)

/-- R305, R83: `PITCH_BEND` stores the bend in semitones by the current range byte and changes nothing else; as a word, its low 16 bits are the signed bend
and W[23:16] is ignored. -/
def Obligations.PitchBendSetsSemitones : Prop :=
  (∀ (s : State) (bend : Int), exec (.pitchBend bend) s =
    .next { s with ctl := { s.ctl with pitchBend := Config.cfg.bendMap bend (u7 (memRead s.cur 0x0F)) } }) ∧
  ∀ (s : State) (w : Word) (rest : List Word), s.port = w :: rest → (w >>> 24).toNat = 4 →
    step s = .next { s with
      port := rest
      ctl := { s.ctl with pitchBend := Config.cfg.bendMap (w.extractLsb' 0 16).toInt (u7 (memRead s.cur 0x0F)) } }

/-! The patch memories. -/

/-- R306, R64: `PATCH_WR` writes its one byte of the staging patch and nothing else; an address above 149 makes it ignored. The staging patch is in
canonical form by the invariant `StepKeepsSound`. -/
def Obligations.PatchWrWritesOneStagingByte : Prop :=
  ∀ (s : State) (addr value : Nat), Memory.wf s.stg = true → value < 256 →
    (addr ≤ 149 → ∃ t, exec (.patchWr addr value) s = .next t ∧ (memRead t.stg addr).toNat = value ∧
      (∀ a, a ≠ addr → memRead t.stg a = memRead s.stg a) ∧
      t.cur = s.cur ∧ t.ctl = s.ctl ∧ t.alloc = s.alloc ∧ t.voices = s.voices ∧ t.out = s.out ∧ t.port = s.port) ∧
    (149 < addr → exec (.patchWr addr value) s = .next s)

/-- R307, R64, R66: `OP_PARAM` writes its one byte of an Operator block of the current patch, at `38 + 28 × op + offset`, and nothing else: no cached value
is recomputed. An operator above 3 or an offset above 27 makes it ignored. -/
def Obligations.OpParamWritesOneCurrentByte : Prop :=
  ∀ (s : State) (op offset value : Nat), Memory.wf s.cur = true → value < 256 →
    (op ≤ 3 → offset ≤ 27 → ∃ t, exec (.opParam op offset value) s = .next t ∧
      (memRead t.cur (38 + 28 * op + offset)).toNat = value ∧
      (∀ a, a ≠ 38 + 28 * op + offset → memRead t.cur a = memRead s.cur a) ∧
      t.stg = s.stg ∧ t.ctl = s.ctl ∧ t.alloc = s.alloc ∧ t.voices = s.voices ∧ t.out = s.out ∧ t.port = s.port) ∧
    ((3 < op ∨ 27 < offset) → exec (.opParam op offset value) s = .next s)

/-- R308: `APPLY_PATCH` copies the staging patch, loads its portamento time, resets every voice from the new patch and empties the note stack; the other
Controls, the staging patch and `OUT` are kept. -/
def Obligations.ApplyPatchReplacesPatchAndResets : Prop :=
  ∀ s : State, ∃ t, exec .applyPatch s = .next t ∧
    (∀ a, memRead t.cur a = memRead s.stg a) ∧ t.stg = s.stg ∧
    t.ctl = { s.ctl with portaTimeSec := Config.cfg.portaTime (u7 (memRead s.stg 0x0E)) } ∧
    EachVoice (fun x y => VoiceResetEffect Config.cfg s.stg x y ∧ isActive y = false) s t ∧
    t.alloc = { s.alloc with depth := 0, monoActive := false } ∧ t.out = s.out ∧ t.port = s.port

/-! `RENDER`. -/

/-- R312, R35: `RENDER n` appends exactly `n` pairs, keeps every pair delivered before, makes left and right alike, and changes no memory, Control, note
stack or port; the pool keeps its size. `RENDER 0` changes no state. -/
def Obligations.RenderAppendsExactlyNPairs : Prop :=
  ∀ (s : State) (n : Nat),
    (∃ t new, exec (.render n) s = .next t ∧ t.out = s.out ++ new ∧ new.length = n ∧ (∀ p ∈ new, p.left = p.right) ∧
      t.stg = s.stg ∧ t.cur = s.cur ∧ t.ctl = s.ctl ∧ t.alloc = s.alloc ∧ t.port = s.port ∧
      t.voices.length = s.voices.length) ∧
    exec (.render 0) s = .next s

/-- R312: the whole of `RENDER n`, `n ≥ 1`, in terms of one voice step (`StepMixesTheAlgorithmOrIsSilent`) and one LFO block update
(`LfoBlockUpdateWritesEveryElement`): the pool after the block is the pool after the block start, ticked `n` times; the `k`-th pair is the mix of the
pool after `k` ticks, times the volume, times the master gain. The block start updates an active voice's LFO whatever the depths, as the pseudocode and R371
give: that is the model's reading against R312's remark on two `RENDER 64` (DEDUCED, log entry 22). -/
def Obligations.RenderIsTickedPool : Prop :=
  ∀ (s : State) (n : Nat), 1 ≤ n →
    ∃ t, exec (.render n) s = .next t ∧
      t.voices = (List.map (voiceTick Config.cfg s.cur s.ctl))^[n] (s.voices.map (blockStarted Config.cfg s.cur n)) ∧
      t.out = s.out ++ (List.range n).map fun k =>
        let mix := poolMix Config.cfg s.cur s.ctl
          ((List.map (voiceTick Config.cfg s.cur s.ctl))^[k] (s.voices.map (blockStarted Config.cfg s.cur n)))
        { left := Config.cfg.mul (Config.cfg.mul mix s.ctl.volume) Config.cfg.masterGain,
          right := Config.cfg.mul (Config.cfg.mul mix s.ctl.volume) Config.cfg.masterGain }

/-- R312: with no active voice `RENDER n` appends `n` pairs (0, 0) and changes nothing else; an inactive voice stays as it is through any block. -/
def Obligations.InactiveVoicesAreSkipped : Prop :=
  (∀ (s : State) (n : Nat), (∀ x ∈ s.voices, isActive x = false) →
    exec (.render n) s = .next { s with out := s.out ++ List.replicate n { left := 0, right := 0 } }) ∧
  ∀ (s : State) (n v : Nat) (x : Voice), s.voices[v]? = some x → isActive x = false →
    ∃ t, exec (.render n) s = .next t ∧ t.voices[v]? = some x

/-- R353: no voice reads another's state: under the same patch and Controls a voice ends a block alike, whatever the rest of the machine holds. -/
def Obligations.VoicesDoNotInterfere : Prop :=
  ∀ (s₁ s₂ : State) (n v : Nat) (x : Voice), s₁.cur = s₂.cur → s₁.ctl = s₂.ctl →
    s₁.voices[v]? = some x → s₂.voices[v]? = some x →
    ∃ t₁ t₂ y, exec (.render n) s₁ = .next t₁ ∧ exec (.render n) s₂ = .next t₂ ∧
      t₁.voices[v]? = some y ∧ t₂.voices[v]? = some y

/-- R251, R252, R374: with an algorithm id 0 to 11 a step is `updateMods` and one `compute` of each operator as the descriptor says, the sample the scaled
ascending sum of the carriers; with an id above 11 it is `updateMods` and silence, and the score is 0; under `RENDER` an active such voice keeps its operators
as they are and stays active. -/
def Obligations.StepMixesTheAlgorithmOrIsSilent : Prop :=
  (∀ (c : Cfg) (P : Memory) (ctl : Controls) (x : Voice) (a : Fin 12), x.algId.toNat = a.val →
    ∃ y, MixesAlgorithm c P ctl (c.algTable a) x (voiceStep c P ctl x).1 (voiceStep c P ctl x).2 y) ∧
  (∀ (c : Cfg) (P : Memory) (ctl : Controls) (x : Voice), 11 < x.algId.toNat →
    voiceStep c P ctl x = (0, voiceUpdateMods c P ctl x) ∧ (x.justAllocated = false → calcScore c x = 0)) ∧
  ∀ (s : State) (n v : Nat) (x : Voice), s.voices[v]? = some x → 11 < x.algId.toNat → isActive x = true →
    ∃ t y, exec (.render n) s = .next t ∧ t.voices[v]? = some y ∧ y.op = x.op ∧ y.algId = x.algId ∧ isActive y = true

/-! Whole-machine rules. -/

/-- R29, R60, R28, R35, R69, R208: which commands write what. `STG` only by `PATCH_WR` and `SYS_RESET`; `CUR` only by `APPLY_PATCH`, `OP_PARAM` and
`SYS_RESET`, its Common block not by `OP_PARAM`; the Controls only by the commands R28 names and `SYS_RESET`; `OUT` only grows, and only by `RENDER`. -/
def Obligations.WritersOfEachStore : Prop :=
  ∀ (i : Instr) (s t : State), exec i s = .next t →
    ((∀ a v, i ≠ .patchWr a v) → i ≠ .sysReset → t.stg = s.stg) ∧
    ((∀ o a v, i ≠ .opParam o a v) → i ≠ .applyPatch → i ≠ .sysReset → t.cur = s.cur) ∧
    (i ≠ .applyPatch → i ≠ .sysReset → ∀ a, a < 38 → memRead t.cur a = memRead s.cur a) ∧
    ((∀ d v, i ≠ .ctrlChange d v) → (∀ b, i ≠ .pitchBend b) → i ≠ .applyPatch → i ≠ .sysReset → t.ctl = s.ctl) ∧
    ((∀ n, i ≠ .render n) → t.out = s.out) ∧ ∃ new, t.out = s.out ++ new

/-- R363: while no operator is enabled, in the patch or in any voice, no command but `APPLY_PATCH` and `OP_PARAM` can make a voice active, and every
`RENDER` yields zeros; so it is after power-on. -/
def Obligations.SilentUntilAPatchIsApplied : Prop :=
  NoneEnabled State.reset ∧
  ∀ (i : Instr) (s t : State), NoneEnabled s → i ≠ .applyPatch → (∀ o a v, i ≠ .opParam o a v) → exec i s = .next t →
    NoneEnabled t ∧ (∀ x ∈ t.voices, isActive x = false) ∧
    ∃ n, t.out = s.out ++ List.replicate n { left := 0, right := 0 }

/-! The voice. -/

/-- R231: a voice is active when an enabled operator has its AEG out of IDLE. -/
def Obligations.ActiveMeansAnEnabledSoundingOperator : Prop :=
  ∀ x : Voice, isActive x = true ↔ ∃ i, (x.op.get i).enabled = true ∧ (x.op.get i).aeg.stage ≠ .idle

/-- R232: `Voice.reset` leaves every element as it says, the voice inactive, and is idempotent. -/
def Obligations.VoiceResetSilencesAndIsIdempotent : Prop :=
  ∀ (c : Cfg) (P : Memory) (x : Voice),
    VoiceResetEffect c P x (voiceReset c P x) ∧ isActive (voiceReset c P x) = false ∧
    voiceReset c P (voiceReset c P x) = voiceReset c P x

/-- R239, R240: a note-off releases the voice, or with the pedal down only marks it; a release gates off every envelope and clears the mark. -/
def Obligations.NoteOffHonoursThePedal : Prop :=
  ∀ (c : Cfg) (P : Memory) (ctl : Controls) (x : Voice),
    NoteOffEffect c P ctl x (voiceNoteOff c P ctl x) ∧ ReleaseEffect c P x (voiceRelease c P x)

/-- R241: the per-sample modulation update, every element: `x` before, `y` after. -/
def Obligations.UpdateModsComputesInputs : Prop :=
  ∀ (c : Cfg) (P : Memory) (ctl : Controls) (x : Voice),
    let y := voiceUpdateMods c P ctl x
    y.peg = pegTick c P x.peg ∧
    ((ctl.portaEnable = false ∨ ctl.portaTimeSec ≤ 0) → y.portaPos = 1) ∧
    (ctl.portaEnable = true → 0 < ctl.portaTimeSec → x.portaPos < 1 →
      y.portaPos = min 1 (c.add x.portaPos (c.div 1 (c.mul ctl.portaTimeSec c.sampleRate)))) ∧
    (ctl.portaEnable = true → 0 < ctl.portaTimeSec → 1 ≤ x.portaPos → y.portaPos = x.portaPos) ∧
    y.lfoCur = c.add x.lfoCur x.lfo.inc ∧
    (∀ i, y.pm.get i = c.add (c.add (c.add (c.add
        (c.mul (c.sub y.peg.raw c.pegCenter) (if memRead P (38 + 28 * i.val + 0x10) = 0 then 0 else 1))
        (c.mul (c.mul y.lfoCur (c.lfoPmd (u7 (memRead P 0x14)))) (if memRead P (38 + 28 * i.val + 0x0F) = 0 then 0 else 1)))
        (c.modwheelPm ctl.modWheel y.lfoCur)) ctl.pitchBend)
        (c.sub (c.add x.portaStart (c.mul (c.sub x.portaTarget x.portaStart) y.portaPos)) x.portaTarget)) ∧
    (∀ i, y.am.get i = clamp (c.mul y.lfoCur (c.lfoAmd (u7 (memRead P (38 + 28 * i.val + 0x0E))))) 0 1) ∧
    { y with peg := x.peg, portaPos := x.portaPos, lfoCur := x.lfoCur, pm := x.pm, am := x.am } = x

/-- R242, in exact arithmetic: a glide of time `T` started at position 0 has after `k` samples the position `min 1 (k / (T × SAMPLE_RATE))`, the least `k`
at which it has arrived is the first with `T × SAMPLE_RATE ≤ k`, and the position never falls. -/
def Obligations.PortamentoArrivesOnTime : Prop :=
  ∀ (c : Cfg) (ctl : Controls), c.num = .exact → ctl.portaEnable = true → 0 < ctl.portaTimeSec →
    ∀ k : Nat,
      (portaAdvance c ctl)^[k] 0 = min 1 ((k : Sys2Proof.Num) / (ctl.portaTimeSec * c.sampleRate)) ∧
      ((portaAdvance c ctl)^[k] 0 = 1 ↔ ctl.portaTimeSec * c.sampleRate ≤ (k : Sys2Proof.Num)) ∧
      (portaAdvance c ctl)^[k] 0 ≤ (portaAdvance c ctl)^[k + 1] 0

/-- R262, every line: 0 for an inactive voice; else the sentinel for one just stolen; else 0 for an invalid algorithm id; else the ascending sum of the enabled
carriers' levels, times the weight by carrier count, times the velocity, times 1 for a held or sustained voice and 0.1 for a released one (under binary32 its
nearest value: DEDUCED, log entry 7). R263: (1) it is 0 at velocity 0 too; (3), in exact arithmetic: with no level above `G` it is at most
`4 × G × 0.5 × 127`, which rests on the range of the weights (DEDUCED, log entry 10). R6: in a sound state, so at every command boundary of a run, every score
is below the machine's `SCORE_SENTINEL` (DEDUCED, log entry 8), which is what makes the sentinel protect a voice just stolen. -/
def Obligations.StealingScoreLineByLine : Prop :=
  (∀ (c : Cfg) (x : Voice),
    (isActive x = false → calcScore c x = 0) ∧
    (isActive x = true → x.justAllocated = true → calcScore c x = c.scoreSentinel) ∧
    (isActive x = true → x.justAllocated = false → 11 < x.algId.toNat → calcScore c x = 0) ∧
    (∀ a : Fin 12, isActive x = true → x.justAllocated = false → x.algId.toNat = a.val →
      let A := c.algTable a
      let carriers := ((List.finRange 4).filter A.carriers.get).length
      let S := ascendingSum c (fun i => A.carriers.get i && (x.op.get i).enabled) fun i => aegOut c (x.op.get i).aeg
      let w := if carriers = 1 then 1 else if carriers = 2 then c.invSqrt2 else if carriers = 3 then c.invSqrt3 else 1 / 2
      let h := if x.gate = true ∨ x.sustained = true then 1 else c.round (1 / 10)
      calcScore c x = c.mul (c.mul (c.mul S w) (c.ofNat x.velocity.val)) h) ∧
    (x.velocity = 0 → x.justAllocated = false → calcScore c x = 0) ∧
    ∀ G : Sys2Proof.Num, c.num = .exact → x.justAllocated = false → 0 ≤ G → (∀ i, aegOut c (x.op.get i).aeg ≤ G) →
      calcScore c x ≤ 4 * G * (1 / 2) * 127) ∧
  ∀ (s : State) (x : Voice), Sound Config.cfg s → x ∈ s.voices → calcScore Config.cfg x < Config.cfg.scoreSentinel

/-! The operator. -/

/-- R122 to R127: `setParams` caches the enable flag, the increment, the gain and the feedback scale, and changes nothing else. -/
def Obligations.SetParamsCachesParameters : Prop :=
  ∀ (c : Cfg) (P : Memory) (i : Fin 4) (t : Int) (vel : U7) (baseHz : Sys2Proof.Num) (o : Operator),
    ParamsSet c P i t vel baseHz (operSetParams c P i t vel baseHz o) ∧
    { operSetParams c P i t vel baseHz o with enabled := o.enabled, inc := o.inc, outGain := o.outGain, fbScale := o.fbScale } = o

/-- R130, R132: `compute`: a disabled operator returns 0 and changes no state; an enabled one ticks its AEG, filters its feedback, looks up the sine at the old
phase, advances the phase and returns sine × gain × level. -/
def Obligations.ComputeOneSample : Prop :=
  ∀ (c : Cfg) (P : Memory) (i : Fin 4) (inp pmS : Sys2Proof.Num) (o : Operator),
    (o.enabled = false → operCompute c P i inp pmS o = (0, o)) ∧
    (o.enabled = true →
      let r := operCompute c P i inp pmS o
      let fb := if memRead P (38 + 28 * i.val + 0x14) = 0 then o.fbAcc else c.rectify o.fbAcc
      r.2.aeg = aegTick c P i o.aeg ∧
      r.2.fbFilt = c.add o.fbFilt (c.mul c.fbLpCoef (c.sub fb o.fbFilt)) ∧
      r.2.fbAcc = c.sine (c.frac (c.add (c.add o.phase inp) (c.mul r.2.fbFilt o.fbScale))) ∧
      r.2.phase = c.frac (c.add o.phase (c.mul o.inc (c.semiRatio pmS))) ∧
      r.1 = c.mul (c.mul r.2.fbAcc o.outGain) (aegOut c r.2.aeg) ∧
      { r.2 with aeg := o.aeg, fbFilt := o.fbFilt, fbAcc := o.fbAcc, phase := o.phase } = o)

/-- R133: after every rule of the operator the phase lies in [0,1), whichever NUM is used. -/
def Obligations.PhaseStaysInUnitInterval : Prop :=
  ∀ (c : Cfg) (P : Memory) (i : Fin 4) (o : Operator), 0 ≤ o.phase → o.phase < 1 →
    (∀ inp pmS, 0 ≤ (operCompute c P i inp pmS o).2.phase ∧ (operCompute c P i inp pmS o).2.phase < 1) ∧
    (operReset c P i o).phase = 0 ∧ (∀ t vel hz, (operSetParams c P i t vel hz o).phase = o.phase) ∧
    (∀ k, (operGateOn c P i k o).phase = o.phase) ∧ (operGateOff c P i o).phase = o.phase

/-- R134, in exact arithmetic: with no input, no modulation and no feedback, from phase 0, the `n`-th call of `compute` returns
`SINE(frac(n × inc)) × outGain × aeg_out`, the level being that of the AEG after `n + 1` ticks. -/
def Obligations.UnmodulatedOperatorIsPureSine : Prop :=
  ∀ (c : Cfg) (P : Memory) (i : Fin 4) (o : Operator), c.num = .exact →
    o.enabled = true → o.fbScale = 0 → o.phase = 0 →
    ∀ n : Nat,
      (operCompute c P i 0 0 ((fun o => (operCompute c P i 0 0 o).2)^[n] o)).1 =
        c.sine ((n : Sys2Proof.Num) * o.inc - (((n : Sys2Proof.Num) * o.inc).floor : Sys2Proof.Num)) * o.outGain * aegOut c ((aegTick c P i)^[n + 1] o.aeg)

/-! The envelopes. -/

/-- R150, R155, R156: the complete transition table of the AEG; a tick makes at most one transition. With it the output level `aeg_out` (R152) and the
re-expression of a level (R159). -/
def Obligations.AegTransitionTable : Prop :=
  ∀ (c : Cfg) (P : Memory) (i : Fin 4) (g : Aeg),
    let arrives : Prop := if g.rising then g.target ≤ c.add g.raw g.step else c.sub g.raw g.step ≤ g.target
    let g' := aegTick c P i g
    (g.stage = .attack → arrives → AegEntered c P i .decay1 { g with raw := g.target } g') ∧
    (g.stage = .decay1 → arrives → AegEntered c P i .decay2 { g with raw := g.target } g') ∧
    (g.stage = .decay2 → arrives → g' = { g with stage := .sustain, raw := g.target, target := c.egLevel (u7 (memRead P (38 + 28 * i.val + 7))), rising := false, step := 0 }) ∧
    (g.stage = .release → arrives →
      g' = { g with stage := .idle, raw := 0, target := c.egLevel (u7 (memRead P (38 + 28 * i.val + 8))), rising := false, step := 0 }) ∧
    (g.stage ≠ .sustain → g.stage ≠ .idle → ¬ arrives →
      g' = { g with raw := if g.rising then c.add g.raw g.step else c.sub g.raw g.step }) ∧
    ((g.stage = .sustain ∨ g.stage = .idle) → g' = g) ∧
    (g.stage ≠ .release → g.stage ≠ .idle → AegEntered c P i .release (aegReexpress c g) (aegGateOff c P i g)) ∧
    ((g.stage = .release ∨ g.stage = .idle) → aegGateOff c P i g = g) ∧
    AegEntered c P i .attack { g with raw := 0 } (aegGateOn c P i .hard g) ∧
    AegEntered c P i .attack (aegReexpress c g) (aegGateOn c P i .soft g) ∧
    (aegReset c P i g).stage = .idle ∧ (aegReset c P i g).raw = 0 ∧
    (g.stage = .idle → aegOut c g = 0) ∧
    (g.stage ≠ .idle → g.rising = true → aegOut c g = c.add (c.mul g.k (c.egCurve g.raw)) g.c) ∧
    (g.stage ≠ .idle → g.rising = false → aegOut c g = c.egGain g.raw) ∧
    (g.stage ≠ .idle → g.rising = true → aegReexpress c g = { g with raw := c.egGainInv (aegOut c g) }) ∧
    ((g.stage = .idle ∨ g.rising = false) → aegReexpress c g = g)

/-- R154, in exact arithmetic: on entering a rising stage the map starts at `EG_GAIN(raw)` and ends at `EG_GAIN(target)`. -/
def Obligations.RisingMapMeetsBothEndpoints : Prop :=
  ∀ (c : Cfg) (P : Memory) (i : Fin 4) (s : Stage) (g : Aeg), c.num = .exact → s ≠ .sustain → s ≠ .idle →
    0 ≤ g.raw → g.raw < c.egLevel (u7 (memRead P (38 + 28 * i.val + (5 + stageIdx s)))) →
    let g' := aegEnter c P i s g
    g'.rising = true ∧ aegOut c g' = c.egGain g.raw ∧ aegOut c { g' with raw := g'.target } = c.egGain g'.target

/-- R160 (3), R159, in exact arithmetic: the output is continuous across a gate-off and across a soft gate-on, from any stage but IDLE, whenever the output is
one that `EG_GAIN` takes on its interval (the condition R7 puts on `EG_GAIN_INV`). -/
def Obligations.OutputContinuousAtSoftGates : Prop :=
  ∀ (c : Cfg) (P : Memory) (i : Fin 4) (g : Aeg), c.num = .exact → g.stage ≠ .idle →
    (g.rising = true → ∃ x, c.InEgRange x ∧ aegOut c g = c.egGain x) →
    aegOut c (aegGateOff c P i g) = aegOut c g ∧ aegOut c (aegGateOn c P i .soft g) = aegOut c g

/-- R181, R184, R185, R186, R187: the complete transition table of the PEG; a tick makes at most one transition, and the level it comes to rest at is kept. -/
def Obligations.PegTransitionTable : Prop :=
  ∀ (c : Cfg) (P : Memory) (g : Peg),
    let arrives : Prop := if g.rising then g.target ≤ c.add g.raw g.step else c.sub g.raw g.step ≤ g.target
    let g' := pegTick c P g
    (g.stage = .attack → arrives → PegEntered c P .decay1 { g with raw := g.target } g') ∧
    (g.stage = .decay1 → arrives → PegEntered c P .decay2 { g with raw := g.target } g') ∧
    (g.stage = .decay2 → arrives → g' = { g with stage := .sustain, raw := g.target, target := c.pegLevel (u7 (memRead P 0x1B)), rising := false, step := 0 }) ∧
    (g.stage = .release → arrives → g' = { g with stage := .idle, raw := g.target, rising := false, step := 0 }) ∧
    (g.stage ≠ .sustain → g.stage ≠ .idle → ¬ arrives →
      g' = { g with raw := if g.rising then c.add g.raw g.step else c.sub g.raw g.step }) ∧
    ((g.stage = .sustain ∨ g.stage = .idle) → g' = g) ∧
    (g.stage ≠ .release → g.stage ≠ .idle → PegEntered c P .release g (pegGateOff c P g)) ∧
    ((g.stage = .release ∨ g.stage = .idle) → pegGateOff c P g = g) ∧
    PegEntered c P .attack { g with raw := c.pegLevel (u7 (memRead P 0x1C)) } (pegGateOn c P .hard g) ∧
    PegEntered c P .attack g (pegGateOn c P .soft g) ∧
    (pegReset c P g).stage = .idle ∧ (pegReset c P g).raw = c.pegLevel (u7 (memRead P 0x1C))

/-- R189 (1), in exact arithmetic: with every PEG level byte equal, a PEG at that level stays at it through every tick, gate-on, gate-off and reset, so `peg_out`
is one constant. -/
def Obligations.FlatPegIsConstant : Prop :=
  ∀ (c : Cfg) (P : Memory) (b : U7) (g : Peg), c.num = .exact →
    (∀ k, k < 4 → u7 (memRead P (0x19 + k)) = b) → g.raw = c.pegLevel b → g.target = c.pegLevel b → 0 ≤ g.step →
    ∀ g', (g' = pegTick c P g ∨ (∃ k, g' = pegGateOn c P k g) ∨ g' = pegGateOff c P g ∨ g' = pegReset c P g) →
      g'.raw = c.pegLevel b ∧ g'.target = c.pegLevel b ∧ 0 ≤ g'.step ∧ pegOut c g' = pegOut c g

/-! The LFO. -/

/-- R205: the 32-bit xorshift: a nonzero state never becomes 0, no two states have one successor, and the spec's worked values. -/
def Obligations.XorshiftKeepsNonzero : Prop :=
  (∀ x : Word, x ≠ 0 → xorshift32 x ≠ 0) ∧ (∀ x y : Word, xorshift32 x = xorshift32 y → x = y) ∧
  xorshift32 1 = 0x00042021 ∧ xorshift32 0x00042021 = 0x04080601 ∧ xorshift32 0x04080601 = 0x9DCCA8C5 ∧ xorshift32 2 = 0x00084042

/-- R213 (1) (2) (4) (6) (7): after a block update, a sync, a reset the LFO is in range; a held waveform has no increment; a block draws at most once, a sync
exactly once; a reset draws nothing and is idempotent. -/
def Obligations.LfoStaysInRange : Prop :=
  ∀ (c : Cfg) (P : Memory) (n : Nat) (l : Lfo), LfoSound c l → 1 ≤ n →
    LfoSound c (lfoBlockUpdate c P n l) ∧ LfoSound c (lfoSync c l) ∧ LfoSound c (lfoReset l) ∧
    ((enumLfoWave (memRead P 0x11) = .square ∨ enumLfoWave (memRead P 0x11) = .sh8 ∨ enumLfoWave (memRead P 0x11) = .shFree) → (lfoBlockUpdate c P n l).inc = 0) ∧
    ((lfoBlockUpdate c P n l).rng = l.rng ∨ (lfoBlockUpdate c P n l).rng = xorshift32 l.rng) ∧
    (lfoSync c l).rng = xorshift32 l.rng ∧ (lfoReset l).rng = l.rng ∧ lfoReset (lfoReset l) = lfoReset l

/-- R209, R210: when a new value is drawn: in 8-step mode exactly when the eighth of the cycle has changed, in free mode exactly when the last block
wrapped, in the other modes never. -/
def Obligations.SampleAndHoldRedraws : Prop :=
  ∀ (c : Cfg) (P : Memory) (n : Nat) (l : Lfo),
    let l' := lfoBlockUpdate c P n l
    let idx := min (c.mul 8 l.p).floor.toNat 7
    let drawn : Prop := l'.rng = xorshift32 l.rng ∧ l'.sh = c.randMap (xorshift32 l.rng)
    let kept : Prop := l'.rng = l.rng ∧ l'.sh = l.sh
    (enumLfoWave (memRead P 0x11) = .sh8 → idx ≠ l.stepIdx.val → drawn ∧ l'.stepIdx.val = idx) ∧
    (enumLfoWave (memRead P 0x11) = .sh8 → idx = l.stepIdx.val → kept ∧ l'.stepIdx = l.stepIdx) ∧
    (enumLfoWave (memRead P 0x11) = .shFree → l.wrap = true → drawn) ∧ (enumLfoWave (memRead P 0x11) = .shFree → l.wrap = false → kept) ∧
    (enumLfoWave (memRead P 0x11) ≠ .sh8 → enumLfoWave (memRead P 0x11) ≠ .shFree → kept) ∧ (enumLfoWave (memRead P 0x11) ≠ .sh8 → l'.stepIdx = l.stepIdx)

/-- R212, R213 (5), in exact arithmetic: with a continuous waveform the line of one block ends where the next block begins. That this holds for a next block of
any length `m` follows from R212's pseudocode; R212's corner case (d) says otherwise, and R213 (5) claims it for a constant length only. The model follows the
pseudocode: DEDUCED, log entry 21. -/
def Obligations.LfoLineMeetsNextBlock : Prop :=
  ∀ (c : Cfg) (P : Memory) (n m : Nat) (l : Lfo), c.num = .exact → 1 ≤ n →
    enumLfoWave (memRead P 0x11) ≠ .square → enumLfoWave (memRead P 0x11) ≠ .sh8 → enumLfoWave (memRead P 0x11) ≠ .shFree →
    (lfoBlockUpdate c P m (lfoBlockUpdate c P n l)).val =
      (lfoBlockUpdate c P n l).val + (n : Sys2Proof.Num) * (lfoBlockUpdate c P n l).inc

/-- R213 (3), in exact arithmetic: while `SINE` stays within [−1, 1] on its domain [0,1), so does the LFO's value at every block start. -/
def Obligations.LfoValueIsBounded : Prop :=
  ∀ (c : Cfg) (P : Memory) (n : Nat) (l : Lfo), c.num = .exact →
    (∀ p, 0 ≤ p → p < 1 → -1 ≤ c.sine p ∧ c.sine p ≤ 1) → LfoSound c l →
    -1 ≤ (lfoBlockUpdate c P n l).val ∧ (lfoBlockUpdate c P n l).val ≤ 1

/-! How a patch byte is read. -/

/-- R101 to R106, R30: the enumeration codes, a byte above the highest code read as the highest, and the flag bytes; with them the stage pair of each envelope
stage (R151, R181), the index of its rate and level bytes. -/
def Obligations.PatchByteCodes : Prop :=
  ∀ b : Byte,
    (u7 b).val = min b.toNat 127 ∧
    enumMode b = (if b.toNat = 0 then .poly else if b.toNat = 1 then .monoFull else .monoLegato) ∧
    enumLfoWave b = (if b.toNat = 0 then .sine else if b.toNat = 1 then .tri else if b.toNat = 2 then .sawUp
      else if b.toNat = 3 then .sawDown else if b.toNat = 4 then .square else if b.toNat = 5 then .sh8 else .shFree) ∧
    enumKsCurve b = (if b.toNat = 0 then .negLin else if b.toNat = 1 then .negExp else if b.toNat = 2 then .posExp else .posLin) ∧
    enumFbType b = (if b.toNat = 0 then .plain else .square) ∧
    enumFreqMode b = (if b.toNat = 0 then .ratio else .fixed) ∧
    (en b = false ↔ b = 0) ∧
    (stageIdx .attack = 0 ∧ stageIdx .decay1 = 1 ∧ stageIdx .decay2 = 2 ∧ stageIdx .sustain = 2 ∧ stageIdx .release = 3 ∧ stageIdx .idle = 3)

/-! Added after the first review. -/

/-- R207, R208, R211, R212: every element a block update writes, from the patch bytes 0x11 to 0x13 (R95), the waveforms row by row and the fade. The held value
`sh` and `stepIdx` after the redraw are `SampleAndHoldRedraws`'s. -/
def Obligations.LfoBlockUpdateWritesEveryElement : Prop :=
  (∀ (c : Cfg) (P : Memory) (n : Nat) (l : Lfo), 1 ≤ n →
    let l' := lfoBlockUpdate c P n l
    let w := enumLfoWave (memRead P 0x11)
    let dphi := c.div (c.lfoHz (u7 (memRead P 0x12))) c.sampleRate
    let D := c.lfoDelaySamples (u7 (memRead P 0x13))
    let u := c.add l.p (c.mul (c.ofNat n) dphi)
    l'.p = c.frac u ∧ l'.e = min (l.e + n) D ∧
    l'.val = c.mul (wave c w l.p l'.sh) (fade c l.e D) ∧
    (w = .sine ∨ w = .tri ∨ w = .sawUp ∨ w = .sawDown →
      l'.inc = c.div (c.sub (c.mul (wave c w l'.p l'.sh) (fade c l'.e D)) l'.val) (c.ofNat n)) ∧
    (w = .square ∨ w = .sh8 ∨ w = .shFree → l'.inc = 0) ∧
    (l'.wrap = true ↔ 1 ≤ u)) ∧
  (∀ (c : Cfg) (p sh : Sys2Proof.Num),
    wave c .sine p sh = c.sine p ∧
    (p < 1 / 4 → wave c .tri p sh = c.mul 4 p) ∧
    (1 / 4 ≤ p → p < 3 / 4 → wave c .tri p sh = c.sub 2 (c.mul 4 p)) ∧
    (3 / 4 ≤ p → wave c .tri p sh = c.sub (c.mul 4 p) 4) ∧
    wave c .sawUp p sh = c.sub (c.mul 2 p) 1 ∧ wave c .sawDown p sh = c.sub 1 (c.mul 2 p) ∧
    (p < 1 / 2 → wave c .square p sh = 1) ∧ (1 / 2 ≤ p → wave c .square p sh = -1) ∧
    wave c .sh8 p sh = sh ∧ wave c .shFree p sh = sh) ∧
  ∀ (c : Cfg) (e D : Nat), fade c e 0 = 1 ∧ (D ≠ 0 → fade c e D = min 1 (c.div (c.ofNat e) (c.ofNat D)))

/-- R8, R12, R133: under the exact instance the four operations and `frac` are the exact ones, and an integer or a constant is itself. Under binary32 each
answers the round-to-nearest-even of its exact result, `frac` that of `x − floor(x)`, or 0 where that would be 1; so is an integer used as a NUM, which is
the model's reading (DEDUCED, log entry 7). The premise on the exact result says that its rounding is finite: R8 and R380 say that no other arises, and what
the model then answers is its own free value (log entry 18). `clamp` is as R12 writes it. -/
def Obligations.OperationsRoundTheirExactResult : Prop :=
  (∀ (c : Cfg) (x y : Sys2Proof.Num), c.num = .exact →
    c.add x y = x + y ∧ c.sub x y = x - y ∧ c.mul x y = x * y ∧ (y ≠ 0 → c.div x y = x / y) ∧ c.frac x = x - (x.floor : Sys2Proof.Num) ∧
    c.round x = x ∧ (∀ n : Int, c.ofInt n = (n : Sys2Proof.Num)) ∧ ∀ n : Nat, c.ofNat n = (n : Sys2Proof.Num)) ∧
  (∀ (c : Cfg) (x y : Sys2Proof.Num), c.num = .binary32 →
    let finite : Sys2Proof.Num → Prop := fun q => |q| < 2 ^ 128 - 2 ^ 103
    (finite (x + y) → NearestEven (x + y) (c.add x y)) ∧ (finite (x - y) → NearestEven (x - y) (c.sub x y)) ∧
    (finite (x * y) → NearestEven (x * y) (c.mul x y)) ∧ (y ≠ 0 → finite (x / y) → NearestEven (x / y) (c.div x y)) ∧
    (NearestEven (x - (x.floor : Sys2Proof.Num)) (c.frac x) ∨ (NearestEven (x - (x.floor : Sys2Proof.Num)) 1 ∧ c.frac x = 0)) ∧
    (finite x → NearestEven x (c.round x)) ∧
    (∀ n : Int, finite (n : Sys2Proof.Num) → NearestEven (n : Sys2Proof.Num) (c.ofInt n)) ∧
    ∀ n : Nat, finite (n : Sys2Proof.Num) → NearestEven (n : Sys2Proof.Num) (c.ofNat n)) ∧
  ∀ x lo hi : Sys2Proof.Num,
    (x < lo → clamp x lo hi = lo) ∧ (lo ≤ x → hi < x → clamp x lo hi = hi) ∧ (lo ≤ x → x ≤ hi → clamp x lo hi = x)
end

