-- ==== Sys2Proof/Laws/Binary32.lean ====
section
/-! SUPPORT. What a binary32 value is (R8 (b)): above a power of two it is a multiple of the unit in the last place; and the two weight constants of R6. -/

namespace Sys2Proof

/-- A quotient of an integer below 2^24 by a power of two within the exponent range is a binary32 value. -/
theorem isBinary32_of_int {m : Int} (e : Int) (hm : |m| < 2 ^ 24) (h1 : -149 ≤ e) (h2 : e ≤ 104) : IsBinary32 ((m : Num) * (2 : Num) ^ e) :=
  ⟨m, e, hm, h1, h2, rfl⟩

/-- A binary32 value of magnitude at least `2^(23+k)` is an integer multiple of `2^k`. -/
theorem IsBinary32.multiple {z : Num} (hz : IsBinary32 z) {k : Int} (h : (2 : Num) ^ (23 + k) ≤ |z|) :
    ∃ n : Int, z = (n : Num) * (2 : Num) ^ k := by
  obtain ⟨m, e, hm, -, -, rfl⟩ := hz
  have h2 : (0 : Num) < 2 := by norm_num
  have hk : k ≤ e := by
    by_contra hlt
    have hm' : |(m : Num)| < 2 ^ 24 := by exact_mod_cast hm
    have hle : (2 : Num) ^ e ≤ (2 : Num) ^ (k - 1) := zpow_le_zpow_right₀ (by norm_num) (by omega)
    have : |(m : Num) * (2 : Num) ^ e| < (2 : Num) ^ (23 + k) := by
      rw [abs_mul, abs_of_pos (zpow_pos h2 e)]
      calc |(m : Num)| * (2 : Num) ^ e ≤ |(m : Num)| * (2 : Num) ^ (k - 1) := mul_le_mul_of_nonneg_left hle (abs_nonneg _)
        _ < 2 ^ 24 * (2 : Num) ^ (k - 1) := mul_lt_mul_of_pos_right hm' (zpow_pos h2 _)
        _ = (2 : Num) ^ (23 + k) := by
          rw [← zpow_natCast, ← zpow_add₀ h2.ne']; congr 1; push_cast; ring
    exact absurd h (not_le.mpr this)
  refine ⟨m * 2 ^ (e - k).toNat, ?_⟩
  have : (2 : Num) ^ e = (2 : Num) ^ (e - k).toNat * (2 : Num) ^ k := by
    rw [← zpow_natCast, ← zpow_add₀ h2.ne']; congr 1; omega
  rw [this]; push_cast; ring

/-- A multiple of `2^-24` within `2^-25` of `1/√n`, which lies above 1/2, is the binary32 value nearest `1/√n` (R6). -/
theorem nearestInvSqrt_of_close {n : Nat} {X : Int} (hX : |X| < 2 ^ 24)
    (hlo : (1 : ℝ) / 2 + 2⁻¹ ^ 25 ≤ 1 / Real.sqrt n) (hx : |((X : ℝ) * 2⁻¹ ^ 24) - 1 / Real.sqrt n| ≤ 2⁻¹ ^ 25) :
    NearestInvSqrt n ((X : Num) * (2 : Num) ^ (-24 : Int)) := by
  refine ⟨isBinary32_of_int _ hX (by norm_num) (by norm_num), fun z hz => ?_⟩
  have hcast : (((X : Num) * (2 : Num) ^ (-24 : Int) : Num) : ℝ) = (X : ℝ) * 2⁻¹ ^ 24 := by
    push_cast; norm_num [zpow_neg]
  rw [hcast]
  have hx' := abs_le.mp hx
  by_cases hh : (1 / 2 : Num) ≤ z
  · obtain ⟨N, rfl⟩ := hz.multiple (k := -24) (by
      rw [abs_of_nonneg (by linarith)]; refine le_trans (le_of_eq ?_) hh; norm_num)
    have hc : (((N : Num) * (2 : Num) ^ (-24 : Int) : Num) : ℝ) = (N : ℝ) * 2⁻¹ ^ 24 := by
      push_cast; norm_num [zpow_neg]
    rw [hc]
    rcases lt_trichotomy N X with h | rfl | h
    · refine hx.trans (le_trans ?_ (neg_le_abs _))
      have : (N : ℝ) + 1 ≤ X := by exact_mod_cast h
      norm_num at hx' ⊢
      linarith [hx'.1]
    · exact le_refl _
    · refine hx.trans (le_trans ?_ (le_abs_self _))
      have : (X : ℝ) + 1 ≤ N := by exact_mod_cast h
      norm_num at hx' ⊢
      linarith [hx'.2]
  · refine hx.trans (le_trans ?_ (neg_le_abs _))
    have h : (z : ℝ) < ((1 / 2 : Num) : ℝ) := Rat.cast_lt.mpr (not_le.mp hh)
    push_cast at h
    linarith

/-- The binary32 value nearest `1/√2` is 11863283 / 2^24. -/
theorem nearestInvSqrt_two : NearestInvSqrt 2 (11863283 / 16777216) := by
  have e : (11863283 / 16777216 : Num) = ((11863283 : Int) : Num) * (2 : Num) ^ (-24 : Int) := by norm_num
  rw [e]
  have h0 : (0 : ℝ) < Real.sqrt 2 := by positivity
  have h1 : (1.41421355 : ℝ) < Real.sqrt 2 := Real.lt_sqrt_of_sq_lt (by norm_num)
  have h2 : Real.sqrt 2 < (1.41421357 : ℝ) := (Real.sqrt_lt' (by norm_num)).mpr (by norm_num)
  refine nearestInvSqrt_of_close (by norm_num) ?_ ?_
  · push_cast; rw [le_div_iff₀ h0]; norm_num at *; linarith
  · push_cast
    rw [abs_le, sub_eq_add_neg]
    constructor
    · have : 1 / Real.sqrt 2 ≤ 11863283 * 2⁻¹ ^ 24 + 2⁻¹ ^ 25 := by rw [div_le_iff₀ h0]; norm_num at *; linarith
      linarith
    · have : 11863283 * 2⁻¹ ^ 24 - 2⁻¹ ^ 25 ≤ 1 / Real.sqrt 2 := by rw [le_div_iff₀ h0]; norm_num at *; linarith
      linarith

/-- The binary32 value nearest `1/√3` is 9686330 / 2^24. -/
theorem nearestInvSqrt_three : NearestInvSqrt 3 (9686330 / 16777216) := by
  have e : (9686330 / 16777216 : Num) = ((9686330 : Int) : Num) * (2 : Num) ^ (-24 : Int) := by norm_num
  rw [e]
  have h0 : (0 : ℝ) < Real.sqrt 3 := by positivity
  have h1 : (1.73205080 : ℝ) < Real.sqrt 3 := Real.lt_sqrt_of_sq_lt (by norm_num)
  have h2 : Real.sqrt 3 < (1.73205081 : ℝ) := (Real.sqrt_lt' (by norm_num)).mpr (by norm_num)
  refine nearestInvSqrt_of_close (by norm_num) ?_ ?_
  · push_cast; rw [le_div_iff₀ h0]; norm_num at *; linarith
  · push_cast
    rw [abs_le, sub_eq_add_neg]
    constructor
    · have : 1 / Real.sqrt 3 ≤ 9686330 * 2⁻¹ ^ 24 + 2⁻¹ ^ 25 := by rw [div_le_iff₀ h0]; norm_num at *; linarith
      linarith
    · have : 9686330 * 2⁻¹ ^ 24 - 2⁻¹ ^ 25 ≤ 1 / Real.sqrt 3 := by rw [le_div_iff₀ h0]; norm_num at *; linarith
      linarith

end Sys2Proof
end

