-- ==== Sys2Proof/Laws/Decode.lean ====
section
/-! SUPPORT. The fields of an assembled word are the operands it was assembled from (R80, R83, R87). -/

namespace Sys2Proof

section

variable (op a b c : Nat)

theorem fieldOpcode_wordB : fieldOpcode (wordB op a b c) = op % 256 := by
  have h : (wordB op a b c).extractLsb' 24 8 = BitVec.ofNat 8 op := by
    apply BitVec.eq_of_getLsbD_eq
    intro i hi
    interval_cases i <;> simp only [wordB, BitVec.getLsbD_append, BitVec.getLsbD_extractLsb'] <;> simp
  rw [fieldOpcode, h, BitVec.toNat_ofNat]

theorem fieldA_wordB : fieldA (wordB op a b c) = a % 256 := by
  have h : (wordB op a b c).extractLsb' 16 8 = BitVec.ofNat 8 a := by
    apply BitVec.eq_of_getLsbD_eq
    intro i hi
    interval_cases i <;> simp only [wordB, BitVec.getLsbD_append, BitVec.getLsbD_extractLsb'] <;> simp
  rw [fieldA, h, BitVec.toNat_ofNat]

theorem fieldB_wordB : fieldB (wordB op a b c) = b % 256 := by
  have h : (wordB op a b c).extractLsb' 8 8 = BitVec.ofNat 8 b := by
    apply BitVec.eq_of_getLsbD_eq
    intro i hi
    interval_cases i <;> simp only [wordB, BitVec.getLsbD_append, BitVec.getLsbD_extractLsb'] <;> simp
  rw [fieldB, h, BitVec.toNat_ofNat]

theorem fieldC_wordB : fieldC (wordB op a b c) = c % 256 := by
  have h : (wordB op a b c).extractLsb' 0 8 = BitVec.ofNat 8 c := by
    apply BitVec.eq_of_getLsbD_eq
    intro i hi
    interval_cases i <;> simp only [wordB, BitVec.getLsbD_append, BitVec.getLsbD_extractLsb'] <;> simp
  rw [fieldC, h, BitVec.toNat_ofNat]

variable (imm : BitVec 16)

theorem fieldOpcode_wordH : fieldOpcode (wordH op imm) = op % 256 := by
  have h : (wordH op imm).extractLsb' 24 8 = BitVec.ofNat 8 op := by
    apply BitVec.eq_of_getLsbD_eq
    intro i hi
    interval_cases i <;> simp only [wordH, BitVec.getLsbD_append, BitVec.getLsbD_extractLsb'] <;> simp
  rw [fieldOpcode, h, BitVec.toNat_ofNat]

theorem imm16_wordH : (wordH op imm).extractLsb' 0 16 = imm := by
  apply BitVec.eq_of_getLsbD_eq
  intro i hi
  interval_cases i <;> simp only [wordH, BitVec.getLsbD_append, BitVec.getLsbD_extractLsb'] <;> simp

end

end Sys2Proof
end

