-- ==== Sys2Proof/Laws/Num.lean ====
section
/-! SUPPORT. Laws of NUM arithmetic, `frac` and `clamp` that hold under both instances of NUM (R8, R12). -/

namespace Sys2Proof

theorem pow2_pos (e : Int) : 0 < pow2 e := by
  unfold pow2
  split <;> positivity

theorem roundHalfEven_nonneg {q : Num} (h : 0 ≤ q) : 0 ≤ roundHalfEven q := by
  have hf : 0 ≤ q.floor := by rw [Rat.le_floor_iff]; exact_mod_cast h
  unfold roundHalfEven
  dsimp only
  split_ifs <;> omega

theorem roundBinary32_nonneg {q : Num} (h : 0 ≤ q) : 0 ≤ roundBinary32 q := by
  unfold roundBinary32
  split_ifs with h0 hneg
  · exact le_refl 0
  · exact absurd h (not_le.mpr hneg)
  · refine mul_nonneg ?_ (pow2_pos _).le
    exact_mod_cast roundHalfEven_nonneg (div_nonneg (abs_nonneg q) (pow2_pos _).le)

/-- Rounding keeps the sign of a value that is not negative. -/
theorem Cfg.round_nonneg (c : Cfg) {q : Num} (h : 0 ≤ q) : 0 ≤ c.round q := by
  unfold Cfg.round NumFormat.store
  split
  · exact h
  · dsimp only
    split_ifs
    · exact roundBinary32_nonneg h
    · exact c.valid.overflow_nonneg q h

/-- Under the exact instance nothing is rounded (R8 (a)). -/
theorem Cfg.round_exact {c : Cfg} (h : c.num = .exact) (q : Num) : c.round q = q := by
  unfold Cfg.round; rw [h]; rfl

/-- A value that rounds to itself inside the finite range is stored as it is, under either instance. -/
theorem Cfg.round_eq_self (c : Cfg) {q : Num} (h : roundBinary32 q = q) (hm : |q| ≤ binary32Max) : c.round q = q := by
  unfold Cfg.round NumFormat.store
  split
  · rfl
  · simp only [h, if_pos hm]

@[simp] theorem Cfg.round_zero (c : Cfg) : c.round 0 = 0 := c.round_eq_self (by decide +kernel) (by decide +kernel)

@[simp] theorem Cfg.round_one (c : Cfg) : c.round 1 = 1 := c.round_eq_self (by decide +kernel) (by decide +kernel)

theorem Cfg.add_nonneg (c : Cfg) {x y : Num} (hx : 0 ≤ x) (hy : 0 ≤ y) : 0 ≤ c.add x y :=
  c.round_nonneg (by positivity)

theorem Cfg.mul_nonneg (c : Cfg) {x y : Num} (hx : 0 ≤ x) (hy : 0 ≤ y) : 0 ≤ c.mul x y :=
  c.round_nonneg (by positivity)

theorem Cfg.div_nonneg (c : Cfg) {x y : Num} (hx : 0 ≤ x) (hy : 0 ≤ y) : 0 ≤ c.div x y := by
  unfold Cfg.div
  split_ifs
  · exact c.valid.divZero_nonneg x hx
  · exact c.round_nonneg (by positivity)

/-- In exact arithmetic a quotient by a nonzero number is the exact one (R8 (a)). -/
theorem Cfg.div_exact {c : Cfg} (h : c.num = .exact) (x : Num) {y : Num} (hy : y ≠ 0) : c.div x y = x / y := by
  unfold Cfg.div
  rw [if_neg hy, Cfg.round_exact h]

theorem Cfg.ofNat_nonneg (c : Cfg) (n : Nat) : 0 ≤ c.ofNat n :=
  c.round_nonneg (by positivity)

@[simp] theorem Cfg.zero_mul (c : Cfg) (x : Num) : c.mul 0 x = 0 := by simp [Cfg.mul]

@[simp] theorem Cfg.mul_zero (c : Cfg) (x : Num) : c.mul x 0 = 0 := by simp [Cfg.mul]

@[simp] theorem Cfg.add_zero_zero (c : Cfg) : c.add 0 0 = 0 := by simp [Cfg.add]

/-- `frac` maps every NUM into [0,1) (R12, R133). -/
theorem Cfg.frac_range (c : Cfg) (x : Num) : 0 ≤ c.frac x ∧ c.frac x < 1 := by
  have hf : 0 ≤ x - (x.floor : Num) := sub_nonneg.mpr (Rat.floor_le x)
  unfold Cfg.frac
  dsimp only
  split_ifs with h
  · exact ⟨c.round_nonneg hf, h⟩
  · norm_num

/-- Under the exact instance `frac` is `x - floor(x)` (R12). -/
theorem Cfg.frac_exact {c : Cfg} (h : c.num = .exact) (x : Num) : c.frac x = x - (x.floor : Num) := by
  have h1 : x - (x.floor : Num) < 1 := by
    have := Rat.lt_floor_add_one x
    push_cast at this
    linarith
  simp [Cfg.frac, Cfg.sub, Cfg.round_exact h, h1]

/-- `clamp` answers a value of its interval (R12). -/
theorem clamp_range {lo hi : Num} (h : lo ≤ hi) (x : Num) : lo ≤ clamp x lo hi ∧ clamp x lo hi ≤ hi := by
  unfold clamp
  split_ifs with h1 h2
  · exact ⟨le_refl _, h⟩
  · exact ⟨h, le_refl _⟩
  · exact ⟨not_lt.mp h1, not_lt.mp h2⟩

end Sys2Proof
end

