-- ==== Sys2Proof/Laws/State.lean ====
section
/-! SUPPORT. One lemma per field per update of the state's records, true by rfl, and the laws of a group of four and of the pool accessors; later proofs cite
these and unfold no record update. -/

namespace Sys2Proof

/-! A group of four. -/

section

variable {α β : Type}

@[simp] theorem Quad.get_replicate (a : α) (i : Fin 4) : (Quad.replicate a).get i = a := by
  match i with
  | 0 => rfl
  | 1 => rfl
  | 2 => rfl
  | 3 => rfl

@[simp] theorem Quad.get_mapIdx (f : Fin 4 → α → β) (q : Quad α) (i : Fin 4) : (q.mapIdx f).get i = f i (q.get i) := by
  match i with
  | 0 => rfl
  | 1 => rfl
  | 2 => rfl
  | 3 => rfl

@[simp] theorem Quad.get_set_same (q : Quad α) (i : Fin 4) (a : α) : (q.set i a).get i = a := by
  match i with
  | 0 => rfl
  | 1 => rfl
  | 2 => rfl
  | 3 => rfl

theorem Quad.get_set_other (q : Quad α) {i j : Fin 4} (a : α) (h : j ≠ i) : (q.set i a).get j = q.get j := by
  match i, j with
  | 0, 0 => exact absurd rfl h
  | 0, 1 => rfl
  | 0, 2 => rfl
  | 0, 3 => rfl
  | 1, 0 => rfl
  | 1, 1 => exact absurd rfl h
  | 1, 2 => rfl
  | 1, 3 => rfl
  | 2, 0 => rfl
  | 2, 1 => rfl
  | 2, 2 => exact absurd rfl h
  | 2, 3 => rfl
  | 3, 0 => rfl
  | 3, 1 => rfl
  | 3, 2 => rfl
  | 3, 3 => exact absurd rfl h

/-- Groups of four with equal elements are equal. -/
theorem Quad.ext_get {q r : Quad α} (h : ∀ i, q.get i = r.get i) : q = r := by
  cases q; cases r
  have h0 := h 0; have h1 := h 1; have h2 := h 2; have h3 := h 3
  simp only [Quad.get] at h0 h1 h2 h3
  subst h0 h1 h2 h3
  rfl

theorem Quad.any_eq_true {p : α → Bool} {q : Quad α} : q.any p = true ↔ ∃ i, p (q.get i) = true := by
  constructor
  · intro h
    simp only [Quad.any, Bool.or_eq_true] at h
    rcases h with ((h | h) | h) | h
    · exact ⟨0, h⟩
    · exact ⟨1, h⟩
    · exact ⟨2, h⟩
    · exact ⟨3, h⟩
  · rintro ⟨i, h⟩
    match i, h with
    | 0, h => simp only [Quad.get] at h; simp [Quad.any, h]
    | 1, h => simp only [Quad.get] at h; simp [Quad.any, h]
    | 2, h => simp only [Quad.get] at h; simp [Quad.any, h]
    | 3, h => simp only [Quad.get] at h; simp [Quad.any, h]

end

end Sys2Proof

namespace Sys2Proof.Machine

/-! The pool. -/

section

variable (s : State) (v : Nat) (f : Voice → Voice)

@[simp] theorem State.modifyVoice_stg : (s.modifyVoice v f).stg = s.stg := rfl
@[simp] theorem State.modifyVoice_cur : (s.modifyVoice v f).cur = s.cur := rfl
@[simp] theorem State.modifyVoice_ctl : (s.modifyVoice v f).ctl = s.ctl := rfl
@[simp] theorem State.modifyVoice_alloc : (s.modifyVoice v f).alloc = s.alloc := rfl
@[simp] theorem State.modifyVoice_out : (s.modifyVoice v f).out = s.out := rfl
@[simp] theorem State.modifyVoice_port : (s.modifyVoice v f).port = s.port := rfl
@[simp] theorem State.modifyVoice_voices : (s.modifyVoice v f).voices = s.voices.modify v f := rfl

@[simp] theorem State.mapVoices_stg : (s.mapVoices f).stg = s.stg := rfl
@[simp] theorem State.mapVoices_cur : (s.mapVoices f).cur = s.cur := rfl
@[simp] theorem State.mapVoices_ctl : (s.mapVoices f).ctl = s.ctl := rfl
@[simp] theorem State.mapVoices_alloc : (s.mapVoices f).alloc = s.alloc := rfl
@[simp] theorem State.mapVoices_out : (s.mapVoices f).out = s.out := rfl
@[simp] theorem State.mapVoices_port : (s.mapVoices f).port = s.port := rfl
@[simp] theorem State.mapVoices_voices : (s.mapVoices f).voices = s.voices.map f := rfl

end

@[simp] theorem Alloc.clear_stack (a : Alloc) : a.clear.stack = a.stack := rfl
@[simp] theorem Alloc.clear_depth (a : Alloc) : a.clear.depth = 0 := rfl
@[simp] theorem Alloc.clear_monoActive (a : Alloc) : a.clear.monoActive = false := rfl

section

variable (w : Word) (s : State)

@[simp] theorem presentCommand_port : (presentCommand w s).port = w :: s.port := rfl
@[simp] theorem presentCommand_stg : (presentCommand w s).stg = s.stg := rfl
@[simp] theorem presentCommand_cur : (presentCommand w s).cur = s.cur := rfl
@[simp] theorem presentCommand_ctl : (presentCommand w s).ctl = s.ctl := rfl
@[simp] theorem presentCommand_alloc : (presentCommand w s).alloc = s.alloc := rfl
@[simp] theorem presentCommand_voices : (presentCommand w s).voices = s.voices := rfl
@[simp] theorem presentCommand_out : (presentCommand w s).out = s.out := rfl

/-- A word just presented is the word taken next (R313). -/
@[simp] theorem takeCommand_presentCommand : takeCommand (presentCommand w s) = some (w, s) := rfl

end

/-! Reset. -/

@[simp] theorem State.powerOn_stg (c : Cfg) : (State.powerOn c).stg = [] := rfl
@[simp] theorem State.powerOn_cur (c : Cfg) : (State.powerOn c).cur = [] := rfl
@[simp] theorem State.powerOn_ctl (c : Cfg) : (State.powerOn c).ctl = Controls.initial := rfl
@[simp] theorem State.powerOn_out (c : Cfg) : (State.powerOn c).out = [] := rfl
@[simp] theorem State.powerOn_port (c : Cfg) : (State.powerOn c).port = [] := rfl
@[simp] theorem State.powerOn_voices (c : Cfg) :
    (State.powerOn c).voices = (List.range c.numVoices).map (Voice.powerOn c) := rfl

theorem State.powerOn_pool_size (c : Cfg) : (State.powerOn c).voices.length = c.numVoices := by
  simp

/-! Operators: what each operation writes (R121, R122, R128). -/

section

variable (c : Cfg) (P : Memory) (i : Fin 4) (o : Operator)

@[simp] theorem operReset_phase : (operReset c P i o).phase = 0 := rfl
@[simp] theorem operReset_fbAcc : (operReset c P i o).fbAcc = 0 := rfl
@[simp] theorem operReset_fbFilt : (operReset c P i o).fbFilt = 0 := rfl
@[simp] theorem operReset_aeg : (operReset c P i o).aeg = aegReset c P i o.aeg := rfl
@[simp] theorem operReset_inc : (operReset c P i o).inc = o.inc := rfl
@[simp] theorem operReset_outGain : (operReset c P i o).outGain = o.outGain := rfl
@[simp] theorem operReset_fbScale : (operReset c P i o).fbScale = o.fbScale := rfl
@[simp] theorem operReset_enabled : (operReset c P i o).enabled = o.enabled := rfl

variable (t : Int) (vel : U7) (hz : Num)

@[simp] theorem operSetParams_phase : (operSetParams c P i t vel hz o).phase = o.phase := rfl
@[simp] theorem operSetParams_fbAcc : (operSetParams c P i t vel hz o).fbAcc = o.fbAcc := rfl
@[simp] theorem operSetParams_fbFilt : (operSetParams c P i t vel hz o).fbFilt = o.fbFilt := rfl
@[simp] theorem operSetParams_aeg : (operSetParams c P i t vel hz o).aeg = o.aeg := rfl
@[simp] theorem operSetParams_enabled : (operSetParams c P i t vel hz o).enabled = en (opEnable P i) := rfl
@[simp] theorem operSetParams_inc : (operSetParams c P i t vel hz o).inc = operInc c P i hz := rfl
@[simp] theorem operSetParams_outGain : (operSetParams c P i t vel hz o).outGain = operOutGain c P i t vel := rfl
@[simp] theorem operSetParams_fbScale : (operSetParams c P i t vel hz o).fbScale = c.fbScale (opFbLevel P i) := rfl

variable (k : GateKind)

@[simp] theorem operGateOn_aeg : (operGateOn c P i k o).aeg = aegGateOn c P i k o.aeg := rfl
@[simp] theorem operGateOn_phase : (operGateOn c P i k o).phase = o.phase := rfl
@[simp] theorem operGateOn_inc : (operGateOn c P i k o).inc = o.inc := rfl
@[simp] theorem operGateOn_enabled : (operGateOn c P i k o).enabled = o.enabled := rfl
@[simp] theorem operGateOff_aeg : (operGateOff c P i o).aeg = aegGateOff c P i o.aeg := rfl
@[simp] theorem operGateOff_phase : (operGateOff c P i o).phase = o.phase := rfl
@[simp] theorem operGateOff_inc : (operGateOff c P i o).inc = o.inc := rfl
@[simp] theorem operGateOff_enabled : (operGateOff c P i o).enabled = o.enabled := rfl

end

end Sys2Proof.Machine
end

