-- ==== Sys2Proof/Laws/Envelopes.lean ====
section
/-! SUPPORT. What the envelope operations can do (41_aeg.md, 42_peg.md): the stage each leaves, what it keeps, and that each keeps its envelope sound. -/

namespace Sys2Proof.Machine

section

variable (c : Cfg) (P : Memory) (i : Fin 4)

/-! Stage entry. -/

@[simp] theorem aegEnter_stage (s : Stage) (g : Aeg) : (aegEnter c P i s g).stage = s := by
  unfold aegEnter; dsimp only; split_ifs <;> rfl

@[simp] theorem aegEnter_raw (s : Stage) (g : Aeg) : (aegEnter c P i s g).raw = g.raw := by
  unfold aegEnter; dsimp only; split_ifs <;> rfl

@[simp] theorem aegEnter_target (s : Stage) (g : Aeg) : (aegEnter c P i s g).target = aegTarget c P i s := by
  unfold aegEnter; dsimp only; split_ifs <;> rfl

/-- The direction a stage is entered with (R154). -/
theorem aegEnter_rising (s : Stage) (g : Aeg) :
    (aegEnter c P i s g).rising = (decide (s ≠ .sustain) && ramps g.raw (aegTarget c P i s)) := by
  unfold aegEnter
  by_cases hs : s = .sustain
  · simp [hs]
  · by_cases hr : ramps g.raw (aegTarget c P i s) = true <;> simp [hs, hr]

/-- The step a stage is entered with (R154). -/
theorem aegEnter_step (s : Stage) (g : Aeg) :
    (aegEnter c P i s g).step =
      if s = .sustain then 0
      else c.mul (c.egRateStep (opEgRate P i s)) (if ramps g.raw (aegTarget c P i s) then c.egRiseScale else c.egFallScale) := by
  unfold aegEnter
  by_cases hs : s = .sustain
  · simp [hs]
  · by_cases hr : ramps g.raw (aegTarget c P i s) = true <;> simp [hs, hr]

@[simp] theorem pegEnter_stage (s : Stage) (g : Peg) : (pegEnter c P s g).stage = s := by
  unfold pegEnter; dsimp only; split_ifs <;> rfl

@[simp] theorem pegEnter_raw (s : Stage) (g : Peg) : (pegEnter c P s g).raw = g.raw := by
  unfold pegEnter; dsimp only; split_ifs <;> rfl

@[simp] theorem pegEnter_target (s : Stage) (g : Peg) : (pegEnter c P s g).target = pegTarget c P s := by
  unfold pegEnter; dsimp only; split_ifs <;> rfl

theorem pegEnter_rising (s : Stage) (g : Peg) :
    (pegEnter c P s g).rising = (decide (s ≠ .sustain) && ramps g.raw (pegTarget c P s)) := by
  unfold pegEnter
  by_cases hs : s = .sustain <;> simp [hs]

theorem pegEnter_step (s : Stage) (g : Peg) :
    (pegEnter c P s g).step =
      if s = .sustain then 0
      else c.mul (c.pegRateStep (patchPegRate P s)) (if ramps g.raw (pegTarget c P s) then 1 else c.pegFallScale) := by
  unfold pegEnter
  by_cases hs : s = .sustain <;> simp [hs]

/-! Soundness. -/

theorem aegEnter_step_nonneg (s : Stage) (g : Aeg) : 0 ≤ (aegEnter c P i s g).step := by
  rw [aegEnter_step]
  split_ifs
  · exact le_refl 0
  · exact c.mul_nonneg (c.valid.egRateStep_nonneg _) c.valid.egRiseScale_pos.le
  · exact c.mul_nonneg (c.valid.egRateStep_nonneg _) c.valid.egFallScale_pos.le

theorem pegEnter_step_nonneg (s : Stage) (g : Peg) : 0 ≤ (pegEnter c P s g).step := by
  rw [pegEnter_step]
  split_ifs
  · exact le_refl 0
  · exact c.mul_nonneg (c.valid.pegRateStep_nonneg _) zero_le_one
  · exact c.mul_nonneg (c.valid.pegRateStep_nonneg _) c.valid.pegFallScale_pos.le

/-- Entering any stage but IDLE leaves a sound AEG, whatever it was (R154). -/
theorem aegEnter_sound {s : Stage} (hs : s ≠ .idle) (g : Aeg) : AegSound (aegEnter c P i s g) := by
  refine ⟨⟨aegEnter_step_nonneg c P i s g, ?_, ?_, ?_⟩, fun h => absurd ((aegEnter_stage c P i s g).symm.trans h) hs⟩
  · rw [aegEnter_stage, aegEnter_rising, aegEnter_step]
    cases s <;> simp_all [stageHolds]
  · rw [aegEnter_rising, aegEnter_raw, aegEnter_target]
    intro _ h
    simp [ramps] at h
    exact h.2
  · rw [aegEnter_stage, aegEnter_rising, aegEnter_raw, aegEnter_target]
    intro hh h
    cases s <;> simp_all [stageHolds, ramps]

/-- Entering any stage but IDLE leaves a sound PEG, whatever it was (R183). -/
theorem pegEnter_sound {s : Stage} (hs : s ≠ .idle) (g : Peg) : PegSound (pegEnter c P s g) := by
  refine ⟨⟨pegEnter_step_nonneg c P s g, ?_, ?_, ?_⟩, fun h => absurd ((pegEnter_stage c P s g).symm.trans h) hs⟩
  · rw [pegEnter_stage, pegEnter_rising, pegEnter_step]
    cases s <;> simp_all [stageHolds]
  · rw [pegEnter_rising, pegEnter_raw, pegEnter_target]
    intro _ h
    simp [ramps] at h
    exact h.2
  · rw [pegEnter_stage, pegEnter_rising, pegEnter_raw, pegEnter_target]
    intro hh h
    cases s <;> simp_all [stageHolds, ramps]

theorem aegReset_sound (g : Aeg) : AegSound (aegReset c P i g) := by
  refine ⟨⟨le_refl 0, ?_, ?_, ?_⟩, ?_⟩ <;> simp [aegReset, stageHolds]

theorem aegToIdle_sound (g : Aeg) : AegSound (aegToIdle c P i g) := by
  refine ⟨⟨le_refl 0, ?_, ?_, ?_⟩, ?_⟩ <;> simp [aegToIdle, stageHolds]

theorem pegReset_sound (g : Peg) : PegSound (pegReset c P g) := by
  refine ⟨⟨le_refl 0, ?_, ?_, ?_⟩, ?_⟩ <;> simp [pegReset, stageHolds]

/-- Everything an AEG tick can do (R155): hold; ramp on without arriving; or arrive, the level clamped to the target, and take the one transition. -/
theorem aegTick_cases (g : Aeg) :
    (stageHolds g.stage = true ∧ aegTick c P i g = g) ∨
    (stageHolds g.stage = false ∧ ∃ raw, raw = (if g.rising then c.add g.raw g.step else c.sub g.raw g.step) ∧
      ((rampDone g.rising raw g.target = false ∧ aegTick c P i g = { g with raw := raw }) ∨
       (rampDone g.rising raw g.target = true ∧ aegTick c P i g = aegNextStage c P i { g with raw := g.target }))) := by
  unfold aegTick
  by_cases hs : stageHolds g.stage = true
  · exact .inl ⟨hs, if_pos hs⟩
  · refine .inr ⟨by simpa using hs, _, rfl, ?_⟩
    rw [if_neg hs]
    dsimp only
    split_ifs with h1 h2 h2
    · exact .inr ⟨h2, rfl⟩
    · exact .inl ⟨by simpa using h2, rfl⟩
    · exact .inr ⟨h2, rfl⟩
    · exact .inl ⟨by simpa using h2, rfl⟩

/-- Everything a PEG tick can do (R184). -/
theorem pegTick_cases (g : Peg) :
    (stageHolds g.stage = true ∧ pegTick c P g = g) ∨
    (stageHolds g.stage = false ∧ ∃ raw, raw = (if g.rising then c.add g.raw g.step else c.sub g.raw g.step) ∧
      ((rampDone g.rising raw g.target = false ∧ pegTick c P g = { g with raw := raw }) ∨
       (rampDone g.rising raw g.target = true ∧ pegTick c P g = pegNextStage c P { g with raw := g.target }))) := by
  unfold pegTick
  by_cases hs : stageHolds g.stage = true
  · exact .inl ⟨hs, if_pos hs⟩
  · refine .inr ⟨by simpa using hs, _, rfl, ?_⟩
    rw [if_neg hs]
    dsimp only
    split_ifs with h1 h2 h2
    · exact .inr ⟨h2, rfl⟩
    · exact .inl ⟨by simpa using h2, rfl⟩
    · exact .inr ⟨h2, rfl⟩
    · exact .inl ⟨by simpa using h2, rfl⟩

theorem rampSound_of_not_done {stage : Stage} {rising : Bool} {raw target step : Num} (h0 : 0 ≤ step)
    (hs : stageHolds stage = false) (hd : rampDone rising raw target = false) : RampSound stage rising raw target step := by
  refine ⟨h0, fun h => by simp [hs] at h, fun _ hr => ?_, fun _ hr => ?_⟩ <;> subst hr <;> simp [rampDone] at hd
  · exact hd
  · exact hd.le

/-- A tick keeps a sound AEG sound (R34 (4), R155, R160 (4)). -/
theorem aegTick_sound {g : Aeg} (h : AegSound g) : AegSound (aegTick c P i g) := by
  rcases aegTick_cases c P i g with ⟨-, e⟩ | ⟨hs, raw, -, ⟨hd, e⟩ | ⟨-, e⟩⟩
  · rw [e]; exact h
  · rw [e]
    refine ⟨rampSound_of_not_done h.1.1 hs hd, fun hi => ?_⟩
    replace hi : g.stage = .idle := hi
    simp [hi, stageHolds] at hs
  · rw [e]
    cases hst : g.stage <;> simp [hst, stageHolds] at hs <;> simp only [aegNextStage]
    · exact aegEnter_sound c P i (by decide) _
    · exact aegEnter_sound c P i (by decide) _
    · exact aegEnter_sound c P i (by decide) _
    · exact aegToIdle_sound c P i _

/-- A tick keeps a sound PEG sound (R184, R189 (5)). -/
theorem pegTick_sound {g : Peg} (h : PegSound g) : PegSound (pegTick c P g) := by
  rcases pegTick_cases c P g with ⟨-, e⟩ | ⟨hs, raw, -, ⟨hd, e⟩ | ⟨-, e⟩⟩
  · rw [e]; exact h
  · rw [e]
    refine ⟨rampSound_of_not_done h.1.1 hs hd, fun hi => ?_⟩
    replace hi : g.stage = .idle := hi
    simp [hi, stageHolds] at hs
  · rw [e]
    cases hst : g.stage <;> simp [hst, stageHolds] at hs <;> simp only [pegNextStage]
    · exact pegEnter_sound c P (by decide) _
    · exact pegEnter_sound c P (by decide) _
    · exact pegEnter_sound c P (by decide) _
    · refine ⟨⟨le_refl 0, ?_, ?_, ?_⟩, ?_⟩ <;> simp [pegToIdle, stageHolds]

theorem aegGateOn_sound (k : GateKind) (g : Aeg) : AegSound (aegGateOn c P i k g) := by
  cases k <;> exact aegEnter_sound c P i (by decide) _

theorem pegGateOn_sound (k : GateKind) (g : Peg) : PegSound (pegGateOn c P k g) := by
  cases k <;> exact pegEnter_sound c P (by decide) _

theorem aegGateOff_sound {g : Aeg} (h : AegSound g) : AegSound (aegGateOff c P i g) := by
  unfold aegGateOff
  split_ifs
  · exact aegEnter_sound c P i (by decide) _
  · exact h

theorem pegGateOff_sound {g : Peg} (h : PegSound g) : PegSound (pegGateOff c P g) := by
  unfold pegGateOff
  split_ifs
  · exact pegEnter_sound c P (by decide) _
  · exact h

/-- A gate-on enters ATTACK whatever the stage was (R150, R157). -/
@[simp] theorem aegGateOn_stage (k : GateKind) (g : Aeg) : (aegGateOn c P i k g).stage = .attack := by
  cases k <;> simp [aegGateOn]

/-- A HARD gate-on starts from level 0 (R157). -/
@[simp] theorem aegGateOn_hard_raw (g : Aeg) : (aegGateOn c P i .hard g).raw = 0 := by
  simp [aegGateOn]

@[simp] theorem pegGateOn_stage (k : GateKind) (g : Peg) : (pegGateOn c P k g).stage = .attack := by
  cases k <;> simp [pegGateOn]

/-- A gate-off leaves RELEASE or IDLE (R150, R158). -/
theorem aegGateOff_stage (g : Aeg) :
    (aegGateOff c P i g).stage = if g.stage = .idle then .idle else .release := by
  unfold aegGateOff stageGated
  cases hst : g.stage <;> simp [hst]

/-! R22's types. -/

/-- The elements R22 types as at least 0. -/
def Aeg.Nonneg (g : Aeg) : Prop := 0 ≤ g.raw ∧ 0 ≤ g.target ∧ 0 ≤ g.step

theorem aegEnter_nonneg (s : Stage) {g : Aeg} (h : 0 ≤ g.raw) : (aegEnter c P i s g).Nonneg :=
  ⟨by rw [aegEnter_raw]; exact h, by rw [aegEnter_target]; exact c.valid.egLevel_nonneg _, aegEnter_step_nonneg c P i s g⟩

/-- Every AEG the rules bring about has R22's types, where `EG_GAIN_INV` keeps that of `raw` (log entry 9). -/
theorem AegReached.nonneg {c : Cfg} (hc : c.GainInvKeepsRawType) {g : Aeg} (h : AegReached c g) : g.Nonneg := by
  have expr : ∀ {g : Aeg}, AegReached c g → 0 ≤ g.raw → 0 ≤ (aegReexpress c g).raw := by
    intro g hg h0
    unfold aegReexpress
    split_ifs with hr
    · exact hc g hg hr.1 hr.2
    · exact h0
  induction h with
  | reset P i g => exact ⟨le_refl 0, c.valid.egLevel_nonneg _, le_refl 0⟩
  | @gateOn P i kind g hg ih =>
    cases kind
    · exact aegEnter_nonneg c P i .attack (g := { g with raw := 0, rising := false }) (le_refl 0)
    · exact aegEnter_nonneg c P i .attack (expr hg ih.1)
  | @gateOff P i g hg ih =>
    unfold aegGateOff
    split_ifs
    · exact aegEnter_nonneg c P i .release (expr hg ih.1)
    · exact ih
  | @tick P i g _ ih =>
    rcases aegTick_cases c P i g with ⟨-, e⟩ | ⟨-, raw, hraw, ⟨hd, e⟩ | ⟨-, e⟩⟩ <;> rw [e]
    · exact ih
    · refine ⟨?_, ih.2⟩
      cases hr : g.rising <;> rw [hr] at hraw hd
      · exact ih.2.1.trans (not_le.mp (of_decide_eq_false hd)).le
      · rw [show raw = c.add g.raw g.step from hraw]
        exact c.add_nonneg ih.1 ih.2.2
    · unfold aegNextStage
      split
      · exact aegEnter_nonneg c P i _ ih.2.1
      · exact aegEnter_nonneg c P i _ ih.2.1
      · exact aegEnter_nonneg c P i _ ih.2.1
      · exact ⟨le_refl 0, c.valid.egLevel_nonneg _, le_refl 0⟩
      · exact ⟨ih.2.1, ih.2⟩
      · exact ⟨ih.2.1, ih.2⟩

end

end Sys2Proof.Machine
end

