-- ==== Sys2Proof/Laws/Memory.lean ====
section
/-! SUPPORT. Laws of the patch memories (R11, R29): a read after a write, the frame of a write, and that a write keeps the canonical form. -/

namespace Sys2Proof.Machine

theorem memCanonicalFrom_cons {lo k : Nat} {b : Byte} {rest : Memory} :
    memCanonicalFrom lo ((k, b) :: rest) = true ↔
      lo ≤ k ∧ k < patchSize ∧ b ≠ 0 ∧ memCanonicalFrom (k + 1) rest = true := by
  simp only [memCanonicalFrom, Bool.and_eq_true, decide_eq_true_eq, and_assoc]

/-- A canonical memory lists nothing below its start. -/
theorem memRead_of_lt {m : Memory} {lo a : Nat} (h : memCanonicalFrom lo m = true) (ha : a < lo) : memRead m a = 0 := by
  induction m generalizing lo with
  | nil => rfl
  | cons kb rest ih =>
    obtain ⟨k, b⟩ := kb
    rw [memCanonicalFrom_cons] at h
    obtain ⟨hk, -, -, hrest⟩ := h
    simp only [memRead]
    rw [if_neg (by omega)]
    exact ih hrest (by omega)

theorem memRead_memWrite_same_from {m : Memory} {lo : Nat} (a : Nat) (v : Byte) (h : memCanonicalFrom lo m = true) :
    memRead (memWrite m a v) a = v := by
  induction m generalizing lo with
  | nil =>
    simp only [memWrite]
    split_ifs with hv <;> simp [memRead, hv]
  | cons kb rest ih =>
    obtain ⟨k, b⟩ := kb
    rw [memCanonicalFrom_cons] at h
    obtain ⟨hk, hk2, hb, hrest⟩ := h
    simp only [memWrite]
    split_ifs with h1 hv h2 hv
    · have : memCanonicalFrom k ((k, b) :: rest) = true := memCanonicalFrom_cons.mpr ⟨le_refl k, hk2, hb, hrest⟩
      rw [memRead_of_lt this h1, hv]
    · simp [memRead]
    · subst h2
      rw [memRead_of_lt hrest (by omega), hv]
    · simp [memRead]
    · simp only [memRead]
      rw [if_neg (fun e => h2 e.symm)]
      exact ih hrest

/-- A read after a write to the same address gives the byte written (R11, R306, R307). -/
theorem memRead_memWrite_same {m : Memory} (h : Memory.wf m = true) (a : Nat) (v : Byte) :
    memRead (memWrite m a v) a = v :=
  memRead_memWrite_same_from a v h

/-- A write leaves every other address as it was (R306, R307: one byte). -/
theorem memRead_memWrite_other (m : Memory) {a a' : Nat} (v : Byte) (h : a' ≠ a) :
    memRead (memWrite m a v) a' = memRead m a' := by
  induction m with
  | nil =>
    simp only [memWrite]
    split_ifs
    · rfl
    · simp [memRead, Ne.symm h]
  | cons kb rest ih =>
    obtain ⟨k, b⟩ := kb
    simp only [memWrite]
    split_ifs with h1 hv h2 hv
    · rfl
    · simp [memRead, Ne.symm h]
    · subst h2
      simp [memRead, Ne.symm h]
    · subst h2
      simp [memRead, Ne.symm h]
    · simp only [memRead, ih]

theorem memCanonicalFrom_mono {m : Memory} {lo lo' : Nat} (h : memCanonicalFrom lo m = true) (hl : lo' ≤ lo) :
    memCanonicalFrom lo' m = true := by
  cases m with
  | nil => rfl
  | cons kb rest =>
    rw [memCanonicalFrom_cons] at h ⊢
    obtain ⟨hk, hk2, hb, hrest⟩ := h
    exact ⟨by omega, hk2, hb, hrest⟩

theorem memWrite_canonicalFrom {m : Memory} {lo a : Nat} (v : Byte) (h : memCanonicalFrom lo m = true) (hlo : lo ≤ a)
    (ha : a < patchSize) : memCanonicalFrom lo (memWrite m a v) = true := by
  induction m generalizing lo with
  | nil =>
    simp only [memWrite]
    split_ifs with hv
    · rfl
    · exact memCanonicalFrom_cons.mpr ⟨hlo, ha, hv, rfl⟩
  | cons kb rest ih =>
    obtain ⟨k, b⟩ := kb
    have hall := h
    rw [memCanonicalFrom_cons] at h
    obtain ⟨hk, hk2, hb, hrest⟩ := h
    simp only [memWrite]
    split_ifs with h1 hv h2 hv
    · exact hall
    · exact memCanonicalFrom_cons.mpr ⟨hlo, ha, hv, memCanonicalFrom_cons.mpr ⟨h1, hk2, hb, hrest⟩⟩
    · exact memCanonicalFrom_mono hrest (by omega)
    · subst h2
      exact memCanonicalFrom_cons.mpr ⟨hk, hk2, hv, hrest⟩
    · exact memCanonicalFrom_cons.mpr ⟨hk, hk2, hb, ih hrest (by omega)⟩

/-- A write inside 0..149 keeps the canonical form. -/
theorem memWrite_wf {m : Memory} (h : Memory.wf m = true) {a : Nat} (ha : a < patchSize) (v : Byte) :
    Memory.wf (memWrite m a v) = true :=
  memWrite_canonicalFrom v h (Nat.zero_le a) ha

/-- Two canonical memories that read alike are the same data. -/
theorem memory_ext_from {m m' : Memory} {lo : Nat} (h : memCanonicalFrom lo m = true) (h' : memCanonicalFrom lo m' = true)
    (hr : ∀ a, memRead m a = memRead m' a) : m = m' := by
  induction m generalizing lo m' with
  | nil =>
    cases m' with
    | nil => rfl
    | cons kb rest =>
      obtain ⟨k, b⟩ := kb
      rw [memCanonicalFrom_cons] at h'
      have := hr k
      simp only [memRead, if_pos] at this
      exact absurd this.symm h'.2.2.1
  | cons kb rest ih =>
    obtain ⟨k, b⟩ := kb
    have hall := h
    rw [memCanonicalFrom_cons] at h
    obtain ⟨hk, hk2, hb, hrest⟩ := h
    cases m' with
    | nil =>
      have := hr k
      simp only [memRead, if_pos] at this
      exact absurd this hb
    | cons kb' rest' =>
      obtain ⟨k', b'⟩ := kb'
      have hall' := h'
      rw [memCanonicalFrom_cons] at h'
      obtain ⟨hk', hk2', hb', hrest'⟩ := h'
      have hkk : k = k' := by
        rcases Nat.lt_trichotomy k k' with hlt | heq | hgt
        · have h1 := hr k
          simp only [memRead, if_pos] at h1
          rw [if_neg (by omega), memRead_of_lt hrest' (by omega)] at h1
          exact absurd h1 hb
        · exact heq
        · have h1 := hr k'
          simp only [memRead, if_pos] at h1
          rw [if_neg (by omega), memRead_of_lt hrest (by omega)] at h1
          exact absurd h1.symm hb'
      subst hkk
      have hbb : b = b' := by
        have := hr k
        simpa only [memRead, if_pos] using this
      subst hbb
      have : rest = rest' := by
        refine ih hrest hrest' (fun a => ?_)
        by_cases e : k = a
        · subst e
          rw [memRead_of_lt hrest (by omega), memRead_of_lt hrest' (by omega)]
        · have := hr a
          simpa only [memRead, if_neg e] using this
      rw [this]

/-- Equal memories are equal data: canonical memories that read alike are equal. -/
theorem memory_ext {m m' : Memory} (h : Memory.wf m = true) (h' : Memory.wf m' = true)
    (hr : ∀ a, memRead m a = memRead m' a) : m = m' :=
  memory_ext_from h h' hr

end Sys2Proof.Machine
end

