-- ==== Sys2Proof/Laws/Lfo.lean ====
section
/-! SUPPORT. What the LFO operations can do (43_lfo.md), and that each keeps the LFO sound. -/

namespace Sys2Proof.Machine

/-- A word equal to its own shift by a nonzero amount is 0. -/
theorem eq_zero_of_eq_shiftLeft {x : Word} {k : Nat} (hk : 0 < k) (h : x = x <<< k) : x = 0 := by
  have hn : ∀ n : Nat, x = x <<< (k * n) := by
    intro n
    induction n with
    | zero => simp
    | succ n ih => rw [Nat.mul_succ, BitVec.shiftLeft_add, ← ih]; exact h
  rw [hn 32]
  exact BitVec.shiftLeft_eq_zero (by omega)

theorem eq_zero_of_eq_ushiftRight {x : Word} {k : Nat} (hk : 0 < k) (h : x = x >>> k) : x = 0 := by
  have hn : ∀ n : Nat, x = x >>> (k * n) := by
    intro n
    induction n with
    | zero => simp
    | succ n ih => rw [Nat.mul_succ, BitVec.shiftRight_add, ← ih]; exact h
  rw [hn 32]
  exact BitVec.ushiftRight_eq_zero (by omega)

/-- "A nonzero x never becomes 0" (R205). -/
theorem xorshift32_ne_zero {x : Word} (h : x ≠ 0) : xorshift32 x ≠ 0 := by
  intro h0
  have h1 := eq_zero_of_eq_shiftLeft (by decide) (BitVec.xor_eq_zero_iff.mp h0)
  have h2 := eq_zero_of_eq_ushiftRight (by decide) (BitVec.xor_eq_zero_iff.mp h1)
  exact h (eq_zero_of_eq_shiftLeft (by decide) (BitVec.xor_eq_zero_iff.mp h2))

section

variable (c : Cfg)

@[simp] theorem lfoDraw_rng (l : Lfo) : (lfoDraw c l).rng = xorshift32 l.rng := rfl
@[simp] theorem lfoDraw_sh (l : Lfo) : (lfoDraw c l).sh = c.randMap (xorshift32 l.rng) := rfl
@[simp] theorem lfoDraw_p (l : Lfo) : (lfoDraw c l).p = l.p := rfl
@[simp] theorem lfoDraw_e (l : Lfo) : (lfoDraw c l).e = l.e := rfl
@[simp] theorem lfoReset_rng (l : Lfo) : (lfoReset l).rng = l.rng := rfl
@[simp] theorem lfoSync_rng (l : Lfo) : (lfoSync c l).rng = xorshift32 l.rng := rfl

/-- A draw keeps a sound LFO sound (R204, R205, R206). -/
theorem lfoDraw_sound {l : Lfo} (h : LfoSound c l) : LfoSound c (lfoDraw c l) :=
  ⟨h.1, xorshift32_ne_zero h.2.1, c.valid.randMap_range _, h.2.2.2⟩

theorem lfoReset_sound {l : Lfo} (h : l.rng ≠ 0) : LfoSound c (lfoReset l) := by
  refine ⟨⟨le_refl 0, zero_lt_one⟩, h, ?_, 0, Nat.zero_le _⟩
  constructor <;> simp [lfoReset]

theorem lfoSync_sound {l : Lfo} (h : l.rng ≠ 0) : LfoSound c (lfoSync c l) :=
  ⟨⟨le_refl 0, zero_lt_one⟩, xorshift32_ne_zero h, c.valid.randMap_range _, 0, Nat.zero_le _⟩

/-- Everything the redraw at a block start can do to the random state: nothing or one draw (R209, R210, R213 (6)); phase and count stand. -/
theorem lfoRedraw_cases (w : LfoWave) (l : Lfo) :
    ((lfoRedraw c w l).rng = l.rng ∧ (lfoRedraw c w l).sh = l.sh ∨
      (lfoRedraw c w l).rng = xorshift32 l.rng ∧ (lfoRedraw c w l).sh = c.randMap (xorshift32 l.rng)) ∧
    (lfoRedraw c w l).p = l.p ∧ (lfoRedraw c w l).e = l.e := by
  unfold lfoRedraw lfoRedrawSh8
  cases w <;> dsimp only <;> (try split_ifs) <;> simp

/-- A continuous waveform draws nothing (R209, R210). -/
theorem lfoRedraw_continuous {w : LfoWave} (h : waveContinuous w = true) (l : Lfo) :
    lfoRedraw c w l = { l with wrap := false } := by
  cases w <;> first | rfl | simp [waveContinuous] at h

variable (P : Memory) (n : Nat) (l : Lfo)

@[simp] theorem lfoBlockUpdate_rng : (lfoBlockUpdate c P n l).rng = (lfoRedraw c (patchLfoWave P) l).rng := rfl
@[simp] theorem lfoBlockUpdate_sh : (lfoBlockUpdate c P n l).sh = (lfoRedraw c (patchLfoWave P) l).sh := rfl

theorem lfoBlockUpdate_e : (lfoBlockUpdate c P n l).e = min (l.e + n) (lfoDelay c P) := by
  show min ((lfoRedraw c (patchLfoWave P) l).e + n) (lfoDelay c P) = _
  rw [(lfoRedraw_cases c _ l).2.2]

theorem lfoBlockUpdate_p :
    (lfoBlockUpdate c P n l).p = c.frac (c.add l.p (c.mul (c.ofNat n) (lfoDphi c P))) := by
  show c.frac (c.add (lfoRedraw c (patchLfoWave P) l).p _) = _
  rw [(lfoRedraw_cases c _ l).2.1]

/-- A block update keeps a sound LFO sound (R213 (1), (2)). -/
theorem lfoBlockUpdate_sound {l : Lfo} (h : LfoSound c l) : LfoSound c (lfoBlockUpdate c P n l) := by
  refine ⟨?_, ?_, ?_, patchLfoDelay P, ?_⟩
  · rw [lfoBlockUpdate_p]; exact c.frac_range _
  · rw [lfoBlockUpdate_rng]
    rcases (lfoRedraw_cases c (patchLfoWave P) l).1 with ⟨e, -⟩ | ⟨e, -⟩ <;> rw [e]
    · exact h.2.1
    · exact xorshift32_ne_zero h.2.1
  · rw [lfoBlockUpdate_sh]
    rcases (lfoRedraw_cases c (patchLfoWave P) l).1 with ⟨-, e⟩ | ⟨-, e⟩ <;> rw [e]
    · exact h.2.2.1
    · exact c.valid.randMap_range _
  · rw [lfoBlockUpdate_e]; exact Nat.min_le_right _ _

/-- The fade gain lies in [0,1] (R211, R213 (3)). -/
theorem fade_range (e D : Nat) : 0 ≤ fade c e D ∧ fade c e D ≤ 1 := by
  unfold fade
  split_ifs
  · exact ⟨zero_le_one, le_refl 1⟩
  · exact ⟨le_min zero_le_one (c.div_nonneg (c.ofNat_nonneg e) (c.ofNat_nonneg D)), min_le_left _ _⟩

end

end Sys2Proof.Machine
end

