-- ==== Sys2Proof/Laws/Voices.lean ====
section
/-! SUPPORT. What the operator and voice operations can do (40_operator.md, 44_voice.md), and that each keeps its voice sound. -/

namespace Sys2Proof.Machine

section

variable (c : Cfg) (P : Memory)

/-! Operators. -/

theorem operInc_nonneg (i : Fin 4) {hz : Num} (h : 0 ≤ hz) : 0 ≤ operInc c P i hz :=
  c.div_nonneg (c.valid.opFreq_nonneg _ _ _ _ _ h) c.valid.sampleRate_pos.le

/-- The key-scaling factor lies in [0,2] whatever `KS_FACTOR` returns (R124). -/
theorem operKeyScale_range (i : Fin 4) (t : Int) : 0 ≤ operKeyScale c P i t ∧ operKeyScale c P i t ≤ 2 :=
  clamp_range (by norm_num) _

/-- A disabled operator computes 0 and changes nothing (R132). -/
theorem operCompute_disabled (i : Fin 4) (inp pmS : Num) {o : Operator} (h : o.enabled = false) :
    operCompute c P i inp pmS o = (0, o) := if_pos h

/-- What an enabled operator's compute writes (R130). -/
theorem operCompute_enabled (i : Fin 4) (inp pmS : Num) {o : Operator} (h : o.enabled = true) :
    (operCompute c P i inp pmS o).2.phase = c.frac (c.add o.phase (c.mul o.inc (c.semiRatio pmS))) ∧
    (operCompute c P i inp pmS o).2.aeg = aegTick c P i o.aeg ∧
    (operCompute c P i inp pmS o).2.inc = o.inc ∧
    (operCompute c P i inp pmS o).2.outGain = o.outGain ∧
    (operCompute c P i inp pmS o).2.fbScale = o.fbScale ∧
    (operCompute c P i inp pmS o).2.enabled = o.enabled := by
  unfold operCompute
  rw [if_neg (by simp [h])]
  exact ⟨rfl, rfl, rfl, rfl, rfl, rfl⟩

theorem operReset_sound (i : Fin 4) {o : Operator} (h : 0 ≤ o.inc) : OperSound c (operReset c P i o) :=
  ⟨⟨le_refl 0, zero_lt_one⟩, h, aegReset_sound c P i o.aeg, .reset P i o.aeg⟩

theorem operSetParams_sound (i : Fin 4) (t : Int) (vel : U7) {hz : Num} (hh : 0 ≤ hz) {o : Operator} (h : OperSound c o) :
    OperSound c (operSetParams c P i t vel hz o) :=
  ⟨h.1, operInc_nonneg c P i hh, h.2.2⟩

theorem operGateOn_sound (i : Fin 4) (k : GateKind) {o : Operator} (h : OperSound c o) : OperSound c (operGateOn c P i k o) :=
  ⟨h.1, h.2.1, aegGateOn_sound c P i k o.aeg, h.2.2.2.gateOn P i k⟩

theorem operGateOff_sound (i : Fin 4) {o : Operator} (h : OperSound c o) : OperSound c (operGateOff c P i o) :=
  ⟨h.1, h.2.1, aegGateOff_sound c P i h.2.2.1, h.2.2.2.gateOff P i⟩

theorem operCompute_sound (i : Fin 4) (inp pmS : Num) {o : Operator} (h : OperSound c o) :
    OperSound c (operCompute c P i inp pmS o).2 := by
  by_cases he : o.enabled = true
  · obtain ⟨h1, h2, h3, -⟩ := operCompute_enabled c P i inp pmS he
    refine ⟨?_, ?_, ?_⟩
    · rw [h1]; exact c.frac_range _
    · rw [h3]; exact h.2.1
    · rw [h2]; exact ⟨aegTick_sound c P i h.2.2.1, h.2.2.2.tick P i⟩
  · rw [operCompute_disabled c P i inp pmS (by simpa using he)]; exact h

/-! Activity. -/

/-- A voice is active exactly when an enabled operator's AEG is out of IDLE (R231). -/
theorem isActive_iff (v : Voice) :
    isActive v = true ↔ ∃ i, (v.op.get i).enabled = true ∧ (v.op.get i).aeg.stage ≠ .idle := by
  simp [isActive, Quad.any_eq_true, opSounding]

/-- A voice just reset is inactive (R232). -/
theorem isActive_voiceReset (v : Voice) : isActive (voiceReset c P v) = false := by
  rw [← Bool.not_eq_true, isActive_iff]
  rintro ⟨i, -, h⟩
  apply h
  simp [voiceReset, aegReset]

/-! The voice operations. -/

theorem voiceReset_sound {v : Voice} (hinc : ∀ i, 0 ≤ (v.op.get i).inc) (hr : v.lfo.rng ≠ 0) :
    VoiceSound c (voiceReset c P v) := by
  refine ⟨fun i => ?_, pegReset_sound c P v.peg, lfoReset_sound c hr, ⟨zero_le_one, le_refl 1⟩, fun i => ?_, rfl, fun h => rfl⟩
  · simp only [voiceReset, Quad.get_mapIdx]; exact operReset_sound c P i (hinc i)
  · simp [voiceReset]

theorem noteOnCommon_sound (n vel : U7) {v : Voice} (h : VoiceSound c v) : VoiceSound c (noteOnCommon P n vel v) :=
  ⟨h.1, h.2.1, h.2.2.1, h.2.2.2.1, h.2.2.2.2.1, rfl, fun e => by simp [noteOnCommon] at e⟩

theorem voiceRetrigger_sound (tgt : Int) (vel : U7) {v : Voice} (h : VoiceSound c v) :
    VoiceSound c (voiceRetrigger c P tgt vel v) := by
  refine ⟨fun i => ?_, pegGateOn_sound c P .hard v.peg, lfoSync_sound c h.2.2.1.2.1, ⟨zero_le_one, le_refl 1⟩,
    h.2.2.2.2.1, h.2.2.2.2.2.1, h.2.2.2.2.2.2⟩
  simp only [voiceRetrigger, Quad.get_mapIdx]
  exact operGateOn_sound c P i _ (operSetParams_sound c P i _ _ (c.valid.noteHz_pos _).le (operReset_sound c P i (h.1 i).2.1))

theorem voiceGlide_sound (porta : Bool) (cur : Num) (tgt : Int) (vel : U7) {v : Voice} (h : VoiceSound c v) :
    VoiceSound c (voiceGlide c P porta cur tgt vel v) := by
  refine ⟨fun i => ?_, h.2.1, h.2.2.1, ?_, h.2.2.2.2.1, h.2.2.2.2.2.1, h.2.2.2.2.2.2⟩
  · simp only [voiceGlide, Quad.get_mapIdx]
    exact operSetParams_sound c P i _ _ (c.valid.noteHz_pos _).le (h.1 i)
  · cases porta <;> simp [voiceGlide]

theorem voiceRegate_sound (porta : Bool) (cur : Num) (tgt : Int) (vel : U7) {v : Voice} (h : VoiceSound c v) :
    VoiceSound c (voiceRegate c P porta cur tgt vel v) := by
  have hg := voiceGlide_sound c P porta cur tgt vel h
  refine ⟨fun i => ?_, pegGateOn_sound c P .soft _, hg.2.2.1, hg.2.2.2.1, hg.2.2.2.2.1, hg.2.2.2.2.2.1, hg.2.2.2.2.2.2⟩
  simp only [voiceRegate, Quad.get_mapIdx]
  exact operGateOn_sound c P i _ (hg.1 i)

/-- Everything a note-on can do to a voice (R234): one of the three actions on the voice with the common writes. -/
theorem voiceNoteOn_cases (ctl : Controls) (n vel : U7) (v : Voice) :
    (noteAction (patchMode P) v.gate (portaInForce ctl && isActive v) = .retrigger ∧
      voiceNoteOn c P ctl n vel v = voiceRetrigger c P (noteTarget c P n) vel (noteOnCommon P n vel v)) ∨
    (noteAction (patchMode P) v.gate (portaInForce ctl && isActive v) = .glide ∧
      voiceNoteOn c P ctl n vel v =
        voiceGlide c P (portaInForce ctl) (currentNote c v) (noteTarget c P n) vel (noteOnCommon P n vel v)) ∨
    (noteAction (patchMode P) v.gate (portaInForce ctl && isActive v) = .regate ∧
      voiceNoteOn c P ctl n vel v =
        voiceRegate c P (portaInForce ctl) (currentNote c v) (noteTarget c P n) vel (noteOnCommon P n vel v)) := by
  unfold voiceNoteOn
  dsimp only
  cases noteAction (patchMode P) v.gate (portaInForce ctl && isActive v)
  · exact .inl ⟨rfl, rfl⟩
  · exact .inr (.inl ⟨rfl, rfl⟩)
  · exact .inr (.inr ⟨rfl, rfl⟩)

theorem voiceNoteOn_sound (ctl : Controls) (n vel : U7) {v : Voice} (h : VoiceSound c v) :
    VoiceSound c (voiceNoteOn c P ctl n vel v) := by
  have hc := noteOnCommon_sound c P n vel h
  rcases voiceNoteOn_cases c P ctl n vel v with ⟨-, e⟩ | ⟨-, e⟩ | ⟨-, e⟩ <;> rw [e]
  · exact voiceRetrigger_sound c P _ vel hc
  · exact voiceGlide_sound c P _ _ _ vel hc
  · exact voiceRegate_sound c P _ _ _ vel hc

/-- A note-on does not look at the just-allocated mark, and clears it (R235). -/
theorem voiceNoteOn_mark (ctl : Controls) (n vel : U7) (v : Voice) (b : Bool) :
    voiceNoteOn c P ctl n vel { v with justAllocated := b } = voiceNoteOn c P ctl n vel v := rfl

/-- The common writes stand after any action (R235). -/
theorem voiceNoteOn_common (ctl : Controls) (n vel : U7) (v : Voice) :
    (voiceNoteOn c P ctl n vel v).note = n ∧ (voiceNoteOn c P ctl n vel v).velocity = vel ∧
    (voiceNoteOn c P ctl n vel v).gate = true ∧ (voiceNoteOn c P ctl n vel v).sustained = false ∧
    (voiceNoteOn c P ctl n vel v).justAllocated = false ∧ (voiceNoteOn c P ctl n vel v).algId = patchAlg P := by
  rcases voiceNoteOn_cases c P ctl n vel v with ⟨-, e⟩ | ⟨-, e⟩ | ⟨-, e⟩ <;> rw [e] <;> exact ⟨rfl, rfl, rfl, rfl, rfl, rfl⟩

theorem voiceRelease_sound {v : Voice} (h : VoiceSound c v) : VoiceSound c (voiceRelease c P v) := by
  refine ⟨fun i => ?_, pegGateOff_sound c P h.2.1, h.2.2.1, h.2.2.2.1, h.2.2.2.2.1, h.2.2.2.2.2.1, fun e => ?_⟩
  · simp only [voiceRelease, Quad.get_mapIdx]; exact operGateOff_sound c P i (h.1 i)
  · simp [voiceRelease] at e

theorem voiceNoteOff_sound (ctl : Controls) {v : Voice} (h : VoiceSound c v) : VoiceSound c (voiceNoteOff c P ctl v) := by
  have h0 : VoiceSound c { v with gate := false } :=
    ⟨h.1, h.2.1, h.2.2.1, h.2.2.2.1, h.2.2.2.2.1, h.2.2.2.2.2.1, fun _ => rfl⟩
  unfold voiceNoteOff
  dsimp only
  split_ifs
  · exact ⟨h.1, h.2.1, h.2.2.1, h.2.2.2.1, h.2.2.2.2.1, h.2.2.2.2.2.1, fun _ => rfl⟩
  · exact voiceRelease_sound c P h0

/-- The portamento position stays in [0,1] (R34, R242). -/
theorem portaAdvance_range (ctl : Controls) {pos : Num} (h : 0 ≤ pos ∧ pos ≤ 1) :
    0 ≤ portaAdvance c ctl pos ∧ portaAdvance c ctl pos ≤ 1 := by
  unfold portaAdvance
  split_ifs with h1 h2
  · exact ⟨zero_le_one, le_refl 1⟩
  · have ht : 0 < ctl.portaTimeSec := by
      simp [portaInForce] at h1
      exact h1.2
    exact ⟨le_min zero_le_one (c.add_nonneg h.1 (c.div_nonneg zero_le_one (c.mul_nonneg ht.le c.valid.sampleRate_pos.le))),
      min_le_left _ _⟩
  · exact h

/-- The amplitude modulation lies in [0,1] (R34, R241). -/
theorem ampMod_range (lfoCur : Num) (i : Fin 4) : 0 ≤ ampMod c P lfoCur i ∧ ampMod c P lfoCur i ≤ 1 :=
  clamp_range zero_le_one _

theorem voiceUpdateMods_sound (ctl : Controls) {v : Voice} (h : VoiceSound c v) :
    VoiceSound c (voiceUpdateMods c P ctl v) := by
  refine ⟨h.1, pegTick_sound c P h.2.1, h.2.2.1, portaAdvance_range c ctl h.2.2.2.1, fun i => ?_, h.2.2.2.2.2.1, h.2.2.2.2.2.2⟩
  simp only [voiceUpdateMods, Quad.get_mapIdx]
  exact ampMod_range c P _ i

/-- What `updateMods` leaves alone (R241). -/
theorem voiceUpdateMods_op (ctl : Controls) (v : Voice) : (voiceUpdateMods c P ctl v).op = v.op := rfl

@[simp] theorem voiceUpdateMods_algId (ctl : Controls) (v : Voice) : (voiceUpdateMods c P ctl v).algId = v.algId := rfl

theorem stepOperator_get (A : AlgDesc) (pm am y : Quad Num) (ops : Quad Operator) (i j : Fin 4) :
    (stepOperator c P A pm am y ops i).2.get j =
      if j = i then (operCompute c P i (c.mul c.modIndex (sumFlagged c (A.mods.get i) y)) (pm.get i) (ops.get i)).2
      else ops.get j := by
  unfold stepOperator
  dsimp only
  split_ifs with h
  · subst h; simp
  · exact Quad.get_set_other _ _ h

/-- Each operator is computed exactly once in a step (R251): what becomes of operator `j` is one `compute` of it. -/
theorem stepOperators_get (A : AlgDesc) (pm am : Quad Num) (ops : Quad Operator) (j : Fin 4) :
    ∃ inp, (stepOperators c P A pm am ops).2.get j = (operCompute c P j inp (pm.get j) (ops.get j)).2 := by
  unfold stepOperators
  dsimp only
  match j with
  | 0 => simp only [stepOperator_get]; exact ⟨_, rfl⟩
  | 1 => simp only [stepOperator_get]; exact ⟨_, rfl⟩
  | 2 => simp only [stepOperator_get]; exact ⟨_, rfl⟩
  | 3 => simp only [stepOperator_get]; exact ⟨_, rfl⟩

/-- An invalid algorithm id: silence, and no operator computed (R252). -/
theorem voiceStep_invalid (ctl : Controls) {v : Voice} (h : 11 < v.algId.toNat) :
    voiceStep c P ctl v = (0, voiceUpdateMods c P ctl v) := by
  have : algorithmOf c v.algId = none := by unfold algorithmOf; rw [dif_neg (by omega)]
  unfold voiceStep
  simp only [voiceUpdateMods_algId, this]

/-- Everything a step does to the voice (R251, R252): the modulation update, and at most one `compute` of each operator. -/
theorem voiceStep_voice (ctl : Controls) (v : Voice) :
    ∃ ops, (voiceStep c P ctl v).2 = { voiceUpdateMods c P ctl v with op := ops } ∧
      ∀ j, ops.get j = v.op.get j ∨ ∃ inp pmS, ops.get j = (operCompute c P j inp pmS (v.op.get j)).2 := by
  unfold voiceStep
  dsimp only
  cases algorithmOf c (voiceUpdateMods c P ctl v).algId with
  | none => exact ⟨v.op, rfl, fun j => .inl rfl⟩
  | some A =>
    refine ⟨_, rfl, fun j => .inr ?_⟩
    obtain ⟨inp, h⟩ := stepOperators_get c P A (voiceUpdateMods c P ctl v).pm (voiceUpdateMods c P ctl v).am
      (voiceUpdateMods c P ctl v).op j
    exact ⟨inp, _, h⟩

theorem voiceStep_sound (ctl : Controls) {v : Voice} (h : VoiceSound c v) : VoiceSound c (voiceStep c P ctl v).2 := by
  obtain ⟨ops, e, hops⟩ := voiceStep_voice c P ctl v
  have hu := voiceUpdateMods_sound c P ctl h
  rw [e]
  refine ⟨fun j => ?_, hu.2.1, hu.2.2.1, hu.2.2.2.1, hu.2.2.2.2.1, hu.2.2.2.2.2.1, hu.2.2.2.2.2.2⟩
  rcases hops j with hj | ⟨inp, pmS, hj⟩ <;> simp only [hj]
  · exact h.1 j
  · exact operCompute_sound c P j inp pmS (h.1 j)

/-- An inactive voice scores 0 (R262, R263). -/
theorem calcScore_inactive {v : Voice} (h : isActive v = false) : calcScore c v = 0 := if_pos h

/-- Everything a score can be (R262): 0, the sentinel for a voice just stolen, or the weighted sum of the enabled carriers' levels. -/
theorem calcScore_cases (v : Voice) :
    calcScore c v = 0 ∨
    (v.justAllocated = true ∧ calcScore c v = c.scoreSentinel) ∨
    ∃ (n : Nat) (flags : Quad Bool), calcScore c v =
      c.mul (c.mul (c.mul (sumFlagged c flags (v.op.mapIdx fun _ o => aegOut c o.aeg)) (scoreWeight c n)) (c.ofNat v.velocity.val))
        (if v.gate || v.sustained then 1 else c.scoreReleasedAtten) := by
  unfold calcScore
  by_cases ha : isActive v = false
  · exact .inl (if_pos ha)
  · rw [if_neg ha]
    by_cases hj : v.justAllocated = true
    · exact .inr (.inl ⟨hj, if_pos hj⟩)
    · rw [if_neg hj]
      cases algorithmOf c v.algId with
      | none => exact .inl rfl
      | some A => exact .inr (.inr ⟨_, _, rfl⟩)

end

end Sys2Proof.Machine
end

