-- ==== Sys2Proof/Laws/Exec.lean ====
section
/-! SUPPORT. What the allocator, the renderer and a command can do: the pool and the stack, and the one equation that says what `exec` answers. -/

namespace Sys2Proof.Machine

/-- `exec` is `applyInstr` at the machine's configuration, and always goes on (R340, R364). -/
theorem exec_eq (i : Instr) (s : State) : exec i s = .next (applyInstr Config.cfg i s) := by
  cases i <;> rfl

/-- If `exec` answers a next state, that state is `applyInstr`'s. -/
theorem exec_next_iff {i : Instr} {s t : State} : exec i s = .next t ↔ t = applyInstr Config.cfg i s := by
  rw [exec_eq]
  exact ⟨fun h => (Host.Outcome.next.inj h).symm, fun h => by rw [h]⟩

/-- Everything a step can do: idle, run a command, or run a reserved word as `NOP` (R85, R313, R355). -/
theorem step_cases {s t : State} (h : step s = .next t) :
    (s.port = [] ∧ t = s) ∨
    ∃ w rest, s.port = w :: rest ∧
      ((∃ i, decode w = .ok i ∧ t = applyInstr Config.cfg i { s with port := rest }) ∨
       (∃ op, decode w = .error (.reservedOpcode op) ∧ t = { s with port := rest })) := by
  unfold step takeCommand at h
  cases hp : s.port with
  | nil => rw [hp] at h; exact .inl ⟨rfl, (Host.Outcome.next.inj h).symm⟩
  | cons w rest =>
    rw [hp] at h
    refine .inr ⟨w, rest, rfl, ?_⟩
    dsimp only at h
    cases hd : decode w with
    | ok i => rw [hd] at h; exact .inl ⟨i, rfl, exec_next_iff.mp h⟩
    | error r =>
      obtain ⟨op⟩ := r
      rw [hd] at h
      exact .inr ⟨op, rfl, exec_next_iff.mp h⟩

/-! The note stack. -/

section

variable (c : Cfg)

theorem allocPush_length (n : U7) (a : Alloc) : (allocPush c n a).stack.length = a.stack.length := by
  unfold allocPush; split_ifs <;> simp

theorem allocPush_depth (n : U7) (a : Alloc) (h : a.depth ≤ c.noteStackCap) : (allocPush c n a).depth ≤ c.noteStackCap := by
  unfold allocPush; split_ifs
  · assumption
  · exact h

theorem lastIndexOf_lt {n : U7} {stack : List U7} {d k : Nat} (h : lastIndexOf n stack d = some k) : k < d := by
  induction d with
  | zero => simp [lastIndexOf] at h
  | succ d ih =>
    unfold lastIndexOf at h
    split_ifs at h
    · cases h; omega
    · have := ih h; omega

theorem closeGap_length {stack : List U7} {k depth : Nat} (hk : k < depth) (hd : depth ≤ stack.length) :
    (closeGap stack k depth).length = stack.length := by
  simp [closeGap]; omega

/-- A removal takes one entry or none (R282). -/
theorem allocRemove_depth (n : U7) (a : Alloc) :
    (allocRemove n a).depth = if (lastIndexOf n a.stack a.depth).isSome then a.depth - 1 else a.depth := by
  unfold allocRemove; split <;> simp_all

theorem allocRemove_length (n : U7) {a : Alloc} (h : a.depth ≤ a.stack.length) :
    (allocRemove n a).stack.length = a.stack.length := by
  unfold allocRemove
  split
  · rfl
  · next k hk => exact closeGap_length (lastIndexOf_lt hk) h

@[simp] theorem allocRemove_monoActive (n : U7) (a : Alloc) : (allocRemove n a).monoActive = a.monoActive := by
  unfold allocRemove; split <;> rfl

/-! The pool. -/

/-- What a change of one voice does to the pool. -/
theorem modify_getElem? (l : List Voice) (v : Nat) (f : Voice → Voice) (u : Nat) :
    (l.modify v f)[u]? = if u = v then l[u]?.map f else l[u]? := by
  rw [List.getElem?_modify]
  by_cases h : v = u
  · subst h; simp
  · simp [h, Ne.symm h]

/-- A voice operation on one voice keeps a sound pool sound. -/
theorem voices_modify_sound {l : List Voice} (h : ∀ x ∈ l, VoiceSound c x) {v : Nat} {f : Voice → Voice}
    (hf : ∀ x ∈ l, VoiceSound c (f x)) : ∀ x ∈ l.modify v f, VoiceSound c x := by
  intro x hx
  obtain ⟨u, hu⟩ := List.mem_iff_getElem?.mp hx
  rw [modify_getElem?] at hu
  split_ifs at hu
  · obtain ⟨y, hy, rfl⟩ := Option.map_eq_some_iff.mp hu
    exact hf y (List.mem_iff_getElem?.mpr ⟨u, hy⟩)
  · exact h x (List.mem_iff_getElem?.mpr ⟨u, hu⟩)

/-- Everything `findVoice` can do in polyphonic mode (R284): the first inactive voice, nothing written; or, none being inactive, a voice marked just allocated. -/
theorem findVoicePoly_cases (s : State) :
    (∃ v x, findVoicePoly c s = (v, s) ∧ s.voices[v]? = some x ∧ isActive x = false ∧
      ∀ u y, u < v → s.voices[u]? = some y → isActive y = true) ∨
    ((∀ x ∈ s.voices, isActive x = true) ∧
      findVoicePoly c s =
        (stealVoice c s.voices, s.modifyVoice (stealVoice c s.voices) fun v => { v with justAllocated := true })) := by
  unfold findVoicePoly
  cases h : s.voices.findIdx? (fun v => !isActive v) with
  | none =>
    right
    refine ⟨fun x hx => ?_, rfl⟩
    have := List.findIdx?_eq_none_iff.mp h x hx
    simpa using this
  | some v =>
    left
    obtain ⟨hv, h1, h2⟩ := List.findIdx?_eq_some_iff_getElem.mp h
    refine ⟨v, s.voices[v], rfl, by simp, by simpa using h1, fun u y hu hy => ?_⟩
    obtain ⟨hu', rfl⟩ := List.getElem?_eq_some_iff.mp hy
    simpa using h2 u hu

/-- The scan for the least score answers an index of the pool (R284, R291 (3)). -/
theorem leastScore_lt (l : List Voice) {v best : Nat} (bs : Num) (h : best < v) :
    leastScore c l v best bs < v + l.length := by
  induction l generalizing v best bs with
  | nil => simpa [leastScore] using h
  | cons x rest ih =>
    unfold leastScore
    split_ifs
    · have := ih (v := v + 1) (best := v) (calcScore c x) (by omega)
      simp only [List.length_cons]; omega
    · have := ih (v := v + 1) (best := best) bs (by omega)
      simp only [List.length_cons]; omega

theorem stealVoice_lt {l : List Voice} (h : l ≠ []) : stealVoice c l < l.length := by
  cases l with
  | nil => exact absurd rfl h
  | cons x rest =>
    have := leastScore_lt c rest (v := 1) (best := 0) (calcScore c x) (by omega)
    simp only [stealVoice, List.length_cons]; omega

/-! Rendering. -/

variable (P : Memory) (ctl : Controls)

/-- One sample advances each active voice by one `step` and leaves each inactive voice alone; the mix does not reach the pool (R312, R353). -/
theorem mixVoices_voices (l : List Voice) (mix : Num) :
    (mixVoices c P ctl l mix).2 = l.map fun v => if isActive v then (voiceStep c P ctl v).2 else v := by
  induction l generalizing mix with
  | nil => rfl
  | cons v rest ih =>
    unfold mixVoices
    by_cases h : isActive v = true <;> simp [h, ih]

/-- With no active voice the mix is what it was (R312). -/
theorem mixVoices_silent {l : List Voice} (h : ∀ v ∈ l, isActive v = false) (mix : Num) :
    mixVoices c P ctl l mix = (mix, l) := by
  induction l generalizing mix with
  | nil => rfl
  | cons v rest ih =>
    unfold mixVoices
    rw [if_neg (by simp [h v (by simp)]), ih (fun x hx => h x (by simp [hx]))]

/-- `RENDER n` appends exactly `n` pairs (R312, R35). -/
theorem renderSamples_length (n : Nat) (l : List Voice) : (renderSamples c P ctl n l).1.length = n := by
  induction n generalizing l with
  | zero => rfl
  | succ n ih => simp [renderSamples, ih]

/-- Left and right are alike in every pair (R35). -/
theorem renderSamples_stereo (n : Nat) (l : List Voice) : ∀ p ∈ (renderSamples c P ctl n l).1, p.left = p.right := by
  induction n generalizing l with
  | zero => simp [renderSamples]
  | succ n ih =>
    intro p hp
    simp only [renderSamples, List.mem_cons] at hp
    rcases hp with rfl | hp
    · rfl
    · exact ih _ p hp

theorem renderSamples_pool_size (n : Nat) (l : List Voice) : (renderSamples c P ctl n l).2.length = l.length := by
  induction n generalizing l with
  | zero => rfl
  | succ n ih => simp [renderSamples, ih, mixVoices_voices]

theorem mixVoices_sound {l : List Voice} (h : ∀ v ∈ l, VoiceSound c v) (mix : Num) :
    ∀ v ∈ (mixVoices c P ctl l mix).2, VoiceSound c v := by
  rw [mixVoices_voices]
  intro v hv
  obtain ⟨x, hx, rfl⟩ := List.mem_map.mp hv
  split_ifs
  · exact voiceStep_sound c P ctl (h x hx)
  · exact h x hx

theorem renderSamples_sound (n : Nat) {l : List Voice} (h : ∀ v ∈ l, VoiceSound c v) :
    ∀ v ∈ (renderSamples c P ctl n l).2, VoiceSound c v := by
  induction n generalizing l with
  | zero => exact h
  | succ n ih => exact ih (mixVoices_sound c P ctl h 0)

theorem voiceBlockStart_sound (n : Nat) {v : Voice} (h : VoiceSound c v) : VoiceSound c (voiceBlockStart c P n v) := by
  unfold voiceBlockStart
  split_ifs
  · exact ⟨h.1, h.2.1, lfoBlockUpdate_sound c P n h.2.2.1, h.2.2.2⟩
  · exact h

/-- The block start changes neither the operators nor the algorithm id (R312 lines 3 to 5). -/
theorem voiceBlockStart_op (n : Nat) (v : Voice) : (voiceBlockStart c P n v).op = v.op := by
  unfold voiceBlockStart; split_ifs <;> rfl

end

end Sys2Proof.Machine
end

