-- ==== Sys2Proof/Laws/PerInstr.lean ====
section
/-! SUPPORT. A statement made once per command: the word an assembler writes carries the command's opcode of R81 in its top byte. -/

namespace Sys2Proof.Laws.OpcodeField

/-- The opcode column of R81. -/
def opcodeOf (i : Instr) : Nat :=
  match i with
  | .nop => 0x00
  | .noteOn _ _ => 0x01
  | .noteOff _ => 0x02
  | .ctrlChange _ _ => 0x03
  | .pitchBend _ => 0x04
  | .opParam _ _ _ => 0x05
  | .patchWr _ _ => 0x06
  | .applyPatch => 0x07
  | .allNotesOff => 0x08
  | .allSoundOff => 0x09
  | .sysReset => 0x0A
  | .render _ => 0x0B

/-- The encoded command carries its opcode (R80, R81). -/
def Statement (i : Instr) : Prop := fieldOpcode (encode i) = opcodeOf i

theorem nop : Statement .nop := fieldOpcode_wordB _ _ _ _

theorem noteOn (note velocity : Nat) : Statement (.noteOn note velocity) := fieldOpcode_wordB _ _ _ _

theorem noteOff (note : Nat) : Statement (.noteOff note) := fieldOpcode_wordB _ _ _ _

theorem ctrlChange (id value : Nat) : Statement (.ctrlChange id value) := fieldOpcode_wordB _ _ _ _

theorem pitchBend (bend : Int) : Statement (.pitchBend bend) := fieldOpcode_wordH _ _

theorem opParam (op offset value : Nat) : Statement (.opParam op offset value) := fieldOpcode_wordB _ _ _ _

theorem patchWr (addr value : Nat) : Statement (.patchWr addr value) := fieldOpcode_wordB _ _ _ _

theorem applyPatch : Statement .applyPatch := fieldOpcode_wordB _ _ _ _

theorem allNotesOff : Statement .allNotesOff := fieldOpcode_wordB _ _ _ _

theorem allSoundOff : Statement .allSoundOff := fieldOpcode_wordB _ _ _ _

theorem sysReset : Statement .sysReset := fieldOpcode_wordB _ _ _ _

theorem render (n : Nat) : Statement (.render n) := fieldOpcode_wordH _ _

end Sys2Proof.Laws.OpcodeField
end

