-- ==== Sys2Proof/Tests/Fixture.lean ====
section
/-! SUPPORT. The test configuration TC0 of 95_test_vectors.md section 1, with the proofs that it meets the constraints of R6 and R7. It is a fixture,
not a claim about the hardware. -/

namespace Sys2Proof.Tests

open Sys2Proof Sys2Proof.Machine

/-- The unit triangle that TC0 takes for `SINE`. -/
def triangle (p : Num) : Num :=
  if p < 1 / 4 then 4 * p else if p < 3 / 4 then 2 - 4 * p else 4 * p - 4

/-- A subset of the four operators, by membership. -/
def subset (l : List Nat) : Quad Bool := ⟨l.contains 0, l.contains 1, l.contains 2, l.contains 3⟩

/-- One row of the fixture algorithm table. -/
def algRow (m0 m1 m2 carriers : List Nat) : AlgDesc := ⟨⟨subset m0, subset m1, subset m2, subset []⟩, subset carriers, 1⟩

/-- The fixture algorithm table. -/
def fixtureAlg (a : Fin 12) : AlgDesc :=
  match a with
  | 0 => algRow [1] [2] [3] [0]
  | 1 => algRow [1] [2, 3] [] [0]
  | 2 => algRow [1, 2] [] [3] [0]
  | 3 => algRow [1, 2, 3] [] [] [0]
  | 4 => algRow [1] [] [3] [0, 2]
  | 5 => algRow [1] [2] [] [0, 3]
  | 6 => algRow [3] [3] [3] [0, 1, 2]
  | 7 => algRow [1] [] [] [0, 2, 3]
  | 8 => algRow [] [2] [3] [0, 1]
  | 9 => algRow [] [] [3] [0, 1, 2]
  | 10 => algRow [1, 3] [2] [] [0]
  | 11 => algRow [] [] [] [0, 1, 2, 3]

/-- The parameters and functions of TC0. -/
def tc0Data : CfgData where
  num := .exact
  numVoices := 3
  sampleRate := 240
  noteStackCap := 3
  fallbackVelocity := 64
  scoreSentinel := 1000000000
  invSqrt2 := 70711 / 100000
  invSqrt3 := 57735 / 100000
  egRiseScale := 4
  egFallScale := 1 / 4
  pegFallScale := 11 / 10
  fbLpCoef := 1 / 2
  modIndex := 1 / 4
  masterGain := 1 / 2
  pegCenter := 16
  lfoSeed := fun v => BitVec.ofNat 32 (1 + v)
  sine := triangle
  semiRatio := fun s => 1 + s / 12
  noteHz := fun t => (max t 1 : Int) / 2
  opFreq := fun mode coarse fine _ baseHz =>
    match mode with
    | .ratio => baseHz * (if coarse = 0 then 1 / 2 else (coarse.val : Num)) * (1 + (fine.val : Num) / 100)
    | .fixed => (coarse.val : Num) + (fine.val : Num) / 100
  ksFactor := fun _ _ _ _ _ => 1
  velGain := fun vel sens => 1 - (sens.val : Num) / 127 * (1 - (vel.val : Num) / 127)
  expGain := fun x => x / 127
  fbScale := fun a => (a.val : Num) / 127
  rectify := fun x => |x|
  egLevel := fun b => (b.val : Num) / 127
  egRateStep := fun b => ((b.val : Num) + 1) / 1024
  egCurve := fun x => x * x
  egGain := fun x => 2 * x / (1 + x)
  egGainInv := fun y => y / (2 - y)
  pegLevel := fun b => (b.val : Num) / 4
  pegRateStep := fun b => ((b.val : Num) + 1) / 128
  lfoHz := fun b => (b.val : Num) / 4
  lfoDelaySamples := fun b => b.val
  lfoPmd := fun b => (b.val : Num) / 64
  lfoAmd := fun b => (b.val : Num) / 127
  modwheelPm := fun mw l => mw * l
  randMap := fun u => (u.toNat : Num) / 2147483648 - 1
  transpose := fun b => (b.val : Int) - 64
  portaTime := fun b => (b.val : Num) / 60
  bendMap := fun bend r => (bend : Num) / 8192 * ((r.val : Num) - 64)
  mwFactor := fun b => (b.val : Num) / 127
  volFactor := fun b => (b.val : Num) / 127
  algTable := fixtureAlg
  divZero := fun _ => 0
  overflow := fun _ => 0

theorem tc0_gain_lt {x y : Num} (hx : 0 ≤ x) (h : x < y) : 2 * x / (1 + x) < 2 * y / (1 + y) := by
  rw [div_lt_div_iff₀ (by linarith) (by linarith)]
  nlinarith

theorem tc0_gain_inv {x : Num} (hx : 0 ≤ x) : 2 * x / (1 + x) / (2 - 2 * x / (1 + x)) = x := by
  have h1 : (1 + x) ≠ 0 := by linarith
  have h2 : 2 - 2 * x / (1 + x) = 2 / (1 + x) := by field_simp; ring
  rw [h2]
  field_simp

theorem tc0_alg_shaped (a : Fin 12) : (fixtureAlg a).WellShaped := by
  constructor
  · revert a; decide
  · revert a; decide

theorem tc0Data_valid : tc0Data.Valid where
  numValued := by constructor <;> intros <;> trivial
  numVoices_pos := by decide
  sampleRate_pos := by norm_num [tc0Data]
  noteStackCap_pos := by decide
  invSqrt_nearest := fun h => by cases h
  invSqrt_range := by norm_num [tc0Data]
  egRiseScale_pos := by norm_num [tc0Data]
  egFallScale_pos := by norm_num [tc0Data]
  pegFallScale_pos := by norm_num [tc0Data]
  fbLpCoef_range := by norm_num [tc0Data]
  lfoSeed_ne := by
    intro v hv
    have hv : v < 3 := hv
    show BitVec.ofNat 32 (1 + v) ≠ 0
    revert v; decide
  semiRatio_zero := by norm_num [tc0Data]
  noteHz_pos := fun t => by
    show (0 : Num) < ((max t 1 : Int) : Num) / 2
    have : (0 : Num) < ((max t 1 : Int) : Num) := by
      exact_mod_cast lt_of_lt_of_le (by decide : (0 : Int) < 1) (le_max_right t 1)
    linarith
  opFreq_nonneg := fun m co fi _ hz h => by
    cases m
    · show (0 : Num) ≤ hz * (if co = 0 then 1 / 2 else (co.val : Num)) * (1 + (fi.val : Num) / 100)
      split <;> positivity
    · show (0 : Num) ≤ (co.val : Num) + (fi.val : Num) / 100
      positivity
  rectify_nonneg := fun x => abs_nonneg x
  egLevel_nonneg := fun b => by show (0 : Num) ≤ (b.val : Num) / 127; positivity
  egRateStep_nonneg := fun b => by show (0 : Num) ≤ ((b.val : Num) + 1) / 1024; positivity
  egCurve_strict := fun x y _ _ hx _ h => by
    show x * x < y * y
    nlinarith [hx.1]
  egGain_strict := fun _ _ _ _ hx _ h => tc0_gain_lt hx.1 h
  egGainInv_right := fun x _ hx => by
    have h : tc0Data.egGainInv (tc0Data.egGain x) = x := tc0_gain_inv hx.1
    rw [h]
    exact ⟨rfl, hx⟩
  pegRateStep_nonneg := fun b => by show (0 : Num) ≤ ((b.val : Num) + 1) / 128; positivity
  lfoHz_nonneg := fun b => by show (0 : Num) ≤ (b.val : Num) / 4; positivity
  modwheelPm_zero := fun x => zero_mul x
  randMap_range := fun u => by
    show -1 ≤ (u.toNat : Num) / 2147483648 - 1 ∧ (u.toNat : Num) / 2147483648 - 1 ≤ 1
    have h : (u.toNat : Num) < 4294967296 := by exact_mod_cast u.isLt
    have h0 : (0 : Num) ≤ (u.toNat : Num) := by positivity
    constructor <;> linarith
  portaTime_nonneg := fun b => by show (0 : Num) ≤ (b.val : Num) / 60; positivity
  bendMap_zero := fun r => by norm_num [tc0Data]
  mwFactor_zero := by norm_num [tc0Data]
  algTable_shaped := tc0_alg_shaped
  divZero_nonneg := fun _ _ => le_refl 0
  overflow_nonneg := fun _ _ => le_refl 0

/-- TC0. -/
def tc0 : Cfg := { tc0Data with valid := tc0Data_valid }

/-- Over the levels of TC0: every element of an AEG the rules bring about, and that a rising map ends at 1 or below. -/
structure Tc0Aeg (g : Aeg) : Prop where
  raw : 0 ≤ g.raw ∧ g.raw ≤ 1
  target : 0 ≤ g.target ∧ g.target ≤ 1
  step : 0 ≤ g.step
  slope : g.rising = true → 0 ≤ g.k ∧ 0 ≤ g.c ∧ g.k * (g.target * g.target) + g.c ≤ 1 ∧ g.raw ≤ g.target

theorem tc0_round (q : Num) : tc0.round q = q := rfl

theorem tc0_target (P : Memory) (i : Fin 4) (s : Stage) : 0 ≤ aegTarget tc0 P i s ∧ aegTarget tc0 P i s ≤ 1 := by
  show (0 : Num) ≤ ((opEgLevel P i s).val : Num) / 127 ∧ ((opEgLevel P i s).val : Num) / 127 ≤ 1
  have h : ((opEgLevel P i s).val : Num) ≤ 127 := by exact_mod_cast Nat.le_of_lt_succ (opEgLevel P i s).isLt
  exact ⟨by positivity, by rw [div_le_one (by norm_num)]; exact h⟩

theorem tc0_gain_range {x : Num} (h : 0 ≤ x ∧ x ≤ 1) : 0 ≤ 2 * x / (1 + x) ∧ 2 * x / (1 + x) ≤ 1 := by
  obtain ⟨h0, h1⟩ := h
  exact ⟨by positivity, by rw [div_le_one (by linarith)]; linarith⟩

theorem Tc0Aeg.out {g : Aeg} (h : Tc0Aeg g) : 0 ≤ aegOut tc0 g ∧ aegOut tc0 g ≤ 1 := by
  unfold aegOut
  split_ifs with h1 h2
  · exact ⟨le_refl 0, zero_le_one⟩
  · show 0 ≤ g.k * (g.raw * g.raw) + g.c ∧ g.k * (g.raw * g.raw) + g.c ≤ 1
    obtain ⟨hk, hc, he, hr⟩ := h.slope h2
    have := mul_le_mul hr hr h.raw.1 h.target.1
    exact ⟨add_nonneg (mul_nonneg hk (mul_self_nonneg _)) hc, by nlinarith [mul_le_mul_of_nonneg_left this hk]⟩
  · exact tc0_gain_range h.raw

theorem Tc0Aeg.reexpress {g : Aeg} (h : Tc0Aeg g) : 0 ≤ (aegReexpress tc0 g).raw ∧ (aegReexpress tc0 g).raw ≤ 1 := by
  unfold aegReexpress
  split_ifs
  · show 0 ≤ aegOut tc0 g / (2 - aegOut tc0 g) ∧ aegOut tc0 g / (2 - aegOut tc0 g) ≤ 1
    obtain ⟨h0, h1⟩ := h.out
    exact ⟨div_nonneg h0 (by linarith), by rw [div_le_one (by linarith)]; linarith⟩
  · exact h.raw

/-- TC0's rising map from `r` to `t`: its slope, that its offset is not negative, and its end point. -/
theorem tc0_slope {r t : Num} (hr : 0 ≤ r) (h : r < t) :
    0 ≤ aegSlope tc0 r t ∧ 0 ≤ 2 * r / (1 + r) - aegSlope tc0 r t * (r * r) ∧
    aegSlope tc0 r t * (t * t) + (2 * r / (1 + r) - aegSlope tc0 r t * (r * r)) = 2 * t / (1 + t) := by
  have ht : 0 < t := by linarith
  have hd : 0 < t * t - r * r := by nlinarith
  have hk : aegSlope tc0 r t = 2 / ((1 + r) * (1 + t) * (t + r)) := by
    have h0 : aegSlope tc0 r t = (2 * t / (1 + t) - 2 * r / (1 + r)) / (t * t - r * r) := if_neg hd.ne'
    have h1 : t * t - r * r = (t - r) * (t + r) := by ring
    have h2 : t - r ≠ 0 := by linarith
    rw [h0, h1]
    field_simp
    ring
  have h3 : 2 * r / (1 + r) - 2 / ((1 + r) * (1 + t) * (t + r)) * (r * r) = 2 * r * (t + t * t + t * r) / ((1 + r) * (1 + t) * (t + r)) := by
    field_simp
    ring
  rw [hk]
  refine ⟨by positivity, by rw [h3]; positivity, ?_⟩
  rw [h3]
  field_simp
  ring

theorem Tc0Aeg.enter (P : Memory) (i : Fin 4) (s : Stage) {g : Aeg} (h : 0 ≤ g.raw ∧ g.raw ≤ 1) :
    Tc0Aeg (aegEnter tc0 P i s g) := by
  refine ⟨by rw [aegEnter_raw]; exact h, by rw [aegEnter_target]; exact tc0_target P i s, aegEnter_step_nonneg tc0 P i s g, fun e => ?_⟩
  rw [aegEnter_rising, Bool.and_eq_true, decide_eq_true_eq] at e
  have hlt : g.raw < aegTarget tc0 P i s := of_decide_eq_true e.2
  obtain ⟨h1, h2, h3⟩ := tc0_slope h.1 hlt
  have hk : (aegEnter tc0 P i s g).k = aegSlope tc0 g.raw (aegTarget tc0 P i s) := by simp [aegEnter, e.1, e.2]
  have hc : (aegEnter tc0 P i s g).c = 2 * g.raw / (1 + g.raw) - aegSlope tc0 g.raw (aegTarget tc0 P i s) * (g.raw * g.raw) := by
    simp only [aegEnter, e.1, e.2, if_true, if_false]; rfl
  rw [hk, hc, aegEnter_target, aegEnter_raw]
  exact ⟨h1, h2, h3.trans_le (tc0_gain_range (tc0_target P i s)).2, hlt.le⟩

/-- Every AEG the rules of TC0 bring about stays between the levels 0 and 1. -/
theorem tc0_reached {g : Aeg} (h : AegReached tc0 g) : Tc0Aeg g := by
  induction h with
  | reset P i g => exact ⟨⟨le_refl 0, zero_le_one⟩, tc0_target P i _, le_refl 0, fun e => by cases e⟩
  | @gateOn P i kind g _ ih =>
    cases kind
    · exact Tc0Aeg.enter P i .attack (g := { g with raw := 0, rising := false }) ⟨le_refl 0, zero_le_one⟩
    · exact Tc0Aeg.enter P i .attack ih.reexpress
  | @gateOff P i g _ ih =>
    unfold aegGateOff
    split_ifs
    · exact Tc0Aeg.enter P i _ ih.reexpress
    · exact ih
  | @tick P i g _ ih =>
    rcases aegTick_cases tc0 P i g with ⟨-, e⟩ | ⟨hs, raw, hraw, ⟨hd, e⟩ | ⟨-, e⟩⟩ <;> rw [e]
    · exact ih
    · have hle : 0 ≤ raw ∧ raw ≤ 1 ∧ (g.rising = true → raw ≤ g.target) := by
        cases hr : g.rising <;> simp only [hr, rampDone, if_true, Bool.false_eq_true, if_false, decide_eq_false_iff_not, not_le] at hraw hd
        · have hsub : raw = g.raw - g.step := hraw
          exact ⟨by linarith [ih.target.1], by linarith [ih.raw.2, ih.step], fun h => by cases h⟩
        · have hadd : raw = g.raw + g.step := hraw
          exact ⟨by linarith [ih.raw.1, ih.step], by linarith [ih.target.2], fun _ => hd.le⟩
      exact ⟨⟨hle.1, hle.2.1⟩, ih.target, ih.step, fun h => ⟨(ih.slope h).1, (ih.slope h).2.1, (ih.slope h).2.2.1, hle.2.2 h⟩⟩
    · unfold aegNextStage
      split
      · exact Tc0Aeg.enter P i _ ih.target
      · exact Tc0Aeg.enter P i _ ih.target
      · exact Tc0Aeg.enter P i _ ih.target
      · exact ⟨⟨le_refl 0, zero_le_one⟩, tc0_target P i _, le_refl 0, fun e => by cases e⟩
      all_goals rename_i h; simp [stageHolds, show g.stage = _ from h] at hs

/-- TC0 meets the constraint on the sentinel: no score passes `4 × 127`. -/
theorem tc0_sentinelAboveScores : tc0.SentinelAboveScores := by
  refine ⟨fun g h => ?_, fun x hx hj => ?_⟩
  · have := (tc0_reached h).out.2
    show 4 * aegOut tc0 g * (1 / 2) * 127 < (1000000000 : Num)
    linarith
  · rcases calcScore_cases tc0 x with e | ⟨e, -⟩ | ⟨n, flags, e⟩
    · rw [e]; show (0 : Num) < 1000000000; norm_num
    · rw [hj] at e; cases e
    · have hy : ∀ i, 0 ≤ aegOut tc0 (x.op.get i).aeg ∧ aegOut tc0 (x.op.get i).aeg ≤ 1 := fun i => (tc0_reached (hx i)).out
      have hS : 0 ≤ sumFlagged tc0 flags (x.op.mapIdx fun _ o => aegOut tc0 o.aeg) ∧
          sumFlagged tc0 flags (x.op.mapIdx fun _ o => aegOut tc0 o.aeg) ≤ 4 := by
        have h0 : 0 ≤ aegOut tc0 x.op.q0.aeg ∧ aegOut tc0 x.op.q0.aeg ≤ 1 := hy 0
        have h1 : 0 ≤ aegOut tc0 x.op.q1.aeg ∧ aegOut tc0 x.op.q1.aeg ≤ 1 := hy 1
        have h2 : 0 ≤ aegOut tc0 x.op.q2.aeg ∧ aegOut tc0 x.op.q2.aeg ≤ 1 := hy 2
        have h3 : 0 ≤ aegOut tc0 x.op.q3.aeg ∧ aegOut tc0 x.op.q3.aeg ≤ 1 := hy 3
        simp only [sumFlagged, Quad.mapIdx, Cfg.add, tc0_round]
        constructor <;> split_ifs <;> linarith
      have hw : 0 ≤ scoreWeight tc0 n ∧ scoreWeight tc0 n ≤ 1 := by
        unfold scoreWeight
        split <;> norm_num [tc0, tc0Data]
      have hv : (0 : Num) ≤ (x.velocity.val : Num) ∧ (x.velocity.val : Num) ≤ 127 :=
        ⟨by positivity, by exact_mod_cast Nat.le_of_lt_succ x.velocity.isLt⟩
      have hh : 0 ≤ (if x.gate || x.sustained then 1 else tc0.scoreReleasedAtten) ∧ (if x.gate || x.sustained then 1 else tc0.scoreReleasedAtten) ≤ 1 := by
        split_ifs <;> norm_num [Cfg.scoreReleasedAtten, tc0_round]
      rw [e]
      have h1 := mul_le_mul hS.2 hw.2 hw.1 (by norm_num)
      have h2 := mul_le_mul h1 hv.2 hv.1 (by norm_num)
      have h3 := mul_le_mul h2 hh.2 hh.1 (by norm_num)
      exact lt_of_le_of_lt h3 (by show (4 * 1 * 127 * 1 : Num) < 1000000000; norm_num)

/-- TC0 keeps R22's type of `raw`: on an output in [0,1] `y / (2 − y)` is not negative. -/
theorem tc0_gainInvKeepsRawType : tc0.GainInvKeepsRawType := fun _ h _ _ => by
  obtain ⟨h0, h1⟩ := (tc0_reached h).out
  exact div_nonneg h0 (by linarith)

/-- A small binary32 configuration: `Cfg.sample` with binary32 arithmetic and the weights R6 asks for. -/
def b32Data : CfgData :=
  { Cfg.sample.toCfgData with num := .binary32, invSqrt2 := 11863283 / 16777216, invSqrt3 := 9686330 / 16777216 }

theorem b32_ofInt (m : Int) (h : |m| < 2 ^ 24) : IsBinary32 (m : Num) :=
  ⟨m, 0, h, by norm_num, by norm_num, by simp⟩

theorem b32_zero : IsBinary32 0 := by simpa using b32_ofInt 0 (by norm_num)
theorem b32_one : IsBinary32 1 := by simpa using b32_ofInt 1 (by norm_num)

theorem b32Data_valid : b32Data.Valid :=
  { Cfg.sample.valid with
    numValued := by
      have h0 : b32Data.IsNum 0 := b32_zero
      have h1 : b32Data.IsNum 1 := b32_one
      have h1000 : b32Data.IsNum 1000 := by
        show IsBinary32 1000
        simpa using b32_ofInt 1000 (by norm_num)
      constructor
      · simp only [b32Data, Cfg.sample, List.forall_mem_cons]
        exact ⟨h1, h1000, nearestInvSqrt_two.1, nearestInvSqrt_three.1, h1, h1, h1, h1, h1, h1, h0, by simp⟩
      · simp only [b32Data, Cfg.sample, List.forall_mem_cons]
        exact ⟨fun _ _ => h0, fun _ _ => h1, fun _ _ => h1, fun _ _ => h0, fun _ h => h, fun _ h => h, fun _ h => h, by simp⟩
      · simp only [b32Data, Cfg.sample, List.forall_mem_cons]
        exact ⟨fun _ => h0, fun _ => h0, fun _ => h0, fun _ => h0, fun _ => h1, fun _ => h0, fun _ => h0, fun _ => h0, fun _ => h0,
          fun _ => h0, fun _ => h1, by simp⟩
      · exact fun _ => h1
      · exact fun _ _ _ _ _ _ => h0
      · exact fun _ _ _ _ _ => h1
      · exact fun _ _ => h1
      · exact fun _ _ _ _ => h0
      · exact fun _ => h0
      · exact fun _ _ => h0
      · exact fun _ => h1
      · exact fun _ => ⟨h0, h0⟩
    invSqrt_nearest := fun _ => ⟨nearestInvSqrt_two, nearestInvSqrt_three⟩
    invSqrt_range := by
      show ((0 : Num) < 11863283 / 16777216 ∧ (11863283 / 16777216 : Num) ≤ 1) ∧ (0 : Num) < 9686330 / 16777216 ∧ (9686330 / 16777216 : Num) ≤ 2 / 3
      norm_num
    egCurve_strict := fun _ _ _ _ _ _ h => h
    egGain_strict := fun _ _ _ _ _ _ h => h
    egGainInv_right := fun _ _ h => ⟨rfl, h⟩ }

/-- The binary32 fixture. -/
def b32 : Cfg := { b32Data with valid := b32Data_valid }

/-- The binary32 fixture meets the constraint on the sentinel. -/
theorem b32_sentinelAboveScores : b32.SentinelAboveScores :=
  .of_flat b32.round_zero (fun _ => rfl) (fun _ => rfl) rfl (by show (0 : Num) < 1000; norm_num)

/-- The binary32 fixture keeps R22's type of `raw`. -/
theorem b32_gainInvKeepsRawType : b32.GainInvKeepsRawType := .of_flat b32.round_zero (fun _ => rfl) (fun _ => rfl)

end Sys2Proof.Tests
end

