-- ==== Sys2Proof/Tests/Slice0.lean ====
section
/-! SUPPORT. The model's own tests: ill-formed commands, decoding, one witness per statement with hypotheses, and single operations against the worked
values of the spec. Each expected value stands in the spec; its rule or vector is named. -/

namespace Sys2Proof.Tests

open Sys2Proof Sys2Proof.Machine

/-! WellFormed: an ill-formed command for each check, which the check refuses, beside the last operand it takes (R82, R83). -/

theorem test_wf_byte : ¬ WellFormed (.noteOn 256 0) ∧ ¬ WellFormed (.noteOn 0 256) ∧ WellFormed (.noteOn 255 255) := by decide
theorem test_wf_noteOff : ¬ WellFormed (.noteOff 256) ∧ WellFormed (.noteOff 255) := by decide
theorem test_wf_ctrlChange : ¬ WellFormed (.ctrlChange 256 0) ∧ ¬ WellFormed (.ctrlChange 0 256) ∧ WellFormed (.ctrlChange 255 255) := by decide
theorem test_wf_opParam : ¬ WellFormed (.opParam 256 0 0) ∧ ¬ WellFormed (.opParam 0 256 0) ∧ ¬ WellFormed (.opParam 0 0 256) ∧
    WellFormed (.opParam 255 255 255) := by decide
theorem test_wf_patchWr : ¬ WellFormed (.patchWr 256 0) ∧ ¬ WellFormed (.patchWr 0 256) ∧ WellFormed (.patchWr 255 255) := by decide
theorem test_wf_imm16 : ¬ WellFormed (.render 65536) ∧ WellFormed (.render 65535) := by decide
theorem test_wf_signed16 : ¬ WellFormed (.pitchBend 32768) ∧ ¬ WellFormed (.pitchBend (-32769)) ∧ WellFormed (.pitchBend (-32768)) ∧
    WellFormed (.pitchBend 32767) := by decide

/-! Decoding: the words are written out from R80 and R81, field by field in hexadecimal, most of them the spec's own examples. -/

/-- R300: the example 0x00ABCDEF. -/
theorem test_decode_nop : decode 0x00ABCDEF = .ok .nop := by decide
/-- R301: `NOTE_ON 60, 100`; the ignored byte `c` is 0xEE here (R80). -/
theorem test_decode_noteOn : decode 0x013C64EE = .ok (.noteOn 60 100) := by decide
/-- R302: `NOTE_OFF 60`. -/
theorem test_decode_noteOff : decode 0x023C0000 = .ok (.noteOff 60) := by decide
/-- R304: `CTRL_CHANGE 9, 5`. -/
theorem test_decode_ctrlChange : decode 0x03090500 = .ok (.ctrlChange 9 5) := by decide
/-- R305: `PITCH_BEND -8192`, with the ignored byte set. -/
theorem test_decode_pitchBend : decode 0x04FFE000 = .ok (.pitchBend (-8192)) := by decide
/-- R83: the most negative and the most positive bend. -/
theorem test_decode_pitchBend_ends : decode 0x04008000 = .ok (.pitchBend (-32768)) ∧ decode 0x04007FFF = .ok (.pitchBend 32767) := by decide
/-- R307: `OP_PARAM 1, 0x12, 99`. -/
theorem test_decode_opParam : decode 0x05011263 = .ok (.opParam 1 0x12 99) := by decide
/-- R306: `PATCH_WR 150, 1`. -/
theorem test_decode_patchWr : decode 0x06960100 = .ok (.patchWr 150 1) := by decide
/-- R308. -/
theorem test_decode_applyPatch : decode 0x07000000 = .ok .applyPatch := by decide
/-- R309. -/
theorem test_decode_allNotesOff : decode 0x08000000 = .ok .allNotesOff := by decide
/-- R310. -/
theorem test_decode_allSoundOff : decode 0x09000000 = .ok .allSoundOff := by decide
/-- R311. -/
theorem test_decode_sysReset : decode 0x0A000000 = .ok .sysReset := by decide
/-- R312: `RENDER 128`, and the largest count (R83). -/
theorem test_decode_render : decode 0x0B000080 = .ok (.render 128) ∧ decode 0x0BFFFFFF = .ok (.render 65535) := by decide
/-- R85: the first and the last reserved opcode. -/
theorem test_decode_reserved : decode 0x0C000000 = .error (.reservedOpcode 0x0C) ∧ decode 0xFFFFFFFF = .error (.reservedOpcode 0xFF) := by decide
/-- R87: the words an assembler writes. -/
theorem test_encode_examples : encode (.noteOn 60 100) = 0x013C6400 ∧ encode (.pitchBend (-8192)) = 0x0400E000 ∧
    encode (.opParam 1 0x12 99) = 0x05011263 ∧ encode (.render 128) = 0x0B000080 := by decide

/-- The host's two hooks: a table word of 24 bits has zeros above them; `step` runs the word placed. -/
theorem test_tableWord : decodeTableWord 32 0x013C6400 = some (.noteOn 60 100) ∧ decodeTableWord 32 0x0C000000 = none ∧
    decodeTableWord 8 0xFF = some .nop := by decide
theorem test_withFetchWord : step (State.reset.withFetchWord 32 0x0B000000) = exec (.render 0) State.reset ∧
    step (State.reset.withFetchWord 32 0x06100B00) = exec (.patchWr 16 11) State.reset := ⟨rfl, rfl⟩

/-! Small voices and states. -/

/-- An AEG at level 1 in the given stage. -/
def aegAt (stage : Stage) : Aeg := { stage := stage, raw := 1, target := 1, step := 0, rising := false, k := 0, c := 0 }
/-- An operator whose AEG is in the given stage. -/
def opAt (enabled : Bool) (stage : Stage) : Operator :=
  { phase := 0, inc := 0, fbAcc := 0, fbFilt := 0, outGain := 1, fbScale := 0, enabled := enabled, aeg := aegAt stage }
/-- A PEG at rest at level 16, the center of TC0. -/
def restingPeg : Peg := { stage := .idle, raw := 16, target := 16, step := 0, rising := false }
/-- An LFO with random state 1. -/
def freshLfo : Lfo := { p := 0, e := 0, val := 0, inc := 0, sh := 0, rng := 1, stepIdx := 0, wrap := false }
/-- A voice on `note` whose operators are all as `opAt`. -/
def voiceAt (note : U7) (gate : Bool) (enabled : Bool) (stage : Stage) : Voice :=
  { note := note, velocity := 100, gate := gate, sustained := false, justAllocated := false, portaStart := 60, portaTarget := 60,
    portaPos := 1, pm := Quad.replicate 0, am := Quad.replicate 0, algId := 0, lfoCur := 0,
    op := Quad.replicate (opAt enabled stage), peg := restingPeg, lfo := freshLfo }
/-- A voice that sounds and is held on note 60. -/
def held : Voice := voiceAt 60 true true .sustain
/-- A voice that is idle. -/
def idle : Voice := voiceAt 0 false true .idle
/-- A state with the given current patch and pool, everything else as after reset but a pedal that may be down. -/
def stateWith (c : Cfg) (cur : Memory) (pedal : Bool) (voices : List Voice) : State :=
  { State.powerOn c with cur := cur, ctl := { Controls.initial with sustain := pedal }, voices := voices }
/-- The mode byte of a patch that is zero elsewhere. -/
def modePatch (mode : Byte) : Memory := [(0x0D, mode)]

/-! Witnesses: for each statement with hypotheses, a state and operands that meet them all, each clause at a boundary of its range. -/

theorem witness_DecodeOfEncodeIsIdentity : WellFormed (.opParam 255 255 255) := by decide
theorem witness_DecoderReadsExactlyTheUsedFields : ((0x0BFF0001 : Word) >>> 24).toNat < 0x0C ∧ decode 0x01FF00AB = .ok (.noteOn 255 0) := by decide
theorem witness_StepRunsTheDecodedCommand :
    (presentCommand 0x013C6400 State.reset).port = 0x013C6400 :: [] ∧ decode 0x013C6400 = .ok (.noteOn 60 100) := ⟨rfl, by decide⟩
theorem witness_IdleCoreHoldsItsState : State.reset.port = [] := rfl
theorem witness_NopAndReservedOpcodesChangeNothing :
    (presentCommand 0x00ABCDEF State.reset).port = 0x00ABCDEF :: [] ∧ ((0x00ABCDEF : Word) >>> 24).toNat = 0 ∧
    0x0C ≤ ((0x0C000000 : Word) >>> 24).toNat ∧ 0x0C ≤ ((0xFF000000 : Word) >>> 24).toNat := ⟨rfl, by decide, by decide, by decide⟩
theorem witness_SysResetRestoresPowerOn : State.reset.voices.length = Config.cfg.numVoices := State.powerOn_pool_size _

/-- A sound state that is not the one after reset: a byte stands in the staging patch and a command waits. -/
def soundState : State := { State.reset with stg := [(0x10, 11)], port := [0x07000000] }
theorem witness_StepKeepsSound : Sound Config.cfg soundState ∧ step soundState = exec .applyPatch { soundState with port := [] } ∧
    Voice.powerOn Config.cfg 0 ∈ soundState.voices := by
  refine ⟨⟨by decide, rfl, by simp [soundState, State.reset, State.powerOn], Nat.zero_le _, fun _ => rfl,
    fun h _ => absurd rfl h, State.powerOn_pool_size _, ?_, le_refl 0, ?_⟩, rfl,
    List.mem_map.mpr ⟨0, List.mem_range.mpr Config.cfg.valid.numVoices_pos, rfl⟩⟩
  · intro x hx
    simp only [soundState, State.reset, State.powerOn_voices, List.mem_map, List.mem_range] at hx
    obtain ⟨v, hv, rfl⟩ := hx
    exact voiceReset_sound Config.cfg [] (v := Voice.powerOn Config.cfg v)
      (fun i => by simp [Voice.powerOn, Operator.powerOn]) (Config.cfg.valid.lfoSeed_ne v hv)
  · intro p hp
    simp [soundState, State.reset] at hp

theorem witness_BadNoteIsIgnored : 127 < 128 := by decide
theorem witness_NoteOnActionTable :
    enumMode (memRead [] 0x0D) = .poly ∧ enumMode (memRead (modePatch 1) 0x0D) = .monoFull ∧ enumMode (memRead (modePatch 2) 0x0D) = .monoLegato ∧ enumMode (memRead (modePatch 255) 0x0D) = .monoLegato ∧
    held.gate = true ∧ idle.gate = false ∧ isActive held = true ∧ isActive idle = false ∧
    (({ Controls.initial with portaTimeSec := 1 } : Controls).portaEnable = true ∧ 0 < ({ Controls.initial with portaTimeSec := 1 } : Controls).portaTimeSec) ∧
    ¬ (Controls.initial.portaEnable = true ∧ 0 < Controls.initial.portaTimeSec) := by decide +kernel
theorem witness_PolyNoteOnTakesFirstFreeVoice :
    127 ≤ 127 ∧ enumMode (memRead (stateWith Config.cfg [] false [held, idle]).cur 0x0D) = .poly ∧
    (stateWith Config.cfg [] false [held, idle]).voices[1]? = some idle ∧ isActive idle = false ∧
    ∀ (u : Nat) (y : Voice), u < 1 → (stateWith Config.cfg [] false [held, idle]).voices[u]? = some y → isActive y = true := by
  refine ⟨by decide, rfl, rfl, by decide, fun u y hu hy => ?_⟩
  have h0 : u = 0 := by omega
  subst h0
  cases hy
  decide
theorem witness_PolyNoteOnStealsFirstLeastScore :
    enumMode (memRead (stateWith Config.cfg [] false [held, held]).cur 0x0D) = .poly ∧ (stateWith Config.cfg [] false [held, held]).voices ≠ [] ∧
    ∀ x ∈ (stateWith Config.cfg [] false [held, held]).voices, isActive x = true := by
  refine ⟨rfl, by simp [stateWith], fun x hx => ?_⟩
  simp only [stateWith, List.mem_cons, List.not_mem_nil, or_false, or_self] at hx
  subst hx
  decide
theorem witness_MonoNoteOnPlaysVoiceZero :
    enumMode (memRead (stateWith Config.cfg (modePatch 1) false [held]).cur 0x0D) ≠ .poly ∧
    (stateWith Config.cfg (modePatch 1) false [held]).voices[0]? = some held ∧
    (stateWith Config.cfg (modePatch 1) false [held]).alloc.stack.length = Config.cfg.noteStackCap ∧
    (stateWith Config.cfg (modePatch 1) false [held]).alloc.depth < Config.cfg.noteStackCap :=
  ⟨by show enumMode (memRead (modePatch 1) 0x0D) ≠ .poly; decide, rfl, by simp [stateWith, State.powerOn], Config.cfg.valid.noteStackCap_pos⟩
/-- The same with the stack full. -/
def fullStack : State :=
  { stateWith Config.cfg (modePatch 2) false [held] with
    alloc := { stack := List.replicate Config.cfg.noteStackCap 60, depth := Config.cfg.noteStackCap, monoActive := true } }
theorem witness_MonoNoteOnPlaysVoiceZero_full :
    enumMode (memRead fullStack.cur 0x0D) ≠ .poly ∧ fullStack.voices[0]? = some held ∧ fullStack.alloc.stack.length = Config.cfg.noteStackCap ∧
    Config.cfg.noteStackCap ≤ fullStack.alloc.depth :=
  ⟨by show enumMode (memRead (modePatch 2) 0x0D) ≠ .poly; decide, rfl, by simp [fullStack], le_refl _⟩
theorem witness_OverlapKeepsLevelsIsolatedRetriggers :
    (stateWith Config.cfg (modePatch 1) false [held]).voices[0]? = some held ∧ held.gate = true ∧
    enumMode (memRead (stateWith Config.cfg (modePatch 1) false [held]).cur 0x0D) = .monoFull ∧
    (stateWith Config.cfg (modePatch 2) false [idle]).voices[0]? = some idle ∧ idle.gate = false ∧
    enumMode (memRead (stateWith Config.cfg (modePatch 2) false [idle]).cur 0x0D) = .monoLegato :=
  ⟨rfl, rfl, by show enumMode (memRead (modePatch 1) 0x0D) = _; decide, rfl, rfl, by show enumMode (memRead (modePatch 2) 0x0D) = _; decide⟩
theorem witness_PolyNoteOffReleasesFirstMatch :
    60 ≤ 127 ∧ enumMode (memRead (stateWith Config.cfg [] false [idle, held]).cur 0x0D) = .poly ∧
    (stateWith Config.cfg [] false [idle, held]).voices[1]? = some held ∧ isActive held = true ∧ held.gate = true ∧ held.note = u7Nat 60 ∧
    (∀ (u : Nat) (y : Voice), u < 1 → (stateWith Config.cfg [] false [idle, held]).voices[u]? = some y →
      ¬ (isActive y = true ∧ y.gate = true ∧ y.note = u7Nat 60)) ∧
    (∀ x ∈ (stateWith Config.cfg [] false [idle]).voices, ¬ (isActive x = true ∧ x.gate = true ∧ x.note = u7Nat 60)) := by
  refine ⟨by decide, rfl, rfl, by decide, rfl, by decide, fun u y hu hy => ?_, fun x hx => ?_⟩
  · have h0 : u = 0 := by omega
    subst h0
    cases hy
    decide
  · simp only [stateWith, List.mem_cons, List.not_mem_nil, or_false] at hx
    subst hx
    decide
/-- Notes 60 and 64 on the stack, as in R287's example. -/
def twoNotes : Alloc := { stack := [60, 64, 0], depth := 2, monoActive := true }
/-- Note 60 alone on the stack. -/
def oneNote : Alloc := { stack := [60, 64, 0], depth := 1, monoActive := true }
/-- A sound state in mono-full mode with note 60 alone on the stack and every voice held. -/
def monoHeld : State :=
  { State.reset with
    cur := modePatch 1
    alloc := { stack := List.replicate Config.cfg.noteStackCap 60, depth := 1, monoActive := true }
    voices := State.reset.voices.map fun v => { v with gate := true } }
theorem monoHeld_voice : monoHeld.voices[0]? = some { Voice.powerOn Config.cfg 0 with gate := true } := by
  simp [monoHeld, State.reset, List.getElem?_map, List.getElem?_range Config.cfg.valid.numVoices_pos]
theorem monoHeld_sound : Sound Config.cfg monoHeld := by
  refine ⟨rfl, by decide, by simp [monoHeld], Config.cfg.valid.noteStackCap_pos, fun h => absurd h (by decide), fun _ _ x hx => ?_,
    by simp [monoHeld, State.reset], ?_, le_refl 0, ?_⟩
  · rw [monoHeld_voice] at hx
    cases hx
    rfl
  · intro x hx
    simp only [monoHeld, State.reset, State.powerOn_voices, List.mem_map, List.mem_range] at hx
    obtain ⟨_, ⟨v, hv, rfl⟩, rfl⟩ := hx
    have h := voiceReset_sound Config.cfg [] (v := Voice.powerOn Config.cfg v)
      (fun i => by simp [Voice.powerOn, Operator.powerOn]) (Config.cfg.valid.lfoSeed_ne v hv)
    exact ⟨h.1, h.2.1, h.2.2.1, h.2.2.2.1, h.2.2.2.2.1, rfl, fun e => by cases e⟩
  · intro p hp
    simp [monoHeld, State.reset] at hp
/-- One state meets every premise: releasing 60 empties the stack, releasing 61, which is not on it, leaves note 60. -/
theorem witness_MonoNoteOffReleasesOrFallsBack :
    60 ≤ 127 ∧ 61 ≤ 127 ∧ enumMode (memRead monoHeld.cur 0x0D) ≠ .poly ∧
    monoHeld.voices[0]? = some { Voice.powerOn Config.cfg 0 with gate := true } ∧
    monoHeld.alloc.depth ≤ monoHeld.alloc.stack.length ∧ Sound Config.cfg monoHeld ∧
    (allocRemove (u7Nat 60) monoHeld.alloc).depth = 0 ∧ (allocRemove (u7Nat 61) monoHeld.alloc).depth ≠ 0 := by
  have hc : 0 < Config.cfg.noteStackCap := Config.cfg.valid.noteStackCap_pos
  refine ⟨by decide, by decide, by decide, monoHeld_voice, by simp [monoHeld]; omega, monoHeld_sound, ?_, ?_⟩ <;>
    rw [allocRemove_depth] <;> simp [monoHeld, lastIndexOf, hc] <;> decide
theorem witness_AllNotesOffIsPedalAware : isActive held = true ∧ held.gate = true ∧ isActive idle = false := by decide
theorem witness_PushAppendsOrIsDropped :
    twoNotes.stack.length = tc0.noteStackCap ∧ twoNotes.depth < tc0.noteStackCap ∧ tc0.noteStackCap ≤ ({ twoNotes with depth := 3 } : Alloc).depth := by
  decide
/-- Note 60 twice on the stack. -/
def repeated : Alloc := { stack := [60, 64, 60], depth := 3, monoActive := true }
theorem witness_RemoveTakesMostRecentEntry :
    repeated.depth ≤ repeated.stack.length ∧ 2 < repeated.depth ∧ repeated.stack[2]? = some 60 ∧
    (∀ m : Nat, 2 < m → m < repeated.depth → repeated.stack[m]? ≠ some 60) ∧
    (∀ k : Nat, k < repeated.depth → repeated.stack[k]? ≠ some 61) := by
  refine ⟨by decide, by decide, by decide, fun m h1 h2 => ?_, by decide⟩
  have h3 : m < 3 := h2
  omega
theorem witness_FindVoicePolyPrefersFree :
    (stateWith tc0 [] false [idle, held]).voices ≠ [] ∧ (stateWith tc0 [] false [idle, held]).voices[0]? = some idle ∧
    isActive idle = false ∧ (∀ (u : Nat) (y : Voice), u < 0 → (stateWith tc0 [] false [idle, held]).voices[u]? = some y → isActive y = true) ∧
    ∀ x ∈ (stateWith tc0 [] false [held]).voices, isActive x = true := by
  refine ⟨by simp [stateWith], rfl, by decide, fun u _ hu => absurd hu (Nat.not_lt_zero u), fun x hx => ?_⟩
  simp only [stateWith, List.mem_cons, List.not_mem_nil, or_false] at hx
  subst hx
  decide
theorem witness_PolyModeNeverWritesStack :
    enumMode (memRead State.reset.cur 0x0D) = .poly ∧ exec (.noteOn 60 100) State.reset = .next (cmdNoteOn Config.cfg 60 100 State.reset) ∧
    Instr.noteOn 60 100 ≠ .allNotesOff ∧ Instr.noteOn 60 100 ≠ .allSoundOff ∧ Instr.noteOn 60 100 ≠ .applyPatch ∧
    Instr.noteOn 60 100 ≠ .sysReset := ⟨rfl, rfl, by decide, by decide, by decide, by decide⟩
theorem witness_CtrlChangeById :
    (stateWith Config.cfg [] true [held]).ctl.sustain = true ∧ 63 < 64 ∧ (stateWith Config.cfg [] false [held]).ctl.sustain = false ∧
    5 ≤ 5 := ⟨rfl, by decide, rfl, by decide⟩
theorem witness_PitchBendSetsSemitones :
    (presentCommand 0x0400E000 State.reset).port = 0x0400E000 :: [] ∧ ((0x0400E000 : Word) >>> 24).toNat = 4 := ⟨rfl, by decide⟩
theorem witness_PatchWrWritesOneStagingByte :
    Memory.wf State.reset.stg = true ∧ 255 < 256 ∧ 149 ≤ 149 ∧ 149 < 150 := ⟨rfl, by decide, by decide, by decide⟩
theorem witness_OpParamWritesOneCurrentByte :
    Memory.wf State.reset.cur = true ∧ 255 < 256 ∧ 3 ≤ 3 ∧ 27 ≤ 27 ∧ 3 < 4 ∧ 27 < 28 :=
  ⟨rfl, by decide, by decide, by decide, by decide, by decide⟩
theorem witness_RenderIsTickedPool : 1 ≤ 1 := by decide
theorem witness_InactiveVoicesAreSkipped :
    (∀ x ∈ (stateWith Config.cfg [] false [idle]).voices, isActive x = false) ∧
    (stateWith Config.cfg [] false [held, idle]).voices[1]? = some idle ∧ isActive idle = false := by
  refine ⟨fun x hx => ?_, rfl, by decide⟩
  simp only [stateWith, List.mem_cons, List.not_mem_nil, or_false] at hx
  subst hx
  decide
theorem witness_VoicesDoNotInterfere :
    (stateWith Config.cfg [] false [held, held]).cur = (stateWith Config.cfg [] false [idle, held]).cur ∧
    (stateWith Config.cfg [] false [held, held]).ctl = (stateWith Config.cfg [] false [idle, held]).ctl ∧
    (stateWith Config.cfg [] false [held, held]).voices[1]? = some held ∧
    (stateWith Config.cfg [] false [idle, held]).voices[1]? = some held := ⟨rfl, rfl, rfl, rfl⟩
theorem witness_StepMixesTheAlgorithmOrIsSilent :
    held.algId.toNat = (0 : Fin 12).val ∧ ({ held with algId := 11 } : Voice).algId.toNat = (11 : Fin 12).val ∧
    (stateWith Config.cfg [] false [{ held with algId := 12 }]).voices[0]? = some { held with algId := 12 } ∧
    11 < ({ held with algId := 12 } : Voice).algId.toNat ∧ isActive { held with algId := 12 } = true ∧
    ({ held with algId := 12 } : Voice).justAllocated = false := ⟨by decide, by decide, rfl, by decide, by decide, rfl⟩
theorem witness_WritersOfEachStore :
    exec (.patchWr 16 11) State.reset = .next (cmdPatchWr 16 11 State.reset) ∧ exec (.render 1) State.reset = .next (cmdRender Config.cfg 1 State.reset) :=
  ⟨rfl, rfl⟩
theorem witness_SilentUntilAPatchIsApplied :
    NoneEnabled (stateWith Config.cfg [] false [voiceAt 60 true false .sustain]) ∧
    exec (.noteOn 60 100) (stateWith Config.cfg [] false [voiceAt 60 true false .sustain]) =
      .next (cmdNoteOn Config.cfg 60 100 (stateWith Config.cfg [] false [voiceAt 60 true false .sustain])) := by
  refine ⟨⟨fun i => rfl, fun x hx i => ?_⟩, rfl⟩
  simp only [stateWith, List.mem_cons, List.not_mem_nil, or_false] at hx
  subst hx
  simp [voiceAt, opAt]
theorem witness_UpdateModsComputesInputs :
    Controls.initial.portaTimeSec ≤ 0 ∧ ({ Controls.initial with portaTimeSec := 1 } : Controls).portaEnable = true ∧
    (0 : Num) < ({ Controls.initial with portaTimeSec := 1 } : Controls).portaTimeSec ∧ ({ held with portaPos := 0 } : Voice).portaPos < 1 ∧
    1 ≤ held.portaPos := by decide +kernel
theorem witness_PortamentoArrivesOnTime :
    tc0.num = .exact ∧ ({ Controls.initial with portaTimeSec := 1 / 60 } : Controls).portaEnable = true ∧
    (0 : Num) < ({ Controls.initial with portaTimeSec := 1 / 60 } : Controls).portaTimeSec := ⟨rfl, rfl, by norm_num⟩
theorem witness_StealingScoreLineByLine :
    isActive idle = false ∧ isActive held = true ∧ ({ held with justAllocated := true } : Voice).justAllocated = true ∧ held.justAllocated = false ∧
    11 < ({ held with algId := 12 } : Voice).algId.toNat ∧ ({ held with algId := 11 } : Voice).algId.toNat = (11 : Fin 12).val ∧
    ({ held with velocity := 0 } : Voice).velocity = 0 ∧ tc0.num = .exact ∧ (0 : Num) ≤ 1 ∧ (∀ i, aegOut tc0 (held.op.get i).aeg ≤ 1) ∧
    Sound Config.cfg monoHeld ∧ ({ Voice.powerOn Config.cfg 0 with gate := true } : Voice) ∈ monoHeld.voices :=
  ⟨by decide, by decide, rfl, rfl, by decide, by decide, rfl, rfl, zero_le_one, by decide +kernel, monoHeld_sound, List.mem_of_getElem? monoHeld_voice⟩
theorem witness_ComputeOneSample : (opAt false .attack).enabled = false ∧ (opAt true .attack).enabled = true := by decide
theorem witness_PhaseStaysInUnitInterval : 0 ≤ (opAt true .attack).phase ∧ (opAt true .attack).phase < 1 := by decide +kernel
theorem witness_UnmodulatedOperatorIsPureSine :
    tc0.num = .exact ∧ (opAt true .sustain).enabled = true ∧ (opAt true .sustain).fbScale = 0 ∧ (opAt true .sustain).phase = 0 := by
  decide +kernel
/-- Each premise of the AEG's table: a ramp that arrives in each stage (it stands at its target), one that does not, and the stages that hold. -/
theorem witness_AegTransitionTable :
    (∀ s : Stage, (aegAt s).stage = s ∧ tc0.sub (aegAt s).raw (aegAt s).step ≤ (aegAt s).target) ∧
    ¬ (tc0.sub ({ aegAt .attack with raw := 2 } : Aeg).raw 0 ≤ (aegAt .attack).target) := by
  refine ⟨fun s => ⟨rfl, ?_⟩, ?_⟩
  · show tc0.sub 1 0 ≤ 1; decide +kernel
  · show ¬ (tc0.sub 2 0 ≤ 1); decide +kernel
/-- An Operator block whose ATTACK level is 127 (operator 0, offset 5). -/
def loudAttack : Memory := [(43, 127)]
theorem witness_RisingMapMeetsBothEndpoints :
    tc0.num = .exact ∧ Stage.attack ≠ .sustain ∧ Stage.attack ≠ .idle ∧ 0 ≤ ({ aegAt .idle with raw := 1 / 2 } : Aeg).raw ∧
    ({ aegAt .idle with raw := 1 / 2 } : Aeg).raw < tc0.egLevel (u7 (memRead loudAttack (38 + 28 * (0 : Fin 4).val + (5 + stageIdx .attack)))) := by decide +kernel
/-- R158's example: ATTACK, rising, `raw = 1/2`, `k = 1`, `c = 0`, whose output 1/4 is `EG_GAIN(1/7)`. -/
def risingAeg : Aeg := { stage := .attack, raw := 1 / 2, target := 1, step := 1 / 2, rising := true, k := 1, c := 0 }
theorem witness_OutputContinuousAtSoftGates :
    tc0.num = .exact ∧ risingAeg.stage ≠ .idle ∧ ∃ x, tc0.InEgRange x ∧ aegOut tc0 risingAeg = tc0.egGain x :=
  ⟨rfl, by decide, 1 / 7, ⟨by norm_num, 127, by show (1 / 7 : Rat) ≤ ((127 : U7).val : Rat) / 127; decide +kernel⟩, by decide +kernel⟩
/-- As for the AEG. -/
theorem witness_PegTransitionTable :
    (∀ s : Stage, ({ restingPeg with stage := s } : Peg).stage = s ∧ tc0.sub restingPeg.raw restingPeg.step ≤ restingPeg.target) ∧
    ¬ (tc0.sub ({ restingPeg with raw := 17 } : Peg).raw 0 ≤ restingPeg.target) := by
  refine ⟨fun s => ⟨rfl, ?_⟩, ?_⟩
  · show tc0.sub 16 0 ≤ 16; decide +kernel
  · show ¬ (tc0.sub 17 0 ≤ 16); decide +kernel
/-- All four PEG level bytes at the center. -/
def flatPatch : Memory := [(0x19, 64), (0x1A, 64), (0x1B, 64), (0x1C, 64)]
theorem witness_FlatPegIsConstant :
    tc0.num = .exact ∧ (∀ k, k < 4 → u7 (memRead flatPatch (0x19 + k)) = 64) ∧ restingPeg.raw = tc0.pegLevel 64 ∧
    restingPeg.target = tc0.pegLevel 64 ∧ 0 ≤ restingPeg.step := by
  refine ⟨rfl, by decide, ?_, ?_, ?_⟩ <;> decide +kernel
theorem witness_XorshiftKeepsNonzero : (1 : Word) ≠ 0 := by decide
theorem freshLfo_sound : LfoSound tc0 freshLfo :=
  ⟨⟨le_refl 0, zero_lt_one⟩, by decide, ⟨by show (-1 : Rat) ≤ 0; norm_num, zero_le_one⟩, 0, Nat.zero_le _⟩
theorem witness_LfoStaysInRange : LfoSound tc0 freshLfo ∧ 1 ≤ 1 ∧ enumLfoWave (memRead [(0x11, 4)] 0x11) = .square :=
  ⟨freshLfo_sound, le_refl 1, by decide⟩
theorem witness_SampleAndHoldRedraws :
    enumLfoWave (memRead [(0x11, 5)] 0x11) = .sh8 ∧ min (tc0.mul 8 (1 / 8)).floor.toNat 7 ≠ freshLfo.stepIdx.val ∧
    min (tc0.mul 8 freshLfo.p).floor.toNat 7 = freshLfo.stepIdx.val ∧
    enumLfoWave (memRead [(0x11, 6)] 0x11) = .shFree ∧ ({ freshLfo with wrap := true } : Lfo).wrap = true ∧ freshLfo.wrap = false ∧
    enumLfoWave (memRead [(0x11, 4)] 0x11) ≠ .sh8 ∧ enumLfoWave (memRead [(0x11, 4)] 0x11) ≠ .shFree := by
  refine ⟨by decide, ?_, ?_, by decide, rfl, rfl, by decide, by decide⟩ <;> decide +kernel
theorem witness_LfoLineMeetsNextBlock : tc0.num = .exact ∧ 1 ≤ 1 ∧ enumLfoWave (memRead [] 0x11) ≠ .square ∧ enumLfoWave (memRead [] 0x11) ≠ .sh8 ∧
    enumLfoWave (memRead [] 0x11) ≠ .shFree := ⟨rfl, le_refl 1, by decide, by decide, by decide⟩
theorem witness_LfoValueIsBounded :
    tc0.num = .exact ∧ (∀ p, 0 ≤ p → p < 1 → -1 ≤ tc0.sine p ∧ tc0.sine p ≤ 1) ∧ LfoSound tc0 freshLfo := by
  refine ⟨rfl, fun p h0 h1 => ?_, freshLfo_sound⟩
  show -1 ≤ triangle p ∧ triangle p ≤ 1
  unfold triangle
  split_ifs <;> constructor <;> linarith

/-- Each waveform's patch byte (R102), and a phase on each side of each of R207's borders. -/
theorem witness_LfoBlockUpdateWritesEveryElement :
    enumLfoWave (memRead [] 0x11) = .sine ∧ enumLfoWave (memRead [(0x11, 3)] 0x11) = .sawDown ∧ enumLfoWave (memRead [(0x11, 4)] 0x11) = .square ∧
    enumLfoWave (memRead [(0x11, 6)] 0x11) = .shFree ∧ 1 ≤ 1 ∧ (0 : Num) < 1 / 4 ∧ ((1 / 4 : Num) ≤ 1 / 4 ∧ (1 / 4 : Num) < 3 / 4) ∧
    (3 / 4 : Num) ≤ 3 / 4 ∧ (1 / 2 : Num) ≤ 1 / 2 ∧ 1 ≠ 0 := by decide +kernel
theorem witness_OperationsRoundTheirExactResult :
    tc0.num = .exact ∧ b32.num = .binary32 ∧ |(1 : Num) + 1| < 2 ^ 128 - 2 ^ 103 ∧ |(1 : Num) - 1| < 2 ^ 128 - 2 ^ 103 ∧
    |(1 : Num) * 1| < 2 ^ 128 - 2 ^ 103 ∧ (3 : Num) ≠ 0 ∧ |(1 : Num) / 3| < 2 ^ 128 - 2 ^ 103 ∧ |((16777217 : Int) : Num)| < 2 ^ 128 - 2 ^ 103 ∧
    |((16777217 : Nat) : Num)| < 2 ^ 128 - 2 ^ 103 ∧ (-1 : Num) < 0 ∧ (1 : Num) < 2 ∧ (0 : Num) ≤ 2 ∧ (0 : Num) ≤ 1 := by
  refine ⟨rfl, rfl, ?_⟩
  norm_num [abs_lt]

/-! Single operations against the spec's worked values, under TC0. -/

/-- Capacity 3: pushes of 60, 64, 67, 72 leave [60, 64, 67] (R281). -/
theorem test_push_drops :
    allocPush tc0 72 (allocPush tc0 67 (allocPush tc0 64 (allocPush tc0 60 { stack := [0, 0, 0], depth := 0, monoActive := false }))) =
      { stack := [60, 64, 67], depth := 3, monoActive := false } := by decide
/-- `remove(64)` from [60, 64, 67] leaves 60, 67 below depth 2 (R282). -/
theorem test_remove_shifts :
    (allocRemove 64 { stack := [60, 64, 67], depth := 3, monoActive := true }).stack.take 2 = [60, 67] ∧
    (allocRemove 64 { stack := [60, 64, 67], depth := 3, monoActive := true }).depth = 2 := by decide
/-- R154's example: ATTACK from 0 with level and rate bytes 127. -/
theorem test_aeg_enter :
    aegEnter tc0 [(39, 127), (43, 127)] 0 .attack { aegAt .idle with raw := 0 } =
      { stage := .attack, raw := 0, target := 1, step := 1 / 2, rising := true, k := 1, c := 0 } := by decide +kernel
/-- R155's example: two ticks later the stage is DECAY1 toward 0, `step = 1/64` (`egRate[1] = 63`). -/
theorem test_aeg_tick :
    aegTick tc0 [(40, 63)] 0 risingAeg =
      { stage := .decay1, raw := 1, target := 0, step := 1 / 64, rising := false, k := 1, c := 0 } := by decide +kernel
/-- R158's example: gate-off re-expresses the level as 1/7, and the output stays 1/4. -/
theorem test_aeg_gateOff :
    (aegGateOff tc0 [] 0 risingAeg).raw = 1 / 7 ∧ (aegGateOff tc0 [] 0 risingAeg).stage = .release ∧
    aegOut tc0 (aegGateOff tc0 [] 0 risingAeg) = 1 / 4 := by decide +kernel
/-- R183's example: DECAY1 at 18 toward 16 falls by 11/20. -/
theorem test_peg_enter :
    (pegEnter tc0 [(0x16, 63), (0x1A, 64)] .decay1 { restingPeg with raw := 18 }).step = 11 / 20 := by decide +kernel
/-- R203's example: the first sync draws 0x00042021. -/
theorem test_lfo_sync : (lfoSync tc0 freshLfo).rng = 0x00042021 ∧ (lfoSync tc0 freshLfo).sh = 270369 / 2147483648 - 1 := by decide +kernel
/-- R212's example 2, block 1: SINE at 15 Hz, delay 8, four samples: value 0, increment 1/8. -/
theorem test_lfo_block :
    (lfoBlockUpdate tc0 [(0x12, 60), (0x13, 8)] 4 freshLfo).val = 0 ∧ (lfoBlockUpdate tc0 [(0x12, 60), (0x13, 8)] 4 freshLfo).inc = 1 / 8 ∧
    (lfoBlockUpdate tc0 [(0x12, 60), (0x13, 8)] 4 freshLfo).p = 1 / 4 := by decide +kernel
/-- R130's example: the second call, at phase 1/8, returns `SINE(1/8) = 1/2` and leaves phase 2/8. -/
theorem test_compute :
    (operCompute tc0 [] 0 0 0 { opAt true .sustain with phase := 1 / 8, inc := 1 / 8 }).1 = 1 / 2 ∧
    (operCompute tc0 [] 0 0 0 { opAt true .sustain with phase := 1 / 8, inc := 1 / 8 }).2.phase = 2 / 8 := by decide +kernel
/-- R8 (b): 1/10 is the binary32 value 13421773 / 2^27; 2^24 + 1 lies between two values and goes to the even one; 2^-150 goes to 0. -/
theorem test_binary32 : b32.div 1 10 = 13421773 / 134217728 ∧ b32.add 16777216 1 = 16777216 ∧ b32.add 16777218 1 = 16777220 ∧
    b32.round (1 / 2 ^ 150) = 0 ∧ b32.round (3 / 2 ^ 150) = 1 / 2 ^ 148 := by decide +kernel
/-- R62, 90 C2: a transpose byte above 127 is read as 127; TC0's `TRANSPOSE(127)` is 63. -/
theorem test_transpose : noteTarget tc0 [(0x0C, 200)] 60 = 123 ∧ noteTarget tc0 [(0x0C, 64)] 60 = 60 := by decide
/-- R251's example: algorithm 0, carrier 0, operators 1 to 3 disabled, phase 1/8 and increment 1/8: the sample is 1/2, the phase 2/8. -/
theorem test_step :
    let x := { voiceAt 60 true false .sustain with op := ⟨{ opAt true .sustain with phase := 1 / 8, inc := 1 / 8 }, opAt false .sustain,
      opAt false .sustain, opAt false .sustain⟩ }
    (voiceStep tc0 [] Controls.initial x).1 = 1 / 2 ∧ ((voiceStep tc0 [] Controls.initial x).2.op.get 0).phase = 2 / 8 := by decide +kernel
/-- R242's example: `portaTimeSec = 1/60` moves a quarter of the glide per sample. -/
theorem test_porta : portaAdvance tc0 { Controls.initial with portaTimeSec := 1 / 60 } 0 = 1 / 4 := by decide +kernel
/-- R262's example: carriers 0 and 2 at 1 and 1/2, velocity 100, held: `3/2 × INV_SQRT2 × 100`; released, a tenth of it. -/
theorem test_score :
    calcScore tc0 { held with algId := 4, op := ⟨opAt true .sustain, opAt true .sustain,
      { opAt true .sustain with aeg := { aegAt .sustain with raw := 1 / 3 } }, opAt true .sustain⟩ } = 3 / 2 * (70711 / 100000) * 100 ∧
    calcScore tc0 { held with gate := false, algId := 4, op := ⟨opAt true .sustain, opAt true .sustain,
      { opAt true .sustain with aeg := { aegAt .sustain with raw := 1 / 3 } }, opAt true .sustain⟩ } =
      3 / 2 * (70711 / 100000) * 100 / 10 := by decide +kernel
/-- R304's example: `CTRL_CHANGE 0, 1` sets `portaTimeSec = 1/60`. -/
theorem test_ctrlChange : (applyInstr tc0 (.ctrlChange 0 1) (State.powerOn tc0)).ctl.portaTimeSec = 1 / 60 := by decide +kernel
/-- R305's example: with range byte 66, `PITCH_BEND -8192` is -2 semitones. -/
theorem test_pitchBend : (applyInstr tc0 (.pitchBend (-8192)) (stateWith tc0 [(0x0F, 66)] false [])).ctl.pitchBend = -2 := by decide +kernel
/-- R306's examples: `PATCH_WR 16, 11` and `PATCH_WR 150, 1`. -/
theorem test_patchWr : (applyInstr tc0 (.patchWr 16 11) (State.powerOn tc0)).stg = [(0x10, 11)] ∧
    (applyInstr tc0 (.patchWr 150 1) (State.powerOn tc0)).stg = [] := by decide +kernel
/-- R307's examples: `OP_PARAM 1, 0x12, 99` sets `CUR[84]`; `OP_PARAM 4, 0, 1` does nothing. -/
theorem test_opParam : (applyInstr tc0 (.opParam 1 0x12 99) (State.powerOn tc0)).cur = [(84, 99)] ∧
    (applyInstr tc0 (.opParam 4 0 1) (State.powerOn tc0)).cur = [] := by decide +kernel
/-- R308's example: after `PATCH_WR 16, 3`, `APPLY_PATCH` makes every `algId` 3. -/
theorem test_applyPatch : (applyInstr tc0 .applyPatch { State.powerOn tc0 with stg := [(0x10, 3)] }).voices.map (·.algId) = [3, 3, 3] := by
  decide +kernel
/-- R288's example: voices 0 and 1 hold 60 and 64; `NOTE_OFF 64` releases voice 1 only. -/
theorem test_noteOff :
    (applyInstr tc0 (.noteOff 64) (stateWith tc0 [] false [held, voiceAt 64 true true .sustain])).voices.map (fun v => (v.gate, (v.op.get 0).aeg.stage)) =
      [(true, .sustain), (false, .release)] := by decide +kernel
/-- R301's example: `NOTE_ON 60, 100` on an idle polyphonic pool runs action A on voice 0. -/
theorem test_noteOn :
    (applyInstr tc0 (.noteOn 60 100) (stateWith tc0 [] false [idle, idle])).voices.map (fun v => (v.note, v.velocity, v.gate)) =
      [(60, 100, true), (0, 100, false)] := by decide +kernel
/-- R310: `ALL_SOUND_OFF` makes every voice inactive. -/
theorem test_allSoundOff : (applyInstr tc0 .allSoundOff (stateWith tc0 [] true [held, held])).voices.map isActive = [false, false] := by
  decide +kernel
/-- R309: with the pedal down `ALL_NOTES_OFF` marks a held voice, which sounds on. -/
theorem test_allNotesOff :
    (applyInstr tc0 .allNotesOff (stateWith tc0 [] true [held])).voices.map (fun v => (v.gate, v.sustained, isActive v)) =
      [(false, true, true)] := by decide +kernel
/-- R311's example: `SYS_RESET`, then `RENDER 4` appends four pairs (0, 0). -/
theorem test_sysReset :
    (applyInstr tc0 (.render 4) (applyInstr tc0 .sysReset (stateWith tc0 [] true [held]))).out =
      [{ left := 0, right := 0 }, { left := 0, right := 0 }, { left := 0, right := 0 }, { left := 0, right := 0 }] := by decide +kernel

end Sys2Proof.Tests
end

/-! Rounding to binary32 (R8 (b)): the grid that `roundBinary32` rounds to, why the nearest point of the grid is the nearest binary32 value, and what that
gives of each NUM operation (R12, R133). -/

namespace Sys2Proof

theorem pow2_eq_zpow (e : Int) : pow2 e = (2 : Num) ^ e := by
  match e with
  | .ofNat n => simp [pow2]
  | .negSucc n => simp [pow2, zpow_negSucc]

/-- `ilog2` is the binary logarithm rounded down. -/
theorem ilog2_bounds {q : Num} (hq : 0 < q) : (2 : Num) ^ ilog2 q ≤ q ∧ q < (2 : Num) ^ (ilog2 q + 1) := by
  have h2 : (0 : Num) < 2 := two_pos
  obtain ⟨N, hN⟩ : ∃ N : Nat, q.num = N := Int.eq_ofNat_of_zero_le (Rat.num_pos.mpr hq).le
  have hN0 : N ≠ 0 := by have := Rat.num_pos.mpr hq; omega
  have hden : (0 : Num) < q.den := by exact_mod_cast q.den_pos
  have hqN : q * q.den = N := by rw [Rat.mul_den_eq_num, hN]; rfl
  have hNlo : (2 : Num) ^ N.log2 ≤ N := by exact_mod_cast Nat.log2_self_le hN0
  have hNhi : (N : Num) < 2 ^ (N.log2 + 1) := by exact_mod_cast Nat.lt_log2_self
  have hDlo : (2 : Num) ^ q.den.log2 ≤ q.den := by exact_mod_cast Nat.log2_self_le q.den_nz
  have hDhi : (q.den : Num) < 2 ^ (q.den.log2 + 1) := by exact_mod_cast Nat.lt_log2_self
  have hlo : (2 : Num) ^ ((N.log2 : Int) - q.den.log2 - 1) ≤ q := by
    rw [sub_sub, zpow_sub₀ h2.ne', div_le_iff₀ (by positivity)]
    calc (2 : Num) ^ (N.log2 : Int) ≤ q * q.den := by rw [hqN]; exact_mod_cast hNlo
      _ ≤ q * 2 ^ ((q.den.log2 : Int) + 1) := mul_le_mul_of_nonneg_left (by exact_mod_cast hDhi.le) hq.le
  have hhi : q < (2 : Num) ^ ((N.log2 : Int) - q.den.log2 + 1) := by
    rw [sub_add_eq_add_sub, zpow_sub₀ h2.ne', lt_div_iff₀ (by positivity)]
    calc q * 2 ^ (q.den.log2 : Int) ≤ q * q.den := mul_le_mul_of_nonneg_left (by exact_mod_cast hDlo) hq.le
      _ < 2 ^ ((N.log2 : Int) + 1) := by rw [hqN]; exact_mod_cast hNhi
  simp only [ilog2, pow2_eq_zpow, hN, Int.toNat_natCast]
  split_ifs with h
  · exact ⟨h, hhi⟩
  · exact ⟨hlo, by rw [sub_add_cancel]; exact not_le.mp h⟩

/-- `roundHalfEven` moves by at most one half, and by one half only to an even integer. -/
theorem roundHalfEven_close (y : Num) :
    |(roundHalfEven y : Num) - y| ≤ 1 / 2 ∧ (|(roundHalfEven y : Num) - y| = 1 / 2 → roundHalfEven y % 2 = 0) := by
  have h0 : (y.floor : Num) ≤ y := Rat.floor_le y
  have h1 : y < y.floor + 1 := by exact_mod_cast Rat.lt_floor_add_one y
  unfold roundHalfEven
  dsimp only
  split_ifs with hlt hgt heven
  · rw [abs_of_nonpos (by linarith)]
    exact ⟨by linarith, fun h => by linarith⟩
  · push_cast
    rw [abs_of_nonneg (by linarith)]
    exact ⟨by linarith, fun h => by linarith⟩
  · rw [abs_of_nonpos (by linarith)]
    exact ⟨by linarith, fun _ => heven⟩
  · push_cast
    rw [abs_of_nonneg (by linarith)]
    exact ⟨by linarith, fun _ => by omega⟩

/-- No integer is nearer than `roundHalfEven`. -/
theorem roundHalfEven_nearest (y : Num) (n : Int) : |(roundHalfEven y : Num) - y| ≤ |(n : Num) - y| := by
  rcases eq_or_ne (roundHalfEven y) n with rfl | hne
  · exact le_refl _
  · have hdist : (1 : Num) ≤ |(roundHalfEven y : Num) - n| := by exact_mod_cast Int.one_le_abs (sub_ne_zero.mpr hne)
    linarith [abs_sub_le (roundHalfEven y : Num) y n, abs_sub_comm y (n : Num), (roundHalfEven_close y).1]

/-- Where another integer is as near as `roundHalfEven`, the two are neighbours and `roundHalfEven` is the even one. -/
theorem roundHalfEven_tie {y : Num} {n : Int} (hne : n ≠ roundHalfEven y) (h : |(n : Num) - y| = |(roundHalfEven y : Num) - y|) :
    |(roundHalfEven y : Num) - n| = 1 ∧ ∃ k, roundHalfEven y = 2 * k := by
  obtain ⟨hhalf, heven⟩ := roundHalfEven_close y
  have hdist : (1 : Num) ≤ |(roundHalfEven y : Num) - n| := by exact_mod_cast Int.one_le_abs (sub_ne_zero.mpr hne.symm)
  have htri := abs_sub_le (roundHalfEven y : Num) y n
  rw [abs_sub_comm y (n : Num), h] at htri
  exact ⟨by linarith, roundHalfEven y / 2, by have := heven (by linarith); omega⟩

/-- The exponent of the unit in the last place at a magnitude `q` (R8 (b)): 24 significant bits, least exponent -126. -/
def ulpExp (q : Num) : Int := max (ilog2 q) (-126) - 23

/-- `roundBinary32` rounds a magnitude to a whole number of units in its last place. -/
theorem roundBinary32_of_pos {q : Num} (hq : 0 < q) :
    roundBinary32 q = (roundHalfEven (q / (2 : Num) ^ ulpExp q) : Num) * (2 : Num) ^ ulpExp q := by
  simp [roundBinary32, hq.ne', hq.not_gt, abs_of_pos hq, pow2_eq_zpow, ulpExp]

theorem roundBinary32_neg (q : Num) : roundBinary32 (-q) = -roundBinary32 q := by
  rcases lt_trichotomy q 0 with h | rfl | h
  · simp [roundBinary32, h, h.ne, h.not_gt]
  · simp [roundBinary32]
  · simp [roundBinary32, h, h.ne', h.not_gt]

theorem ulpExp_ge (q : Num) : -149 ≤ ulpExp q := by unfold ulpExp; omega

theorem ulpExp_le {q : Num} (hq : 0 < q) (h : q < 2 ^ 128) : ulpExp q ≤ 104 := by
  have : (2 : Num) ^ ilog2 q < 2 ^ (128 : Int) := (ilog2_bounds hq).1.trans_lt (by exact_mod_cast h)
  rw [zpow_lt_zpow_iff_right₀ one_lt_two] at this
  unfold ulpExp; omega

/-- A magnitude is below 2^24 units in its last place. -/
theorem div_ulp_lt {q : Num} (hq : 0 < q) : q / (2 : Num) ^ ulpExp q < 2 ^ 24 := by
  rw [div_lt_iff₀ (by positivity), ← zpow_natCast, ← zpow_add₀ two_ne_zero]
  exact (ilog2_bounds hq).2.trans_le (zpow_le_zpow_right₀ one_le_two (by unfold ulpExp; push_cast; omega))

/-- Every binary32 value is a multiple of the least unit, 2^-149. -/
theorem IsBinary32.multiple_least {z : Num} (hz : IsBinary32 z) : ∃ n : Int, z = (n : Num) * (2 : Num) ^ (-149 : Int) := by
  obtain ⟨m, e, -, he, -, rfl⟩ := hz
  refine ⟨m * 2 ^ (e + 149).toNat, ?_⟩
  have : (2 : Num) ^ e = (2 : Num) ^ (e + 149).toNat * (2 : Num) ^ (-149 : Int) := by
    rw [← zpow_natCast, ← zpow_add₀ two_ne_zero]; congr 1; omega
  rw [this]; push_cast; ring

/-- A binary32 value that is no multiple of the unit in the last place of `q` lies below `q`'s power of two, which is such a multiple and nearer to `q`. -/
theorem IsBinary32.multiple_or_farther {z q : Num} (hz : IsBinary32 z) (hq : 0 < q) :
    ∃ n : Int, z = n * (2 : Num) ^ ulpExp q ∨ |n * (2 : Num) ^ ulpExp q - q| < |z - q| := by
  rcases le_total (ilog2 q) (-126) with hsub | hnorm
  · rw [show ulpExp q = -149 by unfold ulpExp; omega]
    exact hz.multiple_least.imp fun _ => .inl
  · have hu : 23 + ulpExp q = ilog2 q := by unfold ulpExp; omega
    rcases le_or_gt ((2 : Num) ^ ilog2 q) |z| with hbig | hsmall
    · exact (hz.multiple (hu ▸ hbig)).imp fun _ => .inl
    · have hpow : ((2 ^ 23 : Int) : Num) * (2 : Num) ^ ulpExp q = (2 : Num) ^ ilog2 q := by
        rw [← hu, zpow_add₀ two_ne_zero]; norm_num
      have hle := (ilog2_bounds hq).1
      refine ⟨2 ^ 23, .inr ?_⟩
      rw [hpow, abs_of_nonpos (by linarith), abs_of_neg (by linarith [le_abs_self z])]
      linarith [le_abs_self z]

/-- At most 2^24 units within the exponent range, below the end of the finite range, are a binary32 value; 2^24 of them are 2^23 of the next exponent. -/
theorem isBinary32_of_le {m e : Int} (h0 : 0 ≤ m) (hm : m ≤ 2 ^ 24) (h1 : -149 ≤ e) (h2 : e ≤ 104) (hr : (m : Num) * (2 : Num) ^ e < 2 ^ 128) :
    IsBinary32 ((m : Num) * (2 : Num) ^ e) := by
  rcases hm.lt_or_eq with hlt | rfl
  · exact isBinary32_of_int e (by rwa [abs_of_nonneg h0]) h1 h2
  · have he : e < 104 := by
      have : (2 : Num) ^ (24 + e) < 2 ^ (128 : Int) := by rw [zpow_add₀ two_ne_zero]; exact_mod_cast hr
      rw [zpow_lt_zpow_iff_right₀ one_lt_two] at this
      omega
    have hnext : (((2 ^ 24 : Int)) : Num) * (2 : Num) ^ e = ((2 ^ 23 : Int) : Num) * (2 : Num) ^ (e + 1) := by
      rw [zpow_add_one₀ two_ne_zero]; push_cast; ring
    rw [hnext]
    exact isBinary32_of_int (e + 1) (by norm_num) (by omega) (by omega)

/-- No binary32 value is above the largest one. -/
theorem IsBinary32.abs_le_max {z : Num} (hz : IsBinary32 z) : |z| ≤ binary32Max := by
  obtain ⟨m, e, hm, -, he, rfl⟩ := hz
  have hm' : |(m : Num)| ≤ 2 ^ 24 - 1 := by exact_mod_cast Int.le_sub_one_of_lt hm
  rw [abs_mul, abs_of_pos (a := (2 : Num) ^ e) (by positivity)]
  calc |(m : Num)| * 2 ^ e ≤ (2 ^ 24 - 1) * 2 ^ (104 : Int) :=
        mul_le_mul hm' (zpow_le_zpow_right₀ one_le_two he) (by positivity) (by norm_num)
    _ = binary32Max := by rw [binary32Max, pow2_eq_zpow, pow2_eq_zpow]; norm_num

end Sys2Proof

namespace Sys2Proof.Machine

theorem nearestEven_zero : NearestEven 0 0 where
  value := ⟨0, 0, by norm_num, by norm_num, by norm_num, by norm_num⟩
  nearest z _ := by simp
  even z _ hne h := absurd (by simpa using h) hne

theorem isBinary32_neg {z : Num} (hz : IsBinary32 z) : IsBinary32 (-z) := by
  obtain ⟨m, e, hm, h1, h2, rfl⟩ := hz
  exact ⟨-m, e, by rwa [abs_neg], h1, h2, by push_cast; ring⟩

/-- Rounding to the nearest, ties to even, is symmetric about 0. -/
theorem NearestEven.neg {q r : Num} (h : NearestEven q r) : NearestEven (-q) (-r) := by
  have hflip (a b : Num) : |-a - -b| = |a - b| := by rw [neg_sub_neg, abs_sub_comm]
  have hmem {w : Num} (hw : IsBinary32 (-w)) : IsBinary32 w := neg_neg w ▸ isBinary32_neg hw
  refine ⟨isBinary32_neg h.value, fun z hz => ?_, fun z hz hne heq => ?_⟩ <;>
    obtain ⟨w, rfl⟩ : ∃ w, z = -w := ⟨-z, (neg_neg z).symm⟩
  · rw [hflip, hflip]
    exact h.nearest w (hmem hz)
  · rw [hflip, hflip] at heq
    obtain ⟨k, hk⟩ := h.even w (hmem hz) (fun hw => hne (hw ▸ rfl)) heq
    exact ⟨-k, by rw [hflip, Int.cast_neg]; linarith⟩

/-- Inside the finite range the rounded magnitude is a binary32 value. -/
theorem isBinary32_roundBinary32_of_pos {q : Num} (hq : 0 < q) (hfin : q < 2 ^ 128 - 2 ^ 103) : IsBinary32 (roundBinary32 q) := by
  have hu : (0 : Num) < 2 ^ ulpExp q := by positivity
  have hexp : ulpExp q ≤ 104 := ulpExp_le hq (by linarith)
  have hhalf := (abs_le.mp (roundHalfEven_close (q / 2 ^ ulpExp q)).1).2
  have hlt := div_ulp_lt hq
  rw [roundBinary32_of_pos hq]
  refine isBinary32_of_le (roundHalfEven_nonneg (by positivity)) ?_ (ulpExp_ge q) hexp ?_
  · have : ((roundHalfEven (q / 2 ^ ulpExp q) : Int) : Num) < ((2 ^ 24 + 1 : Int) : Num) := by push_cast; linarith
    exact Int.lt_add_one_iff.mp (by exact_mod_cast this)
  · have hle : (2 : Num) ^ ulpExp q ≤ 2 ^ (104 : Int) := zpow_le_zpow_right₀ one_le_two hexp
    calc (roundHalfEven (q / 2 ^ ulpExp q) : Num) * 2 ^ ulpExp q ≤ (q / 2 ^ ulpExp q + 1 / 2) * 2 ^ ulpExp q :=
          mul_le_mul_of_nonneg_right (by linarith) hu.le
      _ = q + 2 ^ ulpExp q / 2 := by field_simp
      _ < 2 ^ 128 := by norm_num at hle hfin ⊢; linarith

theorem nearestEven_roundBinary32_of_pos {q : Num} (hq : 0 < q) (hfin : q < 2 ^ 128 - 2 ^ 103) : NearestEven q (roundBinary32 q) := by
  have hu : (0 : Num) < 2 ^ ulpExp q := by positivity
  have hscale (m : Int) : |(m : Num) * 2 ^ ulpExp q - q| = |(m : Num) - q / 2 ^ ulpExp q| * 2 ^ ulpExp q := by
    rw [← abs_of_pos hu, ← abs_mul, abs_of_pos hu, sub_mul, div_mul_cancel₀ _ hu.ne']
  have hgrid (n : Int) : |roundBinary32 q - q| ≤ |(n : Num) * 2 ^ ulpExp q - q| := by
    rw [roundBinary32_of_pos hq, hscale, hscale]
    exact mul_le_mul_of_nonneg_right (roundHalfEven_nearest _ n) hu.le
  refine ⟨isBinary32_roundBinary32_of_pos hq hfin, fun z hz => ?_, fun z hz hne heq => ?_⟩ <;>
    obtain ⟨n, rfl | hfar⟩ := hz.multiple_or_farther hq
  · exact hgrid n
  · exact (hgrid n).trans hfar.le
  · rw [roundBinary32_of_pos hq] at hne heq ⊢
    rw [hscale, hscale] at heq
    obtain ⟨hdist, k, hk⟩ := roundHalfEven_tie (fun h => hne (h ▸ rfl)) (mul_right_cancel₀ hu.ne' heq)
    refine ⟨k, ?_⟩
    rw [← sub_mul, abs_mul, hdist, one_mul, abs_of_pos hu, hk]
    push_cast; rfl
  · exact absurd heq ((hgrid n).trans_lt hfar).ne'

/-- Below `2^128 - 2^103` in magnitude `roundBinary32` answers the nearest binary32 value, on a tie the even one (R8 (b)). -/
theorem nearestEven_roundBinary32 {q : Num} (hfin : |q| < 2 ^ 128 - 2 ^ 103) : NearestEven q (roundBinary32 q) := by
  obtain ⟨hlo, hhi⟩ := abs_lt.mp hfin
  rcases lt_trichotomy q 0 with hneg | rfl | hpos
  · have h := (nearestEven_roundBinary32_of_pos (q := -q) (by linarith) (by linarith)).neg
    rwa [roundBinary32_neg, neg_neg, neg_neg] at h
  · exact nearestEven_zero
  · exact nearestEven_roundBinary32_of_pos hpos hhi

/-- Under binary32 a result whose rounding is finite is stored as its nearest value (R8 (b)). -/
theorem nearestEven_round {c : Cfg} (hc : c.num = .binary32) {q : Num} (hfin : |q| < 2 ^ 128 - 2 ^ 103) : NearestEven q (c.round q) := by
  have h := nearestEven_roundBinary32 hfin
  have hstore : c.round q = roundBinary32 q := by
    simp only [Cfg.round, NumFormat.store, hc, if_pos h.value.abs_le_max]
  rwa [hstore]

/-- Under binary32 `frac` answers the nearest value of `x - floor(x)`, or 0 where that is 1 (R12, R133). -/
theorem nearestEven_frac {c : Cfg} (hc : c.num = .binary32) (x : Num) :
    NearestEven (x - (x.floor : Num)) (c.frac x) ∨ (NearestEven (x - (x.floor : Num)) 1 ∧ c.frac x = 0) := by
  have h0 : 0 ≤ x - (x.floor : Num) := sub_nonneg.mpr (Rat.floor_le x)
  have h1 : x - (x.floor : Num) < 1 := by linarith [show x < x.floor + 1 by exact_mod_cast Rat.lt_floor_add_one x]
  have h : NearestEven (x - (x.floor : Num)) (c.sub x x.floor) :=
    nearestEven_round hc (by rw [abs_of_nonneg h0]; linarith)
  simp only [Cfg.frac]
  split_ifs with hlt
  · exact .inl h
  · have hone : IsBinary32 1 := by simpa using isBinary32_of_int (m := 1) 0 (by norm_num) (by norm_num) (by norm_num)
    have hnear := h.nearest 1 hone
    rw [abs_of_nonneg (by linarith), abs_of_nonneg (by linarith)] at hnear
    have heq : c.sub x x.floor = 1 := by linarith
    exact .inr ⟨heq ▸ h, rfl⟩

/-- Under the exact NUM every operation answers its exact result (R8 (a)). -/
theorem exact_operations {c : Cfg} (hc : c.num = .exact) (x y : Num) :
    c.add x y = x + y ∧ c.sub x y = x - y ∧ c.mul x y = x * y ∧ (y ≠ 0 → c.div x y = x / y) ∧ c.frac x = x - (x.floor : Num) ∧
    c.round x = x ∧ (∀ n : Int, c.ofInt n = (n : Num)) ∧ ∀ n : Nat, c.ofNat n = (n : Num) :=
  ⟨Cfg.round_exact hc _, Cfg.round_exact hc _, Cfg.round_exact hc _, Cfg.div_exact hc x, Cfg.frac_exact hc x, Cfg.round_exact hc x,
    fun n => Cfg.round_exact hc n, fun n => Cfg.round_exact hc n⟩

/-- `clamp` by the three places its argument can stand in (R12). -/
theorem clamp_cases (x lo hi : Num) :
    (x < lo → clamp x lo hi = lo) ∧ (lo ≤ x → hi < x → clamp x lo hi = hi) ∧ (lo ≤ x → x ≤ hi → clamp x lo hi = x) := by
  refine ⟨fun h => ?_, fun h1 h2 => ?_, fun h1 h2 => ?_⟩
  · simp [clamp, h]
  · simp [clamp, h1.not_gt, h2]
  · simp [clamp, h1.not_gt, h2.not_gt]

/-- Settles O60: under the exact NUM nothing is rounded; under binary32 each operation is `Cfg.round` of its exact result, and `nearestEven_round` says what
that answers. -/
theorem operationsRoundTheirExactResult : Obligations.OperationsRoundTheirExactResult := by
  unfold Obligations.OperationsRoundTheirExactResult
  refine ⟨fun c x y hc => exact_operations hc x y, fun c x y hc => ?_, clamp_cases⟩
  have hdiv (hy : y ≠ 0) : c.div x y = c.round (x / y) := if_neg hy
  exact ⟨nearestEven_round hc, nearestEven_round hc, nearestEven_round hc, fun hy hfin => hdiv hy ▸ nearestEven_round hc hfin,
    nearestEven_frac hc x, nearestEven_round hc, fun _ => nearestEven_round hc, fun _ => nearestEven_round hc⟩

end Sys2Proof.Machine

/-! What each command does to the stores outside the pool (R28, R29, R35, R60), and that it keeps a sound state sound (R34, R36). -/

namespace Sys2Proof.Machine

/-! The note rules keep the surroundings of the pool. -/

section

variable (c : Cfg)

theorem findVoice_surroundings (n : U7) (mode : Mode) (s : State) : SameSurroundings s (findVoice c n mode s).2 := by
  cases mode with
  | poly =>
    rcases findVoicePoly_cases c s with ⟨v, x, e, -⟩ | ⟨-, e⟩ <;> simp only [findVoice, e] <;> exact ⟨rfl, rfl, rfl, rfl, rfl⟩
  | monoFull => exact ⟨rfl, rfl, rfl, rfl, rfl⟩
  | monoLegato => exact ⟨rfl, rfl, rfl, rfl, rfl⟩

theorem allocNoteOffMono_surroundings (n : U7) (s : State) : SameSurroundings s (allocNoteOffMono c n s) := by
  unfold allocNoteOffMono
  dsimp only
  split_ifs <;> exact ⟨rfl, rfl, rfl, rfl, rfl⟩

theorem allocNoteOffPoly_surroundings (n : U7) (s : State) : SameSurroundings s (allocNoteOffPoly c n s) := by
  unfold allocNoteOffPoly
  split <;> exact ⟨rfl, rfl, rfl, rfl, rfl⟩

theorem cmdNoteOn_surroundings (note velocity : Nat) (s : State) : SameSurroundings s (cmdNoteOn c note velocity s) := by
  unfold cmdNoteOn
  split_ifs
  · exact ⟨rfl, rfl, rfl, rfl, rfl⟩
  · obtain ⟨hstg, hcur, hctl, hout, hport⟩ := findVoice_surroundings c (u7Nat note) (patchMode s.cur) s
    exact ⟨hstg, hcur, hctl, hout, hport⟩

theorem cmdNoteOff_surroundings (note : Nat) (s : State) : SameSurroundings s (cmdNoteOff c note s) := by
  unfold cmdNoteOff
  split_ifs
  · exact ⟨rfl, rfl, rfl, rfl, rfl⟩
  · cases patchMode s.cur with
    | poly => exact allocNoteOffPoly_surroundings c _ s
    | monoFull => exact allocNoteOffMono_surroundings c _ s
    | monoLegato => exact allocNoteOffMono_surroundings c _ s

/-! What each of the other commands can write. -/

/-- Control id 2 writes the Controls and voices (R304). -/
theorem setSustain_frame (down : Bool) (s : State) :
    setSustain c down s = { s with ctl := (setSustain c down s).ctl, voices := (setSustain c down s).voices } := by
  unfold setSustain
  dsimp only
  split_ifs <;> rfl

theorem cmdCtrlChange_frame (id value : Nat) (s : State) :
    cmdCtrlChange c id value s =
      { s with ctl := (cmdCtrlChange c id value s).ctl, voices := (cmdCtrlChange c id value s).voices } := by
  unfold cmdCtrlChange
  dsimp only
  split
  case h_3 => exact setSustain_frame c _ s
  all_goals rfl

theorem cmdPatchWr_frame (addr value : Nat) (s : State) :
    cmdPatchWr addr value s = { s with stg := (cmdPatchWr addr value s).stg } := by
  unfold cmdPatchWr; split_ifs <;> rfl

theorem cmdOpParam_frame (op offset value : Nat) (s : State) :
    cmdOpParam op offset value s = { s with cur := (cmdOpParam op offset value s).cur } := by
  unfold cmdOpParam; split_ifs <;> rfl

/-- The Common block stands below every operator block, so `OP_PARAM` does not reach it (R66, R307). -/
theorem cmdOpParam_common (op offset value : Nat) (s : State) {a : Nat} (ha : a < 38) :
    memRead (cmdOpParam op offset value s).cur a = memRead s.cur a := by
  unfold cmdOpParam
  split_ifs
  · rfl
  · exact memRead_memWrite_other _ _ (by simp only [opAddr]; omega)

theorem cmdRender_frame (n : Nat) (s : State) :
    cmdRender c n s = { s with voices := (cmdRender c n s).voices, out := (cmdRender c n s).out } := by
  unfold cmdRender; split_ifs <;> rfl

/-- `RENDER` keeps the pairs already delivered (R35, R312). -/
theorem cmdRender_out_grows (n : Nat) (s : State) : ∃ new, (cmdRender c n s).out = s.out ++ new := by
  unfold cmdRender
  split_ifs
  · exact ⟨[], (List.append_nil _).symm⟩
  · exact ⟨_, rfl⟩

/-! The writers of each store, over all commands. -/

theorem applyInstr_stg {i : Instr} (hwr : ∀ a v, i ≠ .patchWr a v) (hreset : i ≠ .sysReset) (s : State) :
    (applyInstr c i s).stg = s.stg := by
  cases i with
  | noteOn note velocity => exact (cmdNoteOn_surroundings c note velocity s).stg
  | noteOff note => exact (cmdNoteOff_surroundings c note s).stg
  | ctrlChange id value => rw [applyInstr, cmdCtrlChange_frame]
  | opParam op offset value => rw [applyInstr, cmdOpParam_frame]
  | patchWr addr value => exact absurd rfl (hwr addr value)
  | sysReset => exact absurd rfl hreset
  | render n => rw [applyInstr, cmdRender_frame]
  | _ => rfl

theorem applyInstr_cur {i : Instr} (hparam : ∀ o a v, i ≠ .opParam o a v) (happly : i ≠ .applyPatch) (hreset : i ≠ .sysReset)
    (s : State) : (applyInstr c i s).cur = s.cur := by
  cases i with
  | noteOn note velocity => exact (cmdNoteOn_surroundings c note velocity s).cur
  | noteOff note => exact (cmdNoteOff_surroundings c note s).cur
  | ctrlChange id value => rw [applyInstr, cmdCtrlChange_frame]
  | opParam op offset value => exact absurd rfl (hparam op offset value)
  | patchWr addr value => rw [applyInstr, cmdPatchWr_frame]
  | applyPatch => exact absurd rfl happly
  | sysReset => exact absurd rfl hreset
  | render n => rw [applyInstr, cmdRender_frame]
  | _ => rfl

theorem applyInstr_common {i : Instr} (happly : i ≠ .applyPatch) (hreset : i ≠ .sysReset) (s : State) {a : Nat} (ha : a < 38) :
    memRead (applyInstr c i s).cur a = memRead s.cur a := by
  by_cases hparam : ∀ o a v, i ≠ .opParam o a v
  · rw [applyInstr_cur c hparam happly hreset]
  · push Not at hparam
    obtain ⟨op, offset, value, rfl⟩ := hparam
    exact cmdOpParam_common op offset value s ha

theorem applyInstr_ctl {i : Instr} (hctrl : ∀ d v, i ≠ .ctrlChange d v) (hbend : ∀ b, i ≠ .pitchBend b) (happly : i ≠ .applyPatch)
    (hreset : i ≠ .sysReset) (s : State) : (applyInstr c i s).ctl = s.ctl := by
  cases i with
  | noteOn note velocity => exact (cmdNoteOn_surroundings c note velocity s).ctl
  | noteOff note => exact (cmdNoteOff_surroundings c note s).ctl
  | ctrlChange id value => exact absurd rfl (hctrl id value)
  | pitchBend bend => exact absurd rfl (hbend bend)
  | opParam op offset value => rw [applyInstr, cmdOpParam_frame]
  | patchWr addr value => rw [applyInstr, cmdPatchWr_frame]
  | applyPatch => exact absurd rfl happly
  | sysReset => exact absurd rfl hreset
  | render n => rw [applyInstr, cmdRender_frame]
  | _ => rfl

theorem applyInstr_out {i : Instr} (hrender : ∀ n, i ≠ .render n) (s : State) : (applyInstr c i s).out = s.out := by
  cases i with
  | noteOn note velocity => exact (cmdNoteOn_surroundings c note velocity s).out
  | noteOff note => exact (cmdNoteOff_surroundings c note s).out
  | ctrlChange id value => rw [applyInstr, cmdCtrlChange_frame]
  | opParam op offset value => rw [applyInstr, cmdOpParam_frame]
  | patchWr addr value => rw [applyInstr, cmdPatchWr_frame]
  | render n => exact absurd rfl (hrender n)
  | _ => rfl

theorem applyInstr_out_grows (i : Instr) (s : State) : ∃ new, (applyInstr c i s).out = s.out ++ new := by
  by_cases hrender : ∀ n, i ≠ .render n
  · exact ⟨[], by rw [applyInstr_out c hrender, List.append_nil]⟩
  · push Not at hrender
    obtain ⟨n, rfl⟩ := hrender
    exact cmdRender_out_grows c n s

end

/-- Settles O36: store by store, every command but the named writers leaves the store as it was. -/
theorem writersOfEachStore : Obligations.WritersOfEachStore := by
  unfold Obligations.WritersOfEachStore
  intro i s t h
  obtain rfl := exec_next_iff.mp h
  exact ⟨fun hwr hreset => applyInstr_stg _ hwr hreset s, fun hparam happly hreset => applyInstr_cur _ hparam happly hreset s,
    fun happly hreset a ha => applyInstr_common _ happly hreset s ha,
    fun hctrl hbend happly hreset => applyInstr_ctl _ hctrl hbend happly hreset s,
    fun hrender => applyInstr_out _ hrender s, applyInstr_out_grows _ i s⟩

/-! A sound state with one part replaced. -/

/-- The first voice of the pool, which the mono modes play, is held (R287). -/
def FrontHeld (l : List Voice) : Prop := ∀ x, l[0]? = some x → x.gate = true

theorem FrontHeld.map {l : List Voice} (h : FrontHeld l) {f : Voice → Voice} (hf : ∀ x, x.gate = true → (f x).gate = true) :
    FrontHeld (l.map f) := by
  intro y hy
  rw [List.getElem?_map] at hy
  obtain ⟨x, hx, rfl⟩ := Option.map_eq_some_iff.mp hy
  exact hf x (h x hx)

theorem frontHeld_modify_zero {l : List Voice} {f : Voice → Voice} (hf : ∀ x, (f x).gate = true) : FrontHeld (l.modify 0 f) := by
  intro y hy
  rw [modify_getElem?, if_pos rfl] at hy
  obtain ⟨x, -, rfl⟩ := Option.map_eq_some_iff.mp hy
  exact hf x

theorem FrontHeld.modify {l : List Voice} (h : FrontHeld l) {f : Voice → Voice} (hf : ∀ x, (f x).gate = true) (v : Nat) :
    FrontHeld (l.modify v f) := by
  cases v with
  | zero => exact frontHeld_modify_zero hf
  | succ v =>
    intro y hy
    rw [modify_getElem?, if_neg v.succ_ne_zero.symm] at hy
    exact h y hy

section

variable {c : Cfg} {s : State}

/-- The pool may be replaced voice by voice; in a mono mode with a note on the stack its first voice stays held. -/
theorem Sound.withPool (h : Sound c s) {l : List Voice} (hlen : l.length = s.voices.length) (hl : ∀ x ∈ l, VoiceSound c x)
    (hheld : patchMode s.cur ≠ .poly → 0 < s.alloc.depth → FrontHeld l) : Sound c { s with voices := l } :=
  { h with pool_size := hlen.trans h.pool_size, voices := hl, mono_held := hheld }

theorem Sound.withAlloc (h : Sound c s) {a : Alloc} (hlen : a.stack.length = c.noteStackCap) (hdepth : a.depth ≤ c.noteStackCap)
    (hpoly : patchMode s.cur = .poly → a.depth = 0) (hheld : patchMode s.cur ≠ .poly → 0 < a.depth → FrontHeld s.voices) :
    Sound c { s with alloc := a } :=
  { h with stack_length := hlen, depth_le := hdepth, poly_depth := hpoly, mono_held := hheld }

theorem Sound.withClearedStack (h : Sound c s) : Sound c { s with alloc := s.alloc.clear } :=
  h.withAlloc h.stack_length (Nat.zero_le _) (fun _ => rfl) (fun _ hd => absurd hd (Nat.lt_irrefl 0))

theorem Sound.withCtl (h : Sound c s) {ctl : Controls} (hc : 0 ≤ ctl.portaTimeSec) : Sound c { s with ctl := ctl } :=
  { h with portaTime := hc }

theorem Sound.withPort (h : Sound c s) (port : List Word) : Sound c { s with port := port } := { h with }

/-- Another current patch is sound where it keeps the mode, or where the note stack is empty. -/
theorem Sound.withCur (h : Sound c s) {P : Memory} (hP : Memory.wf P = true)
    (hmode : memRead P 0x0D = memRead s.cur 0x0D ∨ s.alloc.depth = 0) : Sound c { s with cur := P } := by
  rcases hmode with hmode | hd
  · exact { h with cur_wf := hP, poly_depth := fun e => h.poly_depth (hmode ▸ e), mono_held := fun e => h.mono_held (hmode ▸ e) }
  · exact { h with cur_wf := hP, poly_depth := fun _ => hd, mono_held := fun _ hpos => absurd hd hpos.ne' }

theorem Sound.mapVoices (h : Sound c s) {f : Voice → Voice} (hf : ∀ x ∈ s.voices, VoiceSound c (f x))
    (hgate : 0 < s.alloc.depth → ∀ x, x.gate = true → (f x).gate = true) : Sound c (s.mapVoices f) :=
  h.withPool (List.length_map _) (List.forall_mem_map.mpr hf) (fun hm hd => FrontHeld.map (h.mono_held hm hd) (hgate hd))

/-! Notes. -/

theorem voiceNoteOn_gate (P : Memory) (ctl : Controls) (n vel : U7) (v : Voice) : (voiceNoteOn c P ctl n vel v).gate = true :=
  (voiceNoteOn_common c P ctl n vel v).2.2.1

theorem noteOnVoice_sound (h : Sound c s) (v : Nat) (n vel : U7) : Sound c (noteOnVoice c v n vel s) :=
  h.withPool (List.length_modify ..) (voices_modify_sound c h.voices fun x hx => voiceNoteOn_sound c _ _ n vel (h.voices x hx))
    (fun hm hd => FrontHeld.modify (h.mono_held hm hd) (voiceNoteOn_gate _ _ n vel) v)

/-- A note-on on a voice just stolen is a note-on on that voice as it was (R233, R284). -/
theorem noteOnVoice_stolen (v : Nat) (n vel : U7) (s : State) :
    noteOnVoice c v n vel (s.modifyVoice v fun x => { x with justAllocated := true }) = noteOnVoice c v n vel s := by
  simp only [noteOnVoice, State.modifyVoice, List.modify_modify_eq]
  rfl

/-- In a mono mode a note-on on voice 0 goes with any note stack within its bound, since it leaves the voice held (R283, R287). -/
theorem noteOnVoice_zero_sound (h : Sound c s) (hmode : patchMode s.cur ≠ .poly) (n vel : U7) {a : Alloc}
    (hlen : a.stack.length = c.noteStackCap) (hdepth : a.depth ≤ c.noteStackCap) :
    Sound c (noteOnVoice c 0 n vel { s with alloc := a }) :=
  (noteOnVoice_sound h 0 n vel).withAlloc hlen hdepth (fun e => absurd e hmode)
    (fun _ _ => frontHeld_modify_zero (voiceNoteOn_gate _ _ n vel))

theorem cmdNoteOn_sound (h : Sound c s) (note velocity : Nat) : Sound c (cmdNoteOn c note velocity s) := by
  unfold cmdNoteOn
  split_ifs
  · exact h
  · have hmono (hm : patchMode s.cur ≠ .poly) := noteOnVoice_zero_sound h hm (u7Nat note) (u7Nat velocity)
      (a := { allocPush c (u7Nat note) s.alloc with monoActive := true })
      ((allocPush_length c _ _).trans h.stack_length) (allocPush_depth c _ _ h.depth_le)
    cases hm : patchMode s.cur with
    | poly =>
      dsimp only [findVoice]
      rcases findVoicePoly_cases c s with ⟨v, -, e, -⟩ | ⟨-, e⟩ <;> rw [e]
      · exact noteOnVoice_sound h v _ _
      · rw [noteOnVoice_stolen]
        exact noteOnVoice_sound h _ _ _
    | monoFull => exact hmono (by simp [hm])
    | monoLegato => exact hmono (by simp [hm])

theorem noteOffVoice_sound (h : Sound c s) (hempty : s.alloc.depth = 0) (v : Nat) : Sound c (noteOffVoice c v s) :=
  h.withPool (List.length_modify ..) (voices_modify_sound c h.voices fun x hx => voiceNoteOff_sound c _ _ (h.voices x hx))
    (fun _ hd => absurd hempty hd.ne')

theorem allocNoteOffMono_sound (h : Sound c s) (hmode : patchMode s.cur ≠ .poly) (n : U7) : Sound c (allocNoteOffMono c n s) := by
  have hlen : (allocRemove n s.alloc).stack.length = c.noteStackCap :=
    (allocRemove_length n (h.depth_le.trans h.stack_length.ge)).trans h.stack_length
  have hdepth : (allocRemove n s.alloc).depth ≤ c.noteStackCap := by
    have := h.depth_le
    rw [allocRemove_depth]
    split_ifs <;> omega
  unfold allocNoteOffMono
  dsimp only
  split_ifs with hempty
  · have hreleased : Sound c { s with alloc := { allocRemove n s.alloc with monoActive := false } } :=
      h.withAlloc hlen hdepth (fun _ => hempty) (fun _ hd => absurd hempty hd.ne')
    exact noteOffVoice_sound hreleased hempty 0
  · exact noteOnVoice_zero_sound h hmode _ _ hlen hdepth

theorem allocNoteOffPoly_sound (h : Sound c s) (hmode : patchMode s.cur = .poly) (n : U7) : Sound c (allocNoteOffPoly c n s) := by
  unfold allocNoteOffPoly
  split
  · exact noteOffVoice_sound h (h.poly_depth hmode) _
  · exact h

theorem cmdNoteOff_sound (h : Sound c s) (note : Nat) : Sound c (cmdNoteOff c note s) := by
  unfold cmdNoteOff
  split_ifs
  · exact h
  · cases hm : patchMode s.cur with
    | poly => exact allocNoteOffPoly_sound h hm _
    | monoFull => exact allocNoteOffMono_sound h (by simp [hm]) _
    | monoLegato => exact allocNoteOffMono_sound h (by simp [hm]) _

theorem cmdAllNotesOff_sound (h : Sound c s) : Sound c (cmdAllNotesOff c s) := by
  refine h.withClearedStack.mapVoices (fun x hx => ?_) (fun hd => absurd hd (Nat.lt_irrefl 0))
  split_ifs
  · exact voiceNoteOff_sound c _ _ (h.voices x hx)
  · exact h.voices x hx

theorem VoiceSound.reset {x : Voice} (h : VoiceSound c x) (P : Memory) : VoiceSound c (voiceReset c P x) := by
  obtain ⟨hop, -, ⟨-, hrng, -⟩, -⟩ := h
  exact voiceReset_sound c P (fun i => (hop i).2.1) hrng

theorem resetVoices_sound (h : Sound c s) : Sound c (resetVoices c s) :=
  h.withClearedStack.mapVoices (fun x hx => (h.voices x hx).reset _) (fun hd => absurd hd (Nat.lt_irrefl 0))

/-! Controllers and patches. -/

theorem releaseSustained_sound (h : Sound c s) : Sound c (releaseSustained c s) := by
  refine h.mapVoices (fun x hx => ?_) (fun _ x hg => ?_) <;> split_ifs
  · exact voiceRelease_sound c _ (h.voices x hx)
  · exact h.voices x hx
  · exact hg
  · exact hg

theorem setSustain_sound (h : Sound c s) (down : Bool) : Sound c (setSustain c down s) := by
  have ht : Sound c { s with ctl := { s.ctl with sustain := down } } := h.withCtl h.portaTime
  unfold setSustain
  dsimp only
  split_ifs
  · exact releaseSustained_sound ht
  · exact ht

theorem cmdCtrlChange_sound (h : Sound c s) (id value : Nat) : Sound c (cmdCtrlChange c id value s) := by
  unfold cmdCtrlChange
  dsimp only
  split
  · exact h.withCtl (c.valid.portaTime_nonneg _)
  · exact h.withCtl h.portaTime
  · exact setSustain_sound h _
  · exact h.withCtl h.portaTime
  · exact h.withCtl h.portaTime
  · exact h

theorem cmdPatchWr_sound (h : Sound c s) (addr value : Nat) : Sound c (cmdPatchWr addr value s) := by
  unfold cmdPatchWr
  split_ifs with ha
  · exact h
  · exact { h with stg_wf := memWrite_wf h.stg_wf (not_lt.mp ha |>.trans_lt (by decide)) _ }

theorem cmdOpParam_sound (h : Sound c s) (op offset value : Nat) : Sound c (cmdOpParam op offset value s) := by
  have hmode := cmdOpParam_common op offset value s (a := 0x0D) (by decide)
  rw [cmdOpParam_frame]
  refine h.withCur ?_ (.inl hmode)
  unfold cmdOpParam
  split_ifs with hbad
  · exact h.cur_wf
  · exact memWrite_wf h.cur_wf (by simp only [opAddr, patchSize]; omega) _

/-- The new patch may change the mode, so it goes with the stack already emptied; emptying it twice is emptying it once (R308). -/
theorem cmdApplyPatch_sound (h : Sound c s) : Sound c (cmdApplyPatch c s) := by
  have hloaded := (h.withClearedStack.withCur h.stg_wf (.inr rfl)).withCtl
    (ctl := { s.ctl with portaTimeSec := c.portaTime (patchPortaTime s.stg) }) (c.valid.portaTime_nonneg _)
  exact (resetVoices_sound hloaded :)

/-! Rendering. -/

theorem voiceStep_gate (P : Memory) (ctl : Controls) (v : Voice) : (voiceStep c P ctl v).2.gate = v.gate := by
  obtain ⟨ops, e, -⟩ := voiceStep_voice c P ctl v
  rw [e]
  rfl

theorem voiceBlockStart_gate (P : Memory) (n : Nat) (v : Voice) : (voiceBlockStart c P n v).gate = v.gate := by
  unfold voiceBlockStart; split_ifs <;> rfl

theorem renderSamples_frontHeld {P : Memory} {ctl : Controls} (n : Nat) {l : List Voice} (h : FrontHeld l) :
    FrontHeld (renderSamples c P ctl n l).2 := by
  induction n generalizing l with
  | zero => exact h
  | succ n ih =>
    refine ih ?_
    rw [mixVoices_voices]
    refine h.map fun x hx => ?_
    split_ifs
    · rwa [voiceStep_gate]
    · exact hx

theorem cmdRender_sound (h : Sound c s) (n : Nat) : Sound c (cmdRender c n s) := by
  unfold cmdRender
  split_ifs
  · exact h
  · have hstart : Sound c (s.mapVoices (voiceBlockStart c s.cur n)) :=
      h.mapVoices (fun x hx => voiceBlockStart_sound c s.cur n (h.voices x hx)) (fun _ x hx => by rwa [voiceBlockStart_gate])
    have hpool := hstart.withPool (renderSamples_pool_size c s.cur s.ctl n _) (renderSamples_sound c s.cur s.ctl n hstart.voices)
      (fun hm hd => renderSamples_frontHeld n (hstart.mono_held hm hd))
    refine { hpool with stereo := fun p hp => ?_ }
    rcases List.mem_append.mp hp with hold | hnew
    · exact h.stereo p hold
    · exact renderSamples_stereo c s.cur s.ctl n _ p hnew

/-! Reset. -/

theorem voiceSysReset_sound {v : Nat} (hv : v < c.numVoices) (P : Memory) (x : Voice) : VoiceSound c (voiceSysReset c P v x) :=
  voiceReset_sound c P
    (v := { x with op := x.op.mapIdx fun _ o => { o with inc := 0, outGain := 0, fbScale := 0, enabled := false },
                   lfo := { x.lfo with rng := c.lfoSeed v } })
    (fun i => by simp) (c.valid.lfoSeed_ne v hv)

theorem cmdSysReset_sound (h : Sound c s) : Sound c (cmdSysReset c s) := by
  refine { h.withClearedStack with
    stg_wf := rfl, cur_wf := rfl, poly_depth := fun _ => rfl, mono_held := fun _ hd => absurd hd (Nat.lt_irrefl 0),
    pool_size := ?_, voices := fun x hx => ?_, portaTime := le_refl 0 }
  · simpa [cmdSysReset] using h.pool_size
  · obtain ⟨v, hv, rfl⟩ := List.mem_mapIdx.mp hx
    exact voiceSysReset_sound (hv.trans_eq h.pool_size) _ _

/-- Every command keeps a sound state sound, under any configuration. -/
theorem applyInstr_sound (h : Sound c s) (i : Instr) : Sound c (applyInstr c i s) := by
  cases i with
  | nop => exact h
  | noteOn note velocity => exact cmdNoteOn_sound h note velocity
  | noteOff note => exact cmdNoteOff_sound h note
  | ctrlChange id value => exact cmdCtrlChange_sound h id value
  | pitchBend bend => exact h.withCtl h.portaTime
  | opParam op offset value => exact cmdOpParam_sound h op offset value
  | patchWr addr value => exact cmdPatchWr_sound h addr value
  | applyPatch => exact cmdApplyPatch_sound h
  | allNotesOff => exact cmdAllNotesOff_sound h
  | allSoundOff => exact resetVoices_sound h
  | sysReset => exact cmdSysReset_sound h
  | render n => exact cmdRender_sound h n

end

theorem step_sound {s t : State} (h : Sound Config.cfg s) (hst : step s = .next t) : Sound Config.cfg t := by
  rcases step_cases hst with ⟨-, rfl⟩ | ⟨w, rest, -, ⟨i, -, rfl⟩ | ⟨op, -, rfl⟩⟩
  · exact h
  · exact applyInstr_sound (h.withPort rest) i
  · exact h.withPort rest

/-- Settles O11: a step idles, drops a reserved word or runs a command, and each keeps `Sound`; the AEGs of a sound state are ones the rules bring about, so
they have R22's types. -/
theorem stepKeepsSound : Obligations.StepKeepsSound := by
  unfold Obligations.StepKeepsSound
  refine ⟨fun s t => step_sound, fun s h x hx i => ?_⟩
  obtain ⟨hop, -⟩ := h.voices x hx
  obtain ⟨-, -, -, hreached⟩ := hop i
  exact hreached.nonneg Config.cfg_gainInvKeepsRawType

/-! The state after power-on. -/

section

variable (c : Cfg)

/-- `Voice.reset` writes every element the way R232 lists. -/
theorem voiceReset_effect (P : Memory) (x : Voice) : VoiceResetEffect c P x (voiceReset c P x) where
  note := ⟨rfl, rfl⟩
  flags := ⟨rfl, rfl, rfl⟩
  porta := ⟨rfl, rfl, rfl⟩
  mods i := by simp [voiceReset]
  algId := rfl
  lfoCur := rfl
  running i := by simp [voiceReset]
  cached i := by simp [voiceReset]
  aeg i := by simp only [voiceReset, Quad.get_mapIdx, operReset_aeg]; rfl
  peg := rfl
  lfo := rfl

theorem voicePowerOn_atRest (v : Nat) : AtRest c [] (Voice.powerOn c v) := rfl

theorem State.powerOn_voice {v : Nat} {x : Voice} (h : (State.powerOn c).voices[v]? = some x) :
    v < c.numVoices ∧ x = Voice.powerOn c v := by
  rw [State.powerOn_voices, List.getElem?_map] at h
  obtain ⟨u, hu, rfl⟩ := Option.map_eq_some_iff.mp h
  obtain ⟨hv, rfl⟩ := List.getElem?_eq_some_iff.mp hu
  rw [List.length_range] at hv
  exact ⟨hv, by rw [List.getElem_range]⟩

theorem voicePowerOn_sound {v : Nat} (hv : v < c.numVoices) : VoiceSound c (Voice.powerOn c v) :=
  voiceReset_sound c [] (v := Voice.powerOn c v) (fun i => by simp [Voice.powerOn, Operator.powerOn]) (c.valid.lfoSeed_ne v hv)

theorem State.powerOn_sound : Sound c (State.powerOn c) where
  stg_wf := rfl
  cur_wf := rfl
  stack_length := List.length_replicate
  depth_le := Nat.zero_le _
  poly_depth _ := rfl
  mono_held _ hd := absurd hd (Nat.lt_irrefl 0)
  pool_size := State.powerOn_pool_size c
  voices x hx := by
    obtain ⟨v, hv⟩ := List.mem_iff_getElem?.mp hx
    obtain ⟨hlt, rfl⟩ := State.powerOn_voice c hv
    exact voicePowerOn_sound c hlt
  portaTime := le_refl 0
  stereo p hp := absurd hp List.not_mem_nil

end

/-- Settles O8: both memories are empty, and each voice is one that `Voice.reset` leaves unchanged. -/
theorem powerOnState : Obligations.PowerOnState := by
  unfold Obligations.PowerOnState
  refine ⟨fun a => ⟨rfl, rfl⟩, rfl, rfl, rfl, List.length_replicate, State.powerOn_pool_size _, fun v x hx => ?_, rfl⟩
  obtain ⟨-, rfl⟩ := State.powerOn_voice Config.cfg hx
  have hrest := voicePowerOn_atRest Config.cfg v
  have heffect := voiceReset_effect Config.cfg [] (Voice.powerOn Config.cfg v)
  have hinactive := isActive_voiceReset Config.cfg [] (Voice.powerOn Config.cfg v)
  rw [hrest] at heffect hinactive
  exact ⟨heffect, rfl, hinactive, fun i => by simp [CacheCleared, Voice.powerOn, Operator.powerOn]⟩

/-- Settles O10. -/
theorem powerOnIsSound : Obligations.PowerOnIsSound := State.powerOn_sound Config.cfg

end Sys2Proof.Machine

/-! The command word (30_encoding.md): the fields of an assembled word are its operands, and the word assembled from some fields of a word is that word with its
other fields cleared (R80 to R84, R87). -/

namespace Sys2Proof

open Laws.OpcodeField (opcodeOf)

/-! The fields of a word. -/

section

variable (w : Word)

/-- The opcode field is the top byte. -/
theorem fieldOpcode_eq_ushiftRight : fieldOpcode w = (w >>> 24).toNat := by
  have hlt : w.toNat >>> 24 < 2 ^ 8 := by rw [Nat.shiftRight_eq_div_pow]; omega
  rw [fieldOpcode, BitVec.extractLsb'_toNat, BitVec.toNat_ushiftRight, Nat.mod_eq_of_lt hlt]

@[simp] theorem fitsByte_fieldA : fitsByte (fieldA w) = true := decide_eq_true (BitVec.isLt _)

@[simp] theorem fitsByte_fieldB : fitsByte (fieldB w) = true := decide_eq_true (BitVec.isLt _)

@[simp] theorem fitsByte_fieldC : fitsByte (fieldC w) = true := decide_eq_true (BitVec.isLt _)

@[simp] theorem fitsImm16_fieldImm16 : fitsImm16 (fieldImm16 w) = true := decide_eq_true (BitVec.isLt _)

theorem fitsSigned16_iff (v : Int) : fitsSigned16 v = true ↔ -2 ^ 15 ≤ v ∧ v < 2 ^ 15 := by
  rw [fitsSigned16, Bool.and_eq_true, decide_eq_true_iff, decide_eq_true_iff]
  omega

@[simp] theorem fitsSigned16_fieldSigned16 : fitsSigned16 (fieldSigned16 w) = true :=
  (fitsSigned16_iff _).mpr ⟨BitVec.le_toInt _, BitVec.toInt_lt⟩

end

/-! Clearing fields. A mask of whole fields is a word of format B whose fields are 255 or 0. -/

section

variable (w : Word)

theorem wordB_fields : wordB (fieldOpcode w) (fieldA w) (fieldB w) (fieldC w) = w := by
  apply BitVec.eq_of_getLsbD_eq
  intro i hi
  simp only [wordB, fieldOpcode, fieldA, fieldB, fieldC, BitVec.ofNat_toNat, BitVec.setWidth_eq]
  interval_cases i <;> simp only [BitVec.getLsbD_append, BitVec.getLsbD_extractLsb'] <;> simp

/-- A mask acts on each field of a word of format B. -/
theorem wordB_and (op a b c mOp mA mB mC : Nat) :
    wordB op a b c &&& wordB mOp mA mB mC = wordB (op &&& mOp) (a &&& mA) (b &&& mB) (c &&& mC) := by
  apply BitVec.eq_of_getLsbD_eq
  intro i hi
  simp only [wordB, BitVec.getLsbD_and, BitVec.getLsbD_append, BitVec.ofNat_and]
  split_ifs <;> rfl

theorem byte_toNat_and_255 (b : Byte) : b.toNat &&& 255 = b.toNat := by
  rw [Nat.and_two_pow_sub_one_eq_mod _ 8, Nat.mod_eq_of_lt b.isLt]

@[simp] theorem fieldOpcode_and_255 : fieldOpcode w &&& 255 = fieldOpcode w := byte_toNat_and_255 _

@[simp] theorem fieldA_and_255 : fieldA w &&& 255 = fieldA w := byte_toNat_and_255 _

@[simp] theorem fieldB_and_255 : fieldB w &&& 255 = fieldB w := byte_toNat_and_255 _

theorem and_wordB (mOp mA mB mC : Nat) :
    w &&& wordB mOp mA mB mC = wordB (fieldOpcode w &&& mOp) (fieldA w &&& mA) (fieldB w &&& mB) (fieldC w &&& mC) := by
  rw [← wordB_and, wordB_fields]

variable {w} {op : Nat} (h : fieldOpcode w = op)

include h

theorem wordB_opcode : wordB op 0 0 0 = w &&& 0xFF000000 := by
  have hmask : (0xFF000000 : Word) = wordB 255 0 0 0 := rfl
  simp [hmask, and_wordB, ← h]

theorem wordB_opcode_a : wordB op (fieldA w) 0 0 = w &&& 0xFFFF0000 := by
  have hmask : (0xFFFF0000 : Word) = wordB 255 255 0 0 := rfl
  simp [hmask, and_wordB, ← h]

theorem wordB_opcode_ab : wordB op (fieldA w) (fieldB w) 0 = w &&& 0xFFFFFF00 := by
  have hmask : (0xFFFFFF00 : Word) = wordB 255 255 255 0 := rfl
  simp [hmask, and_wordB, ← h]

theorem wordB_opcode_abc : wordB op (fieldA w) (fieldB w) (fieldC w) = w &&& 0xFFFFFFFF := by
  subst h
  rw [wordB_fields]
  exact (BitVec.and_allOnes (x := w)).symm

theorem wordH_opcode_imm16 : wordH op (w.extractLsb' 0 16) = w &&& 0xFF00FFFF := by
  subst h
  apply BitVec.eq_of_getLsbD_eq
  intro i hi
  simp only [wordH, fieldOpcode, BitVec.ofNat_toNat, BitVec.setWidth_eq, BitVec.getLsbD_and]
  interval_cases i <;> simp only [BitVec.getLsbD_append, BitVec.getLsbD_extractLsb'] <;> simp

end

/-! What the decoder answers. -/

/-- A reserved word is rejected by its opcode (R85). -/
theorem decode_reserved {w : Word} (h : 0x0C ≤ fieldOpcode w) : decode w = .error (.reservedOpcode (fieldOpcode w)) := by
  unfold decode
  split
  case h_13 => rfl
  all_goals omega

/-- Every other word decodes, whatever its operand bits. -/
theorem decode_total {w : Word} (h : fieldOpcode w < 0x0C) : ∃ i, decode w = .ok i := by
  unfold decode
  interval_cases fieldOpcode w <;> exact ⟨_, rfl⟩

/-- Opcode 0 is `NOP`, whatever its other bits (R300). -/
theorem decode_nop {w : Word} (h : fieldOpcode w = 0) : decode w = .ok .nop := by
  simp only [decode, h]

theorem fieldOpcode_encode (i : Instr) : fieldOpcode (encode i) = opcodeOf i := by
  cases i with
  | pitchBend bend => exact fieldOpcode_wordH _ _
  | render n => exact fieldOpcode_wordH _ _
  | _ => exact fieldOpcode_wordB _ _ _ _

/-- An operand that fits its field is what the decoder reads there. -/
theorem mod_256_of_fits {v : Nat} (h : fitsByte v = true) : v % 256 = v :=
  Nat.mod_eq_of_lt (of_decide_eq_true h)

theorem fieldImm16_wordH {op n : Nat} (h : fitsImm16 n = true) : fieldImm16 (wordH op (BitVec.ofNat 16 n)) = n := by
  rw [fieldImm16, imm16_wordH, BitVec.toNat_ofNat, Nat.mod_eq_of_lt (of_decide_eq_true h)]

theorem fieldSigned16_wordH {op : Nat} {v : Int} (h : fitsSigned16 v = true) : fieldSigned16 (wordH op (BitVec.ofInt 16 v)) = v := by
  obtain ⟨hlo, hhi⟩ := (fitsSigned16_iff v).mp h
  rw [fieldSigned16, imm16_wordH, BitVec.toInt_ofInt_eq_self (by decide) hlo hhi]

/-- The decoder finds the command's opcode in its word, and in the operand fields of that opcode the command's operands. -/
theorem decode_encode {i : Instr} (h : WellFormed i) : decode (encode i) = .ok i := by
  rw [decode, fieldOpcode_encode]
  cases i with
  | nop | applyPatch | allNotesOff | allSoundOff | sysReset => rfl
  | noteOff a => simp [opcodeOf, encode, fieldA_wordB, mod_256_of_fits h]
  | noteOn a b | ctrlChange a b | patchWr a b =>
    obtain ⟨ha, hb⟩ := Bool.and_eq_true_iff.mp h
    simp [opcodeOf, encode, fieldA_wordB, fieldB_wordB, mod_256_of_fits ha, mod_256_of_fits hb]
  | opParam a b c =>
    obtain ⟨hab, hc⟩ := Bool.and_eq_true_iff.mp h
    obtain ⟨ha, hb⟩ := Bool.and_eq_true_iff.mp hab
    simp [opcodeOf, encode, fieldA_wordB, fieldB_wordB, fieldC_wordB, mod_256_of_fits ha, mod_256_of_fits hb, mod_256_of_fits hc]
  | pitchBend v => simp [opcodeOf, encode, fieldSigned16_wordH h]
  | render n => simp [opcodeOf, encode, fieldImm16_wordH h]

theorem decode_wellFormed {w : Word} {i : Instr} (h : decode w = .ok i) : WellFormed i := by
  unfold decode at h
  split at h <;> cases h <;> simp [WellFormed, Instr.wf]

/-- Settles O1: the opcode of the encoded word selects the command's row, whose fields hold the operands. -/
theorem decodeOfEncodeIsIdentity : Obligations.DecodeOfEncodeIsIdentity := fun _ => decode_encode

/-- Settles O2: the word assembled from the fields its row reads is the word masked to those fields. -/
theorem decoderReadsExactlyTheUsedFields : Obligations.DecoderReadsExactlyTheUsedFields := by
  unfold Obligations.DecoderReadsExactlyTheUsedFields
  refine ⟨fun w hw => ?_, fun w i h => ⟨decode_wellFormed h, ?_⟩⟩
  · exact decode_total (fieldOpcode_eq_ushiftRight w ▸ hw)
  · unfold decode at h
    split at h <;> cases h
    next hop => exact wordB_opcode hop
    next hop => exact wordB_opcode_ab hop
    next hop => exact wordB_opcode_a hop
    next hop => exact wordB_opcode_ab hop
    next hop =>
      rw [encode, fieldSigned16, BitVec.ofInt_toInt]
      exact wordH_opcode_imm16 hop
    next hop => exact wordB_opcode_abc hop
    next hop => exact wordB_opcode_ab hop
    next hop => exact wordB_opcode hop
    next hop => exact wordB_opcode hop
    next hop => exact wordB_opcode hop
    next hop => exact wordB_opcode hop
    next hop =>
      rw [encode, fieldImm16, BitVec.ofNat_toNat, BitVec.setWidth_eq]
      exact wordH_opcode_imm16 hop

end Sys2Proof

/-! What a step does with the word it takes (R85, R300, R313), and the codes of a patch byte (R101 to R106). -/

namespace Sys2Proof.Machine

theorem exec_nop (s : State) : exec .nop s = .next s := rfl

theorem step_of_ok {s : State} {w : Word} {rest : List Word} {i : Instr} (hp : s.port = w :: rest) (hd : decode w = .ok i) :
    step s = exec i { s with port := rest } := by
  simp only [step, takeCommand, hp, hd]

theorem step_of_reserved {s : State} {w : Word} {rest : List Word} {op : Nat} (hp : s.port = w :: rest)
    (hd : decode w = .error (.reservedOpcode op)) : step s = exec .nop { s with port := rest } := by
  simp only [step, takeCommand, hp, hd]

/-- Settles O6: opcode 0 decodes to `NOP`, a reserved word is rejected and run as `NOP`, and `NOP` answers its state. -/
theorem nopAndReservedOpcodesChangeNothing : Obligations.NopAndReservedOpcodesChangeNothing := by
  unfold Obligations.NopAndReservedOpcodesChangeNothing
  simp only [← fieldOpcode_eq_ushiftRight]
  refine ⟨exec_nop, fun s w rest hp hop => ?_, fun w => decode_reserved⟩
  rcases hop with hop | hop
  · exact step_of_ok hp (decode_nop hop)
  · exact step_of_reserved hp (decode_reserved hop)

/-- Settles O3: thirteen closed words, each evaluated by the decoder. -/
theorem exampleWordsDecode : Obligations.ExampleWordsDecode := by
  unfold Obligations.ExampleWordsDecode
  decide

theorem enumMode_eq (b : Byte) :
    enumMode b = if b.toNat = 0 then .poly else if b.toNat = 1 then .monoFull else .monoLegato := by
  unfold enumMode
  split <;> simp_all

theorem enumLfoWave_eq (b : Byte) :
    enumLfoWave b = if b.toNat = 0 then .sine else if b.toNat = 1 then .tri else if b.toNat = 2 then .sawUp
      else if b.toNat = 3 then .sawDown else if b.toNat = 4 then .square else if b.toNat = 5 then .sh8 else .shFree := by
  unfold enumLfoWave
  split <;> simp_all

theorem enumKsCurve_eq (b : Byte) :
    enumKsCurve b = if b.toNat = 0 then .negLin else if b.toNat = 1 then .negExp else if b.toNat = 2 then .posExp else .posLin := by
  unfold enumKsCurve
  split <;> simp_all

theorem enumFbType_eq (b : Byte) : enumFbType b = if b.toNat = 0 then .plain else .square := by
  unfold enumFbType
  split <;> simp_all

theorem enumFreqMode_eq (b : Byte) : enumFreqMode b = if b.toNat = 0 then .ratio else .fixed := by
  unfold enumFreqMode
  split <;> simp_all

theorem en_eq_false_iff (b : Byte) : en b = false ↔ b = 0 := by
  rw [en, decide_eq_false_iff_not, not_not]

/-- Settles O58: each reader's match is the code table of its rule. -/
theorem patchByteCodes : Obligations.PatchByteCodes := fun b =>
  ⟨rfl, enumMode_eq b, enumLfoWave_eq b, enumKsCurve_eq b, enumFbType_eq b, enumFreqMode_eq b, en_eq_false_iff b,
    rfl, rfl, rfl, rfl, rfl, rfl⟩

end Sys2Proof.Machine

/-! NUM arithmetic under the exact NUM (R8 (a)), as rewrite rules. -/

namespace Sys2Proof

section

variable {c : Cfg} (hc : c.num = .exact) (x y : Num)

include hc

theorem Cfg.add_exact : c.add x y = x + y := Cfg.round_exact hc _

theorem Cfg.mul_exact : c.mul x y = x * y := Cfg.round_exact hc _

/-- `frac` is then the library's fractional part (R12). -/
theorem Cfg.frac_eq_fract : c.frac x = Int.fract x := Cfg.frac_exact hc x

end

theorem fract_fract_add (x y : Num) : Int.fract (Int.fract x + y) = Int.fract (x + y) :=
  Int.fract_eq_fract.mpr ⟨-⌊x⌋, by rw [Int.fract]; push_cast; ring⟩

end Sys2Proof

/-! The operator (40_operator.md): what `setParams` caches, one sample of `compute`, and its iteration in exact arithmetic (R122 to R134). -/

namespace Sys2Proof.Machine

section

variable (c : Cfg) (P : Memory) (i : Fin 4)

/-- `setParams` caches what R123 to R127 say; the readers' addresses are those of R96. -/
theorem operSetParams_paramsSet (t : Int) (vel : U7) (hz : Num) (o : Operator) :
    ParamsSet c P i t vel hz (operSetParams c P i t vel hz o) where
  enabled := rfl
  inc := rfl
  outGain := ⟨operKeyScale c P i t, operKeyScale_range c P i t, rfl, rfl⟩
  fbScale := rfl

/-- The feedback input by the byte of its type (R104, R131). -/
theorem operFeedback_eq (o : Operator) :
    operFeedback c P i o = if memRead P (38 + 28 * i.val + 0x14) = 0 then o.fbAcc else c.rectify o.fbAcc := by
  have htype : opFbType P i = if (memRead P (38 + 28 * i.val + 0x14)).toNat = 0 then .plain else .square := enumFbType_eq _
  have hzero : (memRead P (38 + 28 * i.val + 0x14)).toNat = 0 ↔ memRead P (38 + 28 * i.val + 0x14) = 0 :=
    BitVec.toNat_inj (y := 0#8)
  rw [operFeedback, htype]
  simp only [hzero]
  split_ifs <;> rfl

section

variable (inp pmS : Num) {o : Operator} (h : o.enabled = true)

include h

theorem operCompute_fbFilt :
    (operCompute c P i inp pmS o).2.fbFilt =
      c.add o.fbFilt (c.mul c.fbLpCoef (c.sub (operFeedback c P i o) o.fbFilt)) := by
  rw [operCompute, if_neg (by simp [h])]

/-- The sine is looked up at the phase before the advance, with the filtered feedback after its update (R130 lines 5 and 6). -/
theorem operCompute_fbAcc :
    (operCompute c P i inp pmS o).2.fbAcc =
      c.sine (c.frac (c.add (c.add o.phase inp) (c.mul (operCompute c P i inp pmS o).2.fbFilt o.fbScale))) := by
  rw [operCompute, if_neg (by simp [h])]

theorem operCompute_sample :
    (operCompute c P i inp pmS o).1 =
      c.mul (c.mul (operCompute c P i inp pmS o).2.fbAcc o.outGain) (aegOut c (aegTick c P i o.aeg)) := by
  rw [operCompute, if_neg (by simp [h])]

end

/-- `compute` leaves a phase in [0,1): a disabled operator keeps its own, an enabled one stores a `frac` (R133). -/
theorem operCompute_phase_range (inp pmS : Num) {o : Operator} (h : 0 ≤ o.phase ∧ o.phase < 1) :
    0 ≤ (operCompute c P i inp pmS o).2.phase ∧ (operCompute c P i inp pmS o).2.phase < 1 := by
  cases hen : o.enabled with
  | false => rwa [operCompute_disabled c P i inp pmS hen]
  | true =>
    rw [(operCompute_enabled c P i inp pmS hen).1]
    exact c.frac_range _

end

/-- Settles O46: `compute` keeps the phase or stores a `frac`; no other rule but reset writes it. -/
theorem phaseStaysInUnitInterval : Obligations.PhaseStaysInUnitInterval := fun c P i o h0 h1 =>
  ⟨fun inp pmS => operCompute_phase_range c P i inp pmS ⟨h0, h1⟩, operReset_phase c P i o,
    operSetParams_phase c P i o, operGateOn_phase c P i o, operGateOff_phase c P i o⟩

/-- Settles O44: the four cached elements are those of `ParamsSet`, and putting the old ones back gives the operator back. -/
theorem setParamsCachesParameters : Obligations.SetParamsCachesParameters := fun c P i t vel hz o =>
  ⟨operSetParams_paramsSet c P i t vel hz o, rfl⟩

/-- Settles O45: one rule of `compute` per element it writes, and the elements it keeps. -/
theorem computeOneSample : Obligations.ComputeOneSample := by
  unfold Obligations.ComputeOneSample
  refine fun c P i inp pmS o => ⟨operCompute_disabled c P i inp pmS, fun h => ?_⟩
  obtain ⟨hphase, haeg, hinc, hgain, hscale, hen⟩ := operCompute_enabled c P i inp pmS h
  refine ⟨haeg, ?_, operCompute_fbAcc c P i inp pmS h, hphase, ?_, ?_⟩
  · rw [operCompute_fbFilt c P i inp pmS h, operFeedback_eq]
  · rw [operCompute_sample c P i inp pmS h, haeg]
  · simp only [hinc, hgain, hscale, hen]

/-! An operator with no input, modulation or feedback, in exact arithmetic (R134). -/

/-- The state an enabled operator without feedback has after `n` calls of `compute` from phase 0: the phase has advanced by `n` increments and the AEG by `n`
ticks. -/
structure UnmodulatedAt (c : Cfg) (P : Memory) (i : Fin 4) (o : Operator) (n : Nat) (o' : Operator) : Prop where
  enabled : o'.enabled = true
  fbScale : o'.fbScale = 0
  phase : o'.phase = Int.fract ((n : Num) * o.inc)
  inc : o'.inc = o.inc
  outGain : o'.outGain = o.outGain
  aeg : o'.aeg = (aegTick c P i)^[n] o.aeg

section

variable {c : Cfg} (hc : c.num = .exact) {P : Memory} {i : Fin 4} {o : Operator}

theorem UnmodulatedAt.zero (hen : o.enabled = true) (hscale : o.fbScale = 0) (hphase : o.phase = 0) :
    UnmodulatedAt c P i o 0 o where
  enabled := hen
  fbScale := hscale
  phase := by simp [hphase]
  inc := rfl
  outGain := rfl
  aeg := rfl

include hc

/-- Without modulation the pitch ratio is 1, so the phase advances by one increment. -/
theorem UnmodulatedAt.succ {n : Nat} {o' : Operator} (h : UnmodulatedAt c P i o n o') :
    UnmodulatedAt c P i o (n + 1) (operCompute c P i 0 0 o').2 := by
  obtain ⟨hphase, haeg, hinc, hgain, hscale, hen⟩ := operCompute_enabled c P i 0 0 h.enabled
  refine ⟨hen.trans h.enabled, hscale.trans h.fbScale, ?_, hinc.trans h.inc, hgain.trans h.outGain, ?_⟩
  · calc (operCompute c P i 0 0 o').2.phase
        = Int.fract (o'.phase + o'.inc) := by
          rw [hphase, Cfg.frac_eq_fract hc, Cfg.add_exact hc, Cfg.mul_exact hc, c.valid.semiRatio_zero, mul_one]
      _ = Int.fract ((n : Num) * o.inc + o.inc) := by rw [h.phase, h.inc, fract_fract_add]
      _ = Int.fract (((n + 1 : Nat) : Num) * o.inc) := by rw [Nat.cast_succ, add_one_mul]
  · rw [haeg, h.aeg, Function.iterate_succ_apply']

theorem UnmodulatedAt.iterate (hen : o.enabled = true) (hscale : o.fbScale = 0) (hphase : o.phase = 0) (n : Nat) :
    UnmodulatedAt c P i o n ((fun o => (operCompute c P i 0 0 o).2)^[n] o) := by
  induction n with
  | zero => exact .zero hen hscale hphase
  | succ n ih =>
    rw [Function.iterate_succ_apply']
    exact ih.succ hc

/-- With no input and a feedback scale of 0 the sine is looked up at the phase itself. -/
theorem UnmodulatedAt.sample {n : Nat} {o' : Operator} (h : UnmodulatedAt c P i o n o') :
    (operCompute c P i 0 0 o').1 =
      c.sine (Int.fract ((n : Num) * o.inc)) * o.outGain * aegOut c ((aegTick c P i)^[n + 1] o.aeg) := by
  have hsine : (operCompute c P i 0 0 o').2.fbAcc = c.sine (Int.fract ((n : Num) * o.inc)) := by
    rw [operCompute_fbAcc c P i 0 0 h.enabled, h.fbScale, Cfg.mul_zero, Cfg.add_exact hc, Cfg.add_exact hc, add_zero, add_zero,
      Cfg.frac_eq_fract hc, h.phase, Int.fract_fract]
  rw [operCompute_sample c P i 0 0 h.enabled, hsine, h.outGain, h.aeg, Cfg.mul_exact hc, Cfg.mul_exact hc, Function.iterate_succ_apply']

end

/-- Settles O47: by induction on the number of calls the phase is `frac(n × inc)`, where the next call looks its sine up. -/
theorem unmodulatedOperatorIsPureSine : Obligations.UnmodulatedOperatorIsPureSine := fun _ _ _ _ hc hen hscale hphase n =>
  (UnmodulatedAt.iterate hc hen hscale hphase n).sample hc

end Sys2Proof.Machine

/-! The AEG (41_aeg.md): its transitions, stage by stage (R150, R155 to R158), and its output where a stage is entered (R152, R154, R159, R160). -/

namespace Sys2Proof

theorem Cfg.sub_exact {c : Cfg} (hc : c.num = .exact) (x y : Num) : c.sub x y = x - y := Cfg.round_exact hc _

end Sys2Proof

namespace Sys2Proof.Machine

section

variable (c : Cfg) (P : Memory) (i : Fin 4) {g : Aeg}

/-! The output level and its change of domain. -/

theorem aegOut_idle (h : g.stage = .idle) : aegOut c g = 0 := if_pos h

theorem aegOut_rising (h : g.stage ≠ .idle) (hr : g.rising = true) : aegOut c g = c.add (c.mul g.k (c.egCurve g.raw)) g.c := by
  rw [aegOut, if_neg h, if_pos hr]

theorem aegOut_not_rising (h : g.stage ≠ .idle) (hr : g.rising = false) : aegOut c g = c.egGain g.raw := by
  rw [aegOut, if_neg h, if_neg (by simp [hr])]

theorem aegReexpress_rising (h : g.stage ≠ .idle) (hr : g.rising = true) :
    aegReexpress c g = { g with raw := c.egGainInv (aegOut c g) } := if_pos ⟨h, hr⟩

theorem aegReexpress_eq_self (h : g.stage = .idle ∨ g.rising = false) : aegReexpress c g = g :=
  if_neg fun ⟨hstage, hr⟩ => h.elim hstage (by simp [hr])

/-! A tick. -/

/-- The level one step on, before it is held to the target (R155). -/
def aegAdvance (g : Aeg) : Num := if g.rising then c.add g.raw g.step else c.sub g.raw g.step

/-- The step of a tick reaches or passes the target, in the ramp's direction (R155). -/
def AegArrives (g : Aeg) : Prop := if g.rising then g.target ≤ c.add g.raw g.step else c.sub g.raw g.step ≤ g.target

theorem rampDone_aegAdvance : rampDone g.rising (aegAdvance c g) g.target = true ↔ AegArrives c g := by
  cases hr : g.rising <;> simp [rampDone, aegAdvance, AegArrives, hr]

theorem stageHolds_iff (s : Stage) : stageHolds s = true ↔ s = .sustain ∨ s = .idle := by
  simp [stageHolds, or_comm]

theorem stageGated_iff (s : Stage) : stageGated s = true ↔ s ≠ .release ∧ s ≠ .idle := by
  simp [stageGated]

theorem aegTick_holds (h : g.stage = .sustain ∨ g.stage = .idle) : aegTick c P i g = g :=
  if_pos ((stageHolds_iff _).mpr h)

/-- In a ramping stage a tick takes the transition exactly when the ramp arrives (R155). -/
theorem aegTick_ramping (h : ¬ (g.stage = .sustain ∨ g.stage = .idle)) :
    (AegArrives c g → aegTick c P i g = aegNextStage c P i { g with raw := g.target }) ∧
    (¬ AegArrives c g → aegTick c P i g = { g with raw := aegAdvance c g }) := by
  rw [← stageHolds_iff] at h
  rw [← rampDone_aegAdvance]
  rcases aegTick_cases c P i g with ⟨hholds, -⟩ | ⟨-, _, rfl, ⟨hd, e⟩ | ⟨hd, e⟩⟩
  · exact absurd hholds h
  · exact ⟨fun hd' => absurd (hd.symm.trans hd') (by decide), fun _ => e⟩
  · exact ⟨fun _ => e, fun hd' => absurd hd hd'⟩

/-! The transition a ramp that has arrived takes, by its stage (R155). -/

theorem aegNextStage_attack (h : g.stage = .attack) : aegNextStage c P i g = aegEnter c P i .decay1 g := by
  simp only [aegNextStage, h]

theorem aegNextStage_decay1 (h : g.stage = .decay1) : aegNextStage c P i g = aegEnter c P i .decay2 g := by
  simp only [aegNextStage, h]

theorem aegNextStage_decay2 (h : g.stage = .decay2) : aegNextStage c P i g = aegEnter c P i .sustain g := by
  simp only [aegNextStage, h]

theorem aegNextStage_release (h : g.stage = .release) : aegNextStage c P i g = aegToIdle c P i g := by
  simp only [aegNextStage, h]

/-! Stage entry and the gates. -/

/-- `AEG.enter` for a stage that ramps does what R154 says, element by element. -/
theorem aegEnter_entered {s : Stage} (hs : s ≠ .sustain) (g : Aeg) : AegEntered c P i s g (aegEnter c P i s g) := by
  have hrising : (aegEnter c P i s g).rising = ramps g.raw (aegTarget c P i s) := by simp [aegEnter_rising, hs]
  refine ⟨aegEnter_stage .., aegEnter_raw .., aegEnter_target .., ?_, ?_, fun h => ?_, fun h => ?_⟩
  · rw [hrising, aegEnter_target]
    rfl
  · rw [hrising, aegEnter_step, if_neg hs]
    rfl
  · rw [hrising] at h
    simp [aegEnter, hs, h, aegSlope]
  · rw [hrising] at h
    simp [aegEnter, hs, h]

theorem aegGateOn_soft_entered (g : Aeg) : AegEntered c P i .attack (aegReexpress c g) (aegGateOn c P i .soft g) :=
  aegEnter_entered c P i (by decide) _

/-- A HARD gate-on clears the direction too, which the stage entry then writes anew (R154, R157). -/
theorem aegGateOn_hard_entered (g : Aeg) : AegEntered c P i .attack { g with raw := 0 } (aegGateOn c P i .hard g) :=
  { aegEnter_entered c P i (s := .attack) (by decide) { g with raw := 0, rising := false } with }

theorem aegGateOff_entered (h : g.stage ≠ .release) (hidle : g.stage ≠ .idle) :
    AegEntered c P i .release (aegReexpress c g) (aegGateOff c P i g) := by
  rw [aegGateOff, if_pos ((stageGated_iff _).mpr ⟨h, hidle⟩)]
  exact aegEnter_entered c P i (by decide) _

theorem aegGateOff_eq_self (h : g.stage = .release ∨ g.stage = .idle) : aegGateOff c P i g = g :=
  if_neg fun hgated => h.elim ((stageGated_iff _).mp hgated).1 ((stageGated_iff _).mp hgated).2

end

/-- Settles O48: a tick by the stage and by whether the ramp arrives, then the gates, the reset and the output by direction. -/
theorem aegTransitionTable : Obligations.AegTransitionTable := by
  unfold Obligations.AegTransitionTable
  intro c P i g
  refine ⟨fun hstage h => ?_, fun hstage h => ?_, fun hstage h => ?_, fun hstage h => ?_,
    fun hsustain hidle => (aegTick_ramping c P i (not_or.mpr ⟨hsustain, hidle⟩)).2, aegTick_holds c P i,
    aegGateOff_entered c P i, aegGateOff_eq_self c P i, aegGateOn_hard_entered c P i g, aegGateOn_soft_entered c P i g,
    rfl, rfl, aegOut_idle c, aegOut_rising c, aegOut_not_rising c, aegReexpress_rising c, aegReexpress_eq_self c⟩ <;>
    have harrived := (aegTick_ramping c P i (by simp [hstage])).1 h
  · rw [harrived.trans (aegNextStage_attack c P i hstage)]
    exact aegEnter_entered c P i (by decide) _
  · rw [harrived.trans (aegNextStage_decay1 c P i hstage)]
    exact aegEnter_entered c P i (by decide) _
  · exact harrived.trans (aegNextStage_decay2 c P i hstage)
  · exact harrived.trans (aegNextStage_release c P i hstage)

/-! The output in exact arithmetic. -/

section

variable {c : Cfg} (hc : c.num = .exact) {P : Memory} {i : Fin 4} {s : Stage} {g g' : Aeg}

include hc

/-- The output right after a stage entry is `EG_GAIN` of the level it is entered with: in a rising stage the offset makes it so, whatever the slope (R154). -/
theorem AegEntered.out (h : AegEntered c P i s g g') (hs : s ≠ .idle) : aegOut c g' = c.egGain g.raw := by
  have hstage : g'.stage ≠ .idle := by rwa [h.stage]
  cases hr : g'.rising with
  | false => rw [aegOut_not_rising c hstage hr, h.raw]
  | true =>
    rw [aegOut_rising c hstage hr, (h.slope hr).2, h.raw, Cfg.add_exact hc, Cfg.sub_exact hc, Cfg.mul_exact hc, add_sub_cancel]

/-- The output a rising stage would have at its target is `EG_GAIN(target)`, since the curve tells the two ends apart (R7, R154). -/
theorem AegEntered.out_at_target (h : AegEntered c P i s g g') (hs : s ≠ .idle) (hr : g'.rising = true)
    (hne : c.egCurve g.raw ≠ c.egCurve g'.target) : aegOut c { g' with raw := g'.target } = c.egGain g'.target := by
  have hstage : g'.stage ≠ .idle := by rwa [h.stage]
  obtain ⟨hk, hoffset⟩ := h.slope hr
  have hspan : c.egCurve g'.target - c.egCurve g.raw ≠ 0 := sub_ne_zero.mpr hne.symm
  have hslope : g'.k * (c.egCurve g'.target - c.egCurve g.raw) = c.egGain g'.target - c.egGain g.raw := by
    rw [hk, Cfg.sub_exact hc, Cfg.sub_exact hc, Cfg.div_exact hc _ hspan, div_mul_cancel₀ _ hspan]
  calc aegOut c { g' with raw := g'.target }
      = c.add (c.mul g'.k (c.egCurve g'.target)) g'.c := aegOut_rising c hstage hr
    _ = g'.k * c.egCurve g'.target + (c.egGain g.raw - g'.k * c.egCurve g.raw) := by
        rw [hoffset, Cfg.add_exact hc, Cfg.sub_exact hc, Cfg.mul_exact hc, Cfg.mul_exact hc]
    _ = c.egGain g'.target := by linear_combination hslope

/-- Exact arithmetic has no other numbers than NUMs (R8 (a)). -/
theorem isNum_of_exact (x : Num) : c.IsNum x := by
  simp only [CfgData.IsNum, hc]

/-- Re-expressing the level keeps the output: `EG_GAIN` of the new level is the output before (R7, R159). -/
theorem egGain_aegReexpress (hstage : g.stage ≠ .idle) (hval : g.rising = true → ∃ x, c.InEgRange x ∧ aegOut c g = c.egGain x) :
    c.egGain (aegReexpress c g).raw = aegOut c g := by
  cases hr : g.rising with
  | false => rw [aegReexpress_eq_self c (.inr hr), aegOut_not_rising c hstage hr]
  | true =>
    obtain ⟨x, hx, hout⟩ := hval hr
    simp only [aegReexpress_rising c hstage hr, hout]
    exact (c.valid.egGainInv_right x (isNum_of_exact hc x) hx).1

end

/-- Settles O49: the curve rises strictly on the interval the two levels lie in, so the slope is the exact quotient. -/
theorem risingMapMeetsBothEndpoints : Obligations.RisingMapMeetsBothEndpoints := by
  unfold Obligations.RisingMapMeetsBothEndpoints
  intro c P i s g hc hsustain hidle h0 hlt
  have hentered := aegEnter_entered c P i hsustain g
  have htarget := hentered.target
  have hr : (aegEnter c P i s g).rising = true := by
    rw [hentered.rising, htarget]
    exact decide_eq_true hlt
  have hcurve : c.egCurve g.raw < c.egCurve (aegEnter c P i s g).target := by
    rw [htarget]
    exact c.valid.egCurve_strict _ _ (isNum_of_exact hc _) (isNum_of_exact hc _) ⟨h0, _, hlt.le⟩
      ⟨c.valid.egLevel_nonneg _, _, le_rfl⟩ hlt
  exact ⟨hr, hentered.out hc hidle, hentered.out_at_target hc hidle hr hcurve.ne⟩

/-- Settles O50: both gates enter their stage from the re-expressed level, whose `EG_GAIN` is the output before; a gate-off in RELEASE changes nothing. -/
theorem outputContinuousAtSoftGates : Obligations.OutputContinuousAtSoftGates := by
  unfold Obligations.OutputContinuousAtSoftGates
  intro c P i g hc hstage hval
  have hlevel := egGain_aegReexpress hc hstage hval
  refine ⟨?_, ((aegGateOn_soft_entered c P i g).out hc (by decide)).trans hlevel⟩
  by_cases hrel : g.stage = .release
  · rw [aegGateOff_eq_self c P i (.inl hrel)]
  · exact ((aegGateOff_entered c P i hrel hstage).out hc (by decide)).trans hlevel

end Sys2Proof.Machine

/-! The PEG (42_peg.md): its transitions, stage by stage (R181 to R187), and a PEG whose four levels are one (R189 (1)). -/

namespace Sys2Proof.Machine

/-- The test that ends a ramp, for the level one step on, by the ramp's direction (R184). -/
theorem rampDone_ite (rising : Bool) (up down target : Num) :
    rampDone rising (if rising then up else down) target = true ↔ if rising then target ≤ up else down ≤ target := by
  cases rising <;> simp [rampDone]

section

variable (c : Cfg) (P : Memory) {g : Peg}

/-! A tick. -/

/-- The step of a tick reaches or passes the target, in the ramp's direction (R184). -/
def PegArrives (g : Peg) : Prop := if g.rising then g.target ≤ c.add g.raw g.step else c.sub g.raw g.step ≤ g.target

theorem pegTick_holds (h : g.stage = .sustain ∨ g.stage = .idle) : pegTick c P g = g :=
  if_pos ((stageHolds_iff _).mpr h)

/-- In a ramping stage a tick takes the transition exactly when the ramp arrives (R184). -/
theorem pegTick_ramping (h : ¬ (g.stage = .sustain ∨ g.stage = .idle)) :
    (PegArrives c g → pegTick c P g = pegNextStage c P { g with raw := g.target }) ∧
    (¬ PegArrives c g → pegTick c P g = { g with raw := if g.rising then c.add g.raw g.step else c.sub g.raw g.step }) := by
  rw [← stageHolds_iff] at h
  rw [PegArrives, ← rampDone_ite]
  rcases pegTick_cases c P g with ⟨hholds, -⟩ | ⟨-, _, rfl, ⟨hd, e⟩ | ⟨hd, e⟩⟩
  · exact absurd hholds h
  · exact ⟨fun hd' => absurd (hd.symm.trans hd') (by decide), fun _ => e⟩
  · exact ⟨fun _ => e, fun hd' => absurd hd hd'⟩

/-! Stage entry and the gates. -/

/-- `PEG.enter` for a stage that ramps does what R183 says, element by element. -/
theorem pegEnter_entered {s : Stage} (hs : s ≠ .sustain) (g : Peg) : PegEntered c P s g (pegEnter c P s g) := by
  have hrising : (pegEnter c P s g).rising = ramps g.raw (pegTarget c P s) := by simp [pegEnter_rising, hs]
  refine ⟨pegEnter_stage .., pegEnter_raw .., pegEnter_target .., ?_, ?_⟩
  · rw [hrising, pegEnter_target]
    rfl
  · rw [hrising, pegEnter_step, if_neg hs]
    rfl

theorem pegGateOn_soft_entered (g : Peg) : PegEntered c P .attack g (pegGateOn c P .soft g) :=
  pegEnter_entered c P (by decide) g

/-- A HARD gate-on starts from the RELEASE level; it clears the direction too, which the stage entry then writes anew (R183, R186). -/
theorem pegGateOn_hard_entered (g : Peg) :
    PegEntered c P .attack { g with raw := pegTarget c P .release } (pegGateOn c P .hard g) :=
  { pegEnter_entered c P (s := .attack) (by decide) { g with raw := pegTarget c P .release, rising := false } with }

theorem pegGateOff_entered (h : g.stage ≠ .release) (hidle : g.stage ≠ .idle) :
    PegEntered c P .release g (pegGateOff c P g) := by
  rw [pegGateOff, if_pos ((stageGated_iff _).mpr ⟨h, hidle⟩)]
  exact pegEnter_entered c P (by decide) g

theorem pegGateOff_eq_self (h : g.stage = .release ∨ g.stage = .idle) : pegGateOff c P g = g :=
  if_neg fun hgated => h.elim ((stageGated_iff _).mp hgated).1 ((stageGated_iff _).mp hgated).2

end

/-- Settles O51: a tick by the stage and by whether the ramp arrives, then the gates and the reset. -/
theorem pegTransitionTable : Obligations.PegTransitionTable := by
  unfold Obligations.PegTransitionTable
  intro c P g
  refine ⟨fun hstage h => ?_, fun hstage h => ?_, fun hstage h => ?_, fun hstage h => ?_,
    fun hsustain hidle => (pegTick_ramping c P (not_or.mpr ⟨hsustain, hidle⟩)).2, pegTick_holds c P,
    pegGateOff_entered c P, pegGateOff_eq_self c P, pegGateOn_hard_entered c P g, pegGateOn_soft_entered c P g, rfl, rfl⟩ <;>
    rw [(pegTick_ramping c P (by simp [hstage])).1 h] <;> simp only [pegNextStage, hstage]
  · exact pegEnter_entered c P (by decide) _
  · exact pegEnter_entered c P (by decide) _
  · rfl
  · rfl

/-! A PEG whose four level bytes are equal (R189 (1)). -/

/-- The PEG is at level `x` and bound for it: what R189 (1) keeps. -/
structure PegFlatAt (x : Num) (g : Peg) : Prop where
  raw : g.raw = x
  target : g.target = x
  step : 0 ≤ g.step

theorem stageIdx_lt (s : Stage) : stageIdx s < 4 := by
  cases s <;> decide

section

variable {c : Cfg} {P : Memory} {x : Num} {g : Peg}

/-- At its target a ramp arrives at once, in either direction: an exact step of at least 0 does not turn back. -/
theorem PegFlatAt.arrives (hc : c.num = .exact) (h : PegFlatAt x g) : PegArrives c g := by
  obtain ⟨hraw, htarget, hstep⟩ := h
  rw [PegArrives, hraw, htarget, Cfg.add_exact hc, Cfg.sub_exact hc]
  split_ifs
  · exact le_add_of_nonneg_right hstep
  · exact sub_le_self _ hstep

variable (hflat : ∀ s, pegTarget c P s = x)

include hflat

theorem pegEnter_flatAt (s : Stage) (h : g.raw = x) : PegFlatAt x (pegEnter c P s g) :=
  ⟨(pegEnter_raw ..).trans h, (pegEnter_target ..).trans (hflat s), pegEnter_step_nonneg ..⟩

theorem pegNextStage_flatAt (h : PegFlatAt x g) : PegFlatAt x (pegNextStage c P g) := by
  unfold pegNextStage
  split
  · exact pegEnter_flatAt hflat _ h.raw
  · exact pegEnter_flatAt hflat _ h.raw
  · exact pegEnter_flatAt hflat _ h.raw
  · exact ⟨h.raw, h.target, le_rfl⟩
  · exact h
  · exact h

theorem pegTick_flatAt (hc : c.num = .exact) (h : PegFlatAt x g) : PegFlatAt x (pegTick c P g) := by
  by_cases hstage : g.stage = .sustain ∨ g.stage = .idle
  · rwa [pegTick_holds c P hstage]
  · rw [(pegTick_ramping c P hstage).1 (h.arrives hc)]
    exact pegNextStage_flatAt hflat ⟨h.target, h.target, h.step⟩

theorem pegGateOn_flatAt (k : GateKind) (h : PegFlatAt x g) : PegFlatAt x (pegGateOn c P k g) := by
  unfold pegGateOn
  split
  · exact pegEnter_flatAt hflat _ (hflat .release)
  · exact pegEnter_flatAt hflat _ h.raw

theorem pegGateOff_flatAt (h : PegFlatAt x g) : PegFlatAt x (pegGateOff c P g) := by
  unfold pegGateOff
  split_ifs
  · exact pegEnter_flatAt hflat _ h.raw
  · exact h

theorem pegReset_flatAt (g : Peg) : PegFlatAt x (pegReset c P g) :=
  ⟨hflat _, hflat _, le_rfl⟩

end

/-- Settles O52: every operation keeps `PegFlatAt`, and `peg_out` reads the level alone (R188). -/
theorem flatPegIsConstant : Obligations.FlatPegIsConstant := by
  unfold Obligations.FlatPegIsConstant
  intro c P b g hc hbytes hraw htarget hstep g' hg'
  have hflat (s : Stage) : pegTarget c P s = c.pegLevel b := congrArg c.pegLevel (hbytes _ (stageIdx_lt s))
  have h : PegFlatAt (c.pegLevel b) g := ⟨hraw, htarget, hstep⟩
  have h' : PegFlatAt (c.pegLevel b) g' := by
    rcases hg' with rfl | ⟨k, rfl⟩ | rfl | rfl
    · exact pegTick_flatAt hflat hc h
    · exact pegGateOn_flatAt hflat k h
    · exact pegGateOff_flatAt hflat h
    · exact pegReset_flatAt hflat g
  exact ⟨h'.raw, h'.target, h'.step, by rw [pegOut, pegOut, h'.raw, hraw]⟩

end Sys2Proof.Machine

/-! The LFO (43_lfo.md): the xorshift (R205), what a block update draws and writes (R207 to R212), and its line and its range in exact arithmetic (R213). -/

namespace Sys2Proof

theorem Cfg.ofNat_exact {c : Cfg} (hc : c.num = .exact) (n : Nat) : c.ofNat n = (n : Num) := Cfg.round_exact hc _

end Sys2Proof

namespace Sys2Proof.Machine

/-- A step to the left of the xorshift is linear over XOR (R205). -/
theorem xor_shiftLeft_xor (x y : Word) (k : Nat) : x ^^^ y ^^^ (x ^^^ y) <<< k = x ^^^ x <<< k ^^^ (y ^^^ y <<< k) := by
  rw [BitVec.shiftLeft_xor_distrib]
  ac_rfl

theorem xor_ushiftRight_xor (x y : Word) (k : Nat) : x ^^^ y ^^^ (x ^^^ y) >>> k = x ^^^ x >>> k ^^^ (y ^^^ y >>> k) := by
  rw [BitVec.ushiftRight_xor_distrib]
  ac_rfl

theorem xorshift32_xor (x y : Word) : xorshift32 (x ^^^ y) = xorshift32 x ^^^ xorshift32 y := by
  simp only [xorshift32]
  rw [xor_shiftLeft_xor x y 13, xor_ushiftRight_xor _ _ 17, xor_shiftLeft_xor _ _ 5]

/-- A linear map with no nonzero word sent to 0 tells words apart. -/
theorem xorshift32_injective : Function.Injective xorshift32 := by
  intro x y h
  by_contra hne
  have hxor : x ^^^ y ≠ 0 := fun h0 => hne (BitVec.xor_eq_zero_iff.mp h0)
  exact xorshift32_ne_zero hxor (by rw [xorshift32_xor, h, BitVec.xor_self]; rfl)

/-- Settles O53: the three steps lose no word, and the worked values are evaluated. -/
theorem xorshiftKeepsNonzero : Obligations.XorshiftKeepsNonzero := by
  refine ⟨fun _ => xorshift32_ne_zero, fun _ _ h => xorshift32_injective h, ?_⟩
  decide

/-! The two classes of waveforms (R207). -/

theorem waveContinuous_iff (w : LfoWave) : waveContinuous w = true ↔ w = .sine ∨ w = .tri ∨ w = .sawUp ∨ w = .sawDown := by
  cases w <;> simp [waveContinuous]

theorem waveContinuous_eq_false_iff (w : LfoWave) : waveContinuous w = false ↔ w = .square ∨ w = .sh8 ∨ w = .shFree := by
  cases w <;> simp [waveContinuous]

section

variable (c : Cfg) {l : Lfo}

/-! The redraw at a block start, by waveform. -/

theorem lfoRedraw_sh8_changed (h : lfoEighth c l.p ≠ l.stepIdx) :
    lfoRedraw c .sh8 l = { lfoDraw c l with wrap := false, stepIdx := lfoEighth c l.p } := if_pos h

theorem lfoRedraw_sh8_same (h : lfoEighth c l.p = l.stepIdx) : lfoRedraw c .sh8 l = { l with wrap := false } :=
  if_neg (not_not.mpr h)

theorem lfoRedraw_shFree_wrapped (h : l.wrap = true) : lfoRedraw c .shFree l = { lfoDraw c l with wrap := false } := if_pos h

theorem lfoRedraw_shFree_same (h : l.wrap = false) : lfoRedraw c .shFree l = { l with wrap := false } :=
  if_neg (by simp [h])

/-- Only the sample-and-hold modes draw (R209, R210). -/
theorem lfoRedraw_not_sampled {w : LfoWave} (h8 : w ≠ .sh8) (hfree : w ≠ .shFree) (l : Lfo) :
    lfoRedraw c w l = { l with wrap := false } := by
  cases w with
  | sine | tri | sawUp | sawDown | square => rfl
  | sh8 => exact absurd rfl h8
  | shFree => exact absurd rfl hfree

/-- Only 8-step mode keeps track of the eighth of the cycle (R209). -/
theorem lfoRedraw_stepIdx {w : LfoWave} (h8 : w ≠ .sh8) (l : Lfo) : (lfoRedraw c w l).stepIdx = l.stepIdx := by
  by_cases hfree : w = .shFree
  · subst hfree
    cases h : l.wrap with
    | false => rw [lfoRedraw_shFree_same c h]
    | true => rw [lfoRedraw_shFree_wrapped c h]; rfl
  · rw [lfoRedraw_not_sampled c h8 hfree]

end

/-! The elements a block update writes besides `p` and `e` (R212), in terms of the ones it leaves. -/

section

variable (c : Cfg) (P : Memory) (n : Nat) (l : Lfo)

@[simp] theorem lfoBlockUpdate_stepIdx : (lfoBlockUpdate c P n l).stepIdx = (lfoRedraw c (patchLfoWave P) l).stepIdx := rfl

theorem lfoBlockUpdate_val :
    (lfoBlockUpdate c P n l).val =
      c.mul (wave c (patchLfoWave P) l.p (lfoBlockUpdate c P n l).sh) (fade c l.e (lfoDelay c P)) := by
  obtain ⟨-, hp, he⟩ := lfoRedraw_cases c (patchLfoWave P) l
  simp only [lfoBlockUpdate, hp, he]

theorem lfoBlockUpdate_inc_continuous (h : waveContinuous (patchLfoWave P) = true) :
    (lfoBlockUpdate c P n l).inc =
      c.div (c.sub (c.mul (wave c (patchLfoWave P) (lfoBlockUpdate c P n l).p (lfoBlockUpdate c P n l).sh)
        (fade c (lfoBlockUpdate c P n l).e (lfoDelay c P))) (lfoBlockUpdate c P n l).val) (c.ofNat n) := if_pos h

theorem lfoBlockUpdate_inc_held (h : waveContinuous (patchLfoWave P) = false) : (lfoBlockUpdate c P n l).inc = 0 :=
  if_neg (by simp [h])

theorem lfoBlockUpdate_wrap :
    (lfoBlockUpdate c P n l).wrap = true ↔ 1 ≤ c.add l.p (c.mul (c.ofNat n) (lfoDphi c P)) := by
  obtain ⟨-, hp, -⟩ := lfoRedraw_cases c (patchLfoWave P) l
  simp only [lfoBlockUpdate, hp, decide_eq_true_iff]

/-- The value of a continuous waveform's block is the wave at the phase, held value and fade count the block before left. -/
theorem lfoBlockUpdate_val_continuous (h : waveContinuous (patchLfoWave P) = true) :
    (lfoBlockUpdate c P n l).val = c.mul (wave c (patchLfoWave P) l.p l.sh) (fade c l.e (lfoDelay c P)) := by
  rw [lfoBlockUpdate_val, lfoBlockUpdate_sh, lfoRedraw_continuous c h]

end

/-- Settles O54: the three operations keep the LFO sound, and the redraw of a block is one of two. -/
theorem lfoStaysInRange : Obligations.LfoStaysInRange := by
  unfold Obligations.LfoStaysInRange
  intro c P n l h _
  have hrng : l.rng ≠ 0 := h.2.1
  refine ⟨lfoBlockUpdate_sound c P n h, lfoSync_sound c hrng, lfoReset_sound c hrng,
    fun hheld => lfoBlockUpdate_inc_held c P n l ((waveContinuous_eq_false_iff _).mpr hheld), ?_,
    lfoSync_rng c l, lfoReset_rng l, rfl⟩
  obtain ⟨hdraw, -⟩ := lfoRedraw_cases c (patchLfoWave P) l
  exact hdraw.imp And.left And.left

/-- Settles O55: the redraw, waveform by waveform. -/
theorem sampleAndHoldRedraws : Obligations.SampleAndHoldRedraws := by
  unfold Obligations.SampleAndHoldRedraws
  intro c P n l
  have hwave : patchLfoWave P = enumLfoWave (memRead P 0x11) := rfl
  simp only [lfoBlockUpdate_rng, lfoBlockUpdate_sh, lfoBlockUpdate_stepIdx, hwave]
  generalize enumLfoWave (memRead P 0x11) = w
  refine ⟨?_, ?_, ?_, ?_, fun h8 hfree => ?_, fun h8 => lfoRedraw_stepIdx c h8 l⟩
  · rintro rfl h
    rw [lfoRedraw_sh8_changed c (Fin.ne_of_val_ne h)]
    exact ⟨⟨rfl, rfl⟩, rfl⟩
  · rintro rfl h
    rw [lfoRedraw_sh8_same c (Fin.ext h)]
    exact ⟨⟨rfl, rfl⟩, rfl⟩
  · rintro rfl h
    rw [lfoRedraw_shFree_wrapped c h]
    exact ⟨rfl, rfl⟩
  · rintro rfl h
    rw [lfoRedraw_shFree_same c h]
    exact ⟨rfl, rfl⟩
  · rw [lfoRedraw_not_sampled c h8 hfree]
    exact ⟨rfl, rfl⟩

/-- Settles O59: one rule per element of the block update, the waveforms' rows and the fade. -/
theorem lfoBlockUpdateWritesEveryElement : Obligations.LfoBlockUpdateWritesEveryElement := by
  unfold Obligations.LfoBlockUpdateWritesEveryElement
  refine ⟨fun c P n l _ => ⟨lfoBlockUpdate_p c P n l, lfoBlockUpdate_e c P n l, lfoBlockUpdate_val c P n l,
    fun h => lfoBlockUpdate_inc_continuous c P n l ((waveContinuous_iff _).mpr h),
    fun h => lfoBlockUpdate_inc_held c P n l ((waveContinuous_eq_false_iff _).mpr h), lfoBlockUpdate_wrap c P n l⟩, ?_, ?_⟩
  · refine fun c p sh => ⟨rfl, fun h => if_pos h, fun h1 h3 => ?_, fun h3 => ?_, rfl, rfl, fun h => if_pos h,
      fun h => if_neg (not_lt.mpr h), rfl, rfl⟩
    · exact (if_neg (not_lt.mpr h1)).trans (if_pos h3)
    · have h1 : ¬ p < 1 / 4 := by linarith
      exact (if_neg h1).trans (if_neg (not_lt.mpr h3))
  · exact fun c e D => ⟨if_pos rfl, fun h => if_neg h⟩

/-! The line and the range of the value in exact arithmetic (R213 (3), (5)). -/

section

variable {c : Cfg} (hc : c.num = .exact)

include hc

/-- The increment of a continuous waveform spreads the whole way to the wave at the block's end over its `n` samples (R212). -/
theorem lfoBlockUpdate_line {P : Memory} {n : Nat} (hn : 1 ≤ n) (h : waveContinuous (patchLfoWave P) = true) (l : Lfo) :
    (lfoBlockUpdate c P n l).val + (n : Num) * (lfoBlockUpdate c P n l).inc =
      c.mul (wave c (patchLfoWave P) (lfoBlockUpdate c P n l).p (lfoBlockUpdate c P n l).sh)
        (fade c (lfoBlockUpdate c P n l).e (lfoDelay c P)) := by
  have hn0 : (n : Num) ≠ 0 := by positivity
  rw [lfoBlockUpdate_inc_continuous c P n l h, Cfg.ofNat_exact hc, Cfg.div_exact hc _ hn0, mul_div_cancel₀ _ hn0, Cfg.sub_exact hc,
    add_sub_cancel]

/-- In [0,1) every waveform lies in [−1, 1], while `SINE` and the held value do (R207). -/
theorem wave_range (hsine : ∀ p, 0 ≤ p → p < 1 → -1 ≤ c.sine p ∧ c.sine p ≤ 1) {p sh : Num} (hp : 0 ≤ p ∧ p < 1)
    (hsh : -1 ≤ sh ∧ sh ≤ 1) (w : LfoWave) : -1 ≤ wave c w p sh ∧ wave c w p sh ≤ 1 := by
  obtain ⟨h0, h1⟩ := hp
  cases w with
  | sine => exact hsine p h0 h1
  | tri =>
    simp only [wave, Cfg.sub_exact hc, Cfg.mul_exact hc]
    split_ifs <;> constructor <;> linarith
  | sawUp | sawDown =>
    simp only [wave, Cfg.sub_exact hc, Cfg.mul_exact hc]
    constructor <;> linarith
  | square =>
    simp only [wave]
    split_ifs <;> norm_num
  | sh8 | shFree => exact hsh

end

/-- Settles O56: the line of a block ends at the wave of the phase and the fade it leaves, which is where the next block, of whatever length, begins. -/
theorem lfoLineMeetsNextBlock : Obligations.LfoLineMeetsNextBlock := by
  unfold Obligations.LfoLineMeetsNextBlock
  intro c P n m l hc hn hsquare h8 hfree
  have hcont : waveContinuous (patchLfoWave P) = true :=
    eq_true_of_ne_false fun hheld => ((waveContinuous_eq_false_iff _).mp hheld).elim hsquare fun h => h.elim h8 hfree
  rw [lfoBlockUpdate_line hc hn hcont, lfoBlockUpdate_val_continuous c P m _ hcont]

/-- Settles O57: the value is a waveform in [−1, 1] times a gain in [0,1]. -/
theorem lfoValueIsBounded : Obligations.LfoValueIsBounded := by
  unfold Obligations.LfoValueIsBounded
  intro c P n l hc hsine h
  obtain ⟨-, -, hsh, -⟩ := lfoBlockUpdate_sound c P n h
  have hwave := wave_range hc hsine h.1 hsh (patchLfoWave P)
  obtain ⟨hfade0, hfade1⟩ := fade_range c l.e (lfoDelay c P)
  rw [lfoBlockUpdate_val, Cfg.mul_exact hc, ← abs_le, abs_mul, abs_of_nonneg hfade0]
  exact mul_le_one₀ (abs_le.mpr hwave) hfade0 hfade1

end Sys2Proof.Machine

/-! The voice (44_voice.md): activity and reset (R231, R232), the note-on actions (R233 to R238, R243), note-off and release (R239, R240), the modulation
update and the glide (R241, R242). -/

namespace Sys2Proof.Machine

/-- Settles O38. -/
theorem activeMeansAnEnabledSoundingOperator : Obligations.ActiveMeansAnEnabledSoundingOperator := isActive_iff

/-- `Voice.reset` reads of the voice only what it keeps, so a second one changes nothing (R232). -/
theorem voiceReset_idempotent (c : Cfg) (P : Memory) (x : Voice) : voiceReset c P (voiceReset c P x) = voiceReset c P x := rfl

/-- Settles O39. -/
theorem voiceResetSilencesAndIsIdempotent : Obligations.VoiceResetSilencesAndIsIdempotent := fun c P x =>
  ⟨voiceReset_effect c P x, isActive_voiceReset c P x, voiceReset_idempotent c P x⟩

/-- A gate-on keeps the cached parameters (R128). -/
theorem ParamsSet.gateOn {c : Cfg} {P : Memory} {i : Fin 4} {t : Int} {vel : U7} {hz : Num} {o : Operator} (h : ParamsSet c P i t vel hz o) (k : GateKind) :
    ParamsSet c P i t vel hz (operGateOn c P i k o) :=
  ⟨h.enabled, h.inc, h.outGain, h.fbScale⟩

section

variable (c : Cfg) (P : Memory) (ctl : Controls)

/-! Note-off and release. -/

theorem voiceRelease_effect (x : Voice) : ReleaseEffect c P x (voiceRelease c P x) where
  op i := by simp only [voiceRelease, Quad.get_mapIdx]; rfl
  peg := rfl
  rest := rfl

theorem voiceNoteOff_pedal_down (h : ctl.sustain = true) (x : Voice) :
    voiceNoteOff c P ctl x = { x with gate := false, sustained := true } := if_pos h

theorem voiceNoteOff_pedal_up (h : ctl.sustain = false) (x : Voice) :
    voiceNoteOff c P ctl x = voiceRelease c P { x with gate := false } := if_neg (by simp [h])

theorem voiceNoteOff_effect (x : Voice) : NoteOffEffect c P ctl x (voiceNoteOff c P ctl x) where
  down h := voiceNoteOff_pedal_down c P ctl h x
  up h := by rw [voiceNoteOff_pedal_up c P ctl h]; exact voiceRelease_effect c P _

/-! The three actions of a note-on. -/

theorem noteOnCommon_written (n vel : U7) (x : Voice) : NoteWritten P n vel x (noteOnCommon P n vel x) :=
  ⟨rfl, rfl, rfl, rfl, rfl, rfl, rfl, rfl, rfl⟩

variable (n vel : U7) (x : Voice)

/-- The retrigger is action A: each operator is reset, given its parameters and gated on hard (R236). -/
theorem voiceRetrigger_actionA : ActionA c P n vel x (voiceRetrigger c P (noteTarget c P n) vel (noteOnCommon P n vel x)) where
  written := { noteOnCommon_written P n vel x with }
  running i := by simp only [voiceRetrigger, Quad.get_mapIdx]; exact ⟨rfl, rfl, rfl⟩
  params i := by
    simp only [voiceRetrigger, Quad.get_mapIdx]
    exact (operSetParams_paramsSet c P i _ vel _ _).gateOn .hard
  aeg i := by
    simp only [voiceRetrigger, Quad.get_mapIdx]
    exact { aegGateOn_hard_entered c P i (aegReset c P i (x.op.get i).aeg) with }
  peg := pegGateOn_hard_entered c P x.peg
  lfo := rfl
  porta := ⟨rfl, rfl, rfl⟩

theorem portaInForce_iff : portaInForce ctl = true ↔ ctl.portaEnable = true ∧ 0 < ctl.portaTimeSec := by
  simp [portaInForce]

theorem voiceGlide_glides :
    Glides c P ctl n vel x
      (voiceGlide c P (portaInForce ctl) (currentNote c x) (noteTarget c P n) vel (noteOnCommon P n vel x)) where
  written := { noteOnCommon_written P n vel x with }
  running i := by simp only [voiceGlide, Quad.get_mapIdx]; exact ⟨rfl, rfl, rfl⟩
  params i := by simp only [voiceGlide, Quad.get_mapIdx]; exact operSetParams_paramsSet c P i _ vel _ _
  lfo := rfl
  portaOn h := by
    rw [(portaInForce_iff ctl).mpr h]
    exact ⟨rfl, rfl, rfl⟩
  portaOff h := by
    rw [Bool.not_eq_true _ |>.mp (mt (portaInForce_iff ctl).mp h)]
    exact ⟨rfl, rfl, rfl⟩

/-- The legato glide is action B: no envelope is touched (R237). -/
theorem voiceGlide_actionB :
    ActionB c P ctl n vel x
      (voiceGlide c P (portaInForce ctl) (currentNote c x) (noteTarget c P n) vel (noteOnCommon P n vel x)) where
  glides := voiceGlide_glides c P ctl n vel x
  aeg i := by simp only [voiceGlide, Quad.get_mapIdx]; rfl
  peg := rfl

/-- The glide with re-gate is action C: a glide, then every envelope gated on softly, which writes nothing the glide wrote (R238). -/
theorem voiceRegate_actionC :
    ActionC c P ctl n vel x
      (voiceRegate c P (portaInForce ctl) (currentNote c x) (noteTarget c P n) vel (noteOnCommon P n vel x)) where
  glides :=
    { voiceGlide_glides c P ctl n vel x with
      written := { noteOnCommon_written P n vel x with }
      running := fun i => by
        simp only [voiceRegate, Quad.get_mapIdx]
        exact (voiceGlide_glides c P ctl n vel x).running i
      params := fun i => by
        simp only [voiceRegate, Quad.get_mapIdx]
        exact ((voiceGlide_glides c P ctl n vel x).params i).gateOn .soft }
  aeg i := by
    simp only [voiceRegate, voiceGlide, Quad.get_mapIdx]
    exact aegGateOn_soft_entered c P i (x.op.get i).aeg
  peg := pegGateOn_soft_entered c P x.peg

/-! The action table (R234). -/

theorem noteAction_overlap {mode : Mode} (h : mode ≠ .poly) (porta : Bool) : noteAction mode true porta = .glide := by
  cases mode with
  | poly => exact absurd rfl h
  | monoFull => rfl
  | monoLegato => rfl

variable {n vel x}

theorem voiceNoteOn_actionA (h : noteAction (patchMode P) x.gate (portaInForce ctl && isActive x) = .retrigger) :
    ActionA c P n vel x (voiceNoteOn c P ctl n vel x) := by
  simp only [voiceNoteOn, h]
  exact voiceRetrigger_actionA c P n vel x

theorem voiceNoteOn_actionB (h : noteAction (patchMode P) x.gate (portaInForce ctl && isActive x) = .glide) :
    ActionB c P ctl n vel x (voiceNoteOn c P ctl n vel x) := by
  simp only [voiceNoteOn, h]
  exact voiceGlide_actionB c P ctl n vel x

theorem voiceNoteOn_actionC (h : noteAction (patchMode P) x.gate (portaInForce ctl && isActive x) = .regate) :
    ActionC c P ctl n vel x (voiceNoteOn c P ctl n vel x) := by
  simp only [voiceNoteOn, h]
  exact voiceRegate_actionC c P ctl n vel x

/-- A note-on runs the action of its row of the table (R234). -/
theorem voiceNoteOn_effect : NoteOnEffect c P ctl n vel x (voiceNoteOn c P ctl n vel x) where
  poly (hmode : patchMode P = .poly) := voiceNoteOn_actionA c P ctl (by rw [hmode]; rfl)
  overlap (hmode : patchMode P ≠ .poly) hgate := voiceNoteOn_actionB c P ctl (by rw [hgate, noteAction_overlap hmode])
  legatoIsolated (hmode : patchMode P = .monoLegato) hgate := voiceNoteOn_actionA c P ctl (by rw [hmode, hgate]; rfl)
  fullIsolatedGlide (hmode : patchMode P = .monoFull) hgate henable htime hactive := voiceNoteOn_actionC c P ctl <| by
    rw [hmode, hgate, (portaInForce_iff ctl).mpr ⟨henable, htime⟩, hactive]
    rfl
  fullIsolatedHard (hmode : patchMode P = .monoFull) hgate hno := voiceNoteOn_actionA c P ctl <| by
    have hfalse : (portaInForce ctl && isActive x) = false := by
      rw [← portaInForce_iff, Bool.not_eq_true] at hno
      rwa [Bool.and_eq_false_iff]
    rw [hmode, hgate, hfalse]
    rfl

end

/-- Settles O40. -/
theorem noteOffHonoursThePedal : Obligations.NoteOffHonoursThePedal := fun c P ctl x =>
  ⟨voiceNoteOff_effect c P ctl x, voiceRelease_effect c P x⟩

/-- Settles O13. -/
theorem noteOnActionTable : Obligations.NoteOnActionTable := fun c P ctl _ _ _ => voiceNoteOn_effect c P ctl

/-! `NOTE_ON` in the mono modes (R283, R301). -/

/-- In a mono mode `NOTE_ON` pushes its note and plays voice 0. -/
theorem cmdNoteOn_mono (c : Cfg) {note velocity : Nat} {s : State} (hnote : note ≤ 127) (hmode : patchMode s.cur ≠ .poly) :
    cmdNoteOn c note velocity s =
      noteOnVoice c 0 (u7Nat note) (u7Nat velocity) { s with alloc := { allocPush c (u7Nat note) s.alloc with monoActive := true } } := by
  rw [cmdNoteOn, if_neg hnote.not_gt]
  cases hm : patchMode s.cur with
  | poly => exact absurd hm hmode
  | monoFull => rfl
  | monoLegato => rfl

theorem exec_noteOn_mono_voice_zero {note velocity : Nat} {s : State} {x : Voice} (hnote : note ≤ 127) (hmode : patchMode s.cur ≠ .poly)
    (hx : s.voices[0]? = some x) :
    ∃ t, exec (.noteOn note velocity) s = .next t ∧
      t.voices[0]? = some (voiceNoteOn Config.cfg s.cur s.ctl (u7Nat note) (u7Nat velocity) x) := by
  refine ⟨_, exec_eq _ s, ?_⟩
  rw [applyInstr, cmdNoteOn_mono Config.cfg hnote hmode, noteOnVoice, State.modifyVoice_voices, modify_getElem?, if_pos rfl, hx]
  rfl

/-- Settles O17: an overlapping note-on is action B, which keeps every AEG; an isolated one in mono-legato mode is action A, which enters ATTACK at level 0. -/
theorem overlapKeepsLevelsIsolatedRetriggers : Obligations.OverlapKeepsLevelsIsolatedRetriggers := by
  unfold Obligations.OverlapKeepsLevelsIsolatedRetriggers
  intro s note velocity x hnote hx hmono
  have hmode : patchMode s.cur ≠ .poly := by
    intro hpoly
    rcases hmono with h | h <;> exact absurd (hpoly.symm.trans h) (by decide)
  obtain ⟨t, hexec, hvoice⟩ := exec_noteOn_mono_voice_zero (velocity := velocity) hnote hmode hx
  have heffect := voiceNoteOn_effect Config.cfg s.cur s.ctl (n := u7Nat note) (vel := u7Nat velocity) (x := x)
  refine ⟨fun hgate => ⟨t, _, hexec, hvoice, fun i => ?_⟩, fun hgate hlegato => ⟨t, _, hexec, hvoice, fun i => ?_⟩⟩
  · have haeg := (heffect.overlap hmode hgate).aeg i
    exact ⟨haeg, congrArg _ haeg⟩
  · have haeg := (heffect.legatoIsolated hlegato hgate).aeg i
    exact ⟨haeg.stage, haeg.raw⟩

/-! The modulation update (R241). -/

section

variable (c : Cfg) {ctl : Controls} {pos : Num}

theorem portaAdvance_off (h : ctl.portaEnable = false ∨ ctl.portaTimeSec ≤ 0) : portaAdvance c ctl pos = 1 :=
  if_pos (by rwa [portaInForce, Bool.and_eq_false_iff, decide_eq_false_iff_not, not_lt])

theorem portaAdvance_gliding (h : portaInForce ctl = true) (hpos : pos < 1) :
    portaAdvance c ctl pos = min 1 (c.add pos (c.div 1 (c.mul ctl.portaTimeSec c.sampleRate))) := by
  rw [portaAdvance, if_neg (by simp [h]), if_pos hpos]

theorem portaAdvance_arrived (h : portaInForce ctl = true) (hpos : 1 ≤ pos) : portaAdvance c ctl pos = pos := by
  rw [portaAdvance, if_neg (by simp [h]), if_neg hpos.not_gt]

end

theorem enNum_eq (b : Byte) : enNum b = if b = 0 then 0 else 1 := by
  by_cases h : b = 0 <;> simp [enNum, en, h]

/-- Settles O41: the portamento by its three cases; each `pm` and `am` is the reader's expression at its addresses. -/
theorem updateModsComputesInputs : Obligations.UpdateModsComputesInputs := by
  unfold Obligations.UpdateModsComputesInputs
  refine fun c P ctl x => ⟨rfl, portaAdvance_off c, fun henable htime => portaAdvance_gliding c ((portaInForce_iff ctl).mpr ⟨henable, htime⟩),
    fun henable htime => portaAdvance_arrived c ((portaInForce_iff ctl).mpr ⟨henable, htime⟩), rfl, fun i => ?_, fun i => ?_, rfl⟩
  · simp only [voiceUpdateMods, Quad.get_mapIdx, phaseMod, enNum_eq]
    rfl
  · simp only [voiceUpdateMods, Quad.get_mapIdx]
    rfl

/-! The glide in exact arithmetic (R242). -/

section

variable {c : Cfg} (hc : c.num = .exact) {ctl : Controls} (hporta : portaInForce ctl = true)

include hc hporta

/-- After `k` samples a glide has covered `k / (T × SAMPLE_RATE)` of its way, and no more than all of it (R242). -/
theorem portaAdvance_iterate (k : Nat) :
    (portaAdvance c ctl)^[k] 0 = min 1 ((k : Num) / (ctl.portaTimeSec * c.sampleRate)) := by
  have htotal : 0 < ctl.portaTimeSec * c.sampleRate := mul_pos ((portaInForce_iff ctl).mp hporta).2 c.valid.sampleRate_pos
  induction k with
  | zero => simp
  | succ k ih =>
    have hsum : ((k + 1 : Nat) : Num) / (ctl.portaTimeSec * c.sampleRate) =
        k / (ctl.portaTimeSec * c.sampleRate) + 1 / (ctl.portaTimeSec * c.sampleRate) := by
      rw [Nat.cast_succ, add_div]
    rw [Function.iterate_succ_apply', ih]
    rcases lt_or_ge ((k : Num) / (ctl.portaTimeSec * c.sampleRate)) 1 with hlt | hge
    · rw [min_eq_right hlt.le, portaAdvance_gliding c hporta hlt, Cfg.add_exact hc, Cfg.mul_exact hc, Cfg.div_exact hc _ htotal.ne', hsum]
    · have hstep : 0 ≤ 1 / (ctl.portaTimeSec * c.sampleRate) := by positivity
      rw [min_eq_left hge, portaAdvance_arrived c hporta le_rfl, hsum, min_eq_left (by linarith)]

end

/-- Settles O42: from the position after `k` samples, `portaAdvance_iterate`. -/
theorem portamentoArrivesOnTime : Obligations.PortamentoArrivesOnTime := by
  unfold Obligations.PortamentoArrivesOnTime
  intro c ctl hc henable htime k
  have htotal : 0 < ctl.portaTimeSec * c.sampleRate := mul_pos htime c.valid.sampleRate_pos
  simp only [portaAdvance_iterate hc ((portaInForce_iff ctl).mpr ⟨henable, htime⟩)]
  refine ⟨trivial, ?_, ?_⟩
  · rw [min_eq_left_iff, one_le_div htotal]
  · gcongr
    exact Nat.le_succ k

end Sys2Proof.Machine

/-! The algorithm mixer and the stealing score (R251, R252, R262, R263). -/

namespace Sys2Proof

theorem Quad.count_eq_length (q : Quad Bool) : q.count = ((List.finRange 4).filter q.get).length := by
  obtain ⟨q0, q1, q2, q3⟩ := q
  revert q0 q1 q2 q3
  decide

end Sys2Proof

namespace Sys2Proof.Machine

section

variable (c : Cfg)

/-! Sums over flagged operators. -/

/-- The model's sum is the ascending one over the flagged operators (R251, R262). -/
theorem sumFlagged_eq_ascendingSum (f : Quad Bool) (y : Quad Num) : sumFlagged c f y = ascendingSum c f.get y.get := by
  rw [ascendingSum, List.foldl_filter]
  rfl

/-- Only the flagged values count. -/
theorem ascendingSum_congr {flag : Fin 4 → Bool} {y z : Fin 4 → Num} (h : ∀ j, flag j = true → y j = z j) :
    ascendingSum c flag y = ascendingSum c flag z := by
  refine List.foldl_ext _ _ _ fun s j hj => ?_
  rw [h j (List.mem_filter.mp hj).2]

/-! The operator loop. -/

variable (P : Memory) (A : AlgDesc) (pm am : Quad Num) (ops : Quad Operator)

/-- One `compute` of operator `i` in a step whose outputs are `y` (R251 lines 5 to 8). -/
def computeFrom (y : Quad Num) (i : Fin 4) : Num × Operator :=
  operCompute c P i (c.mul c.modIndex (ascendingSum c (A.mods.get i).get y.get)) (pm.get i) (ops.get i)

/-- The loop of a step from the operators `ops`, when the turns of the operators numbered `k` and above are done: `y` holds their outputs, `ops'` their
states; the lower ones are untouched. -/
structure MixedFrom (k : Nat) (y : Quad Num) (ops' : Quad Operator) : Prop where
  done : ∀ i : Fin 4, k ≤ i.val → y.get i = c.mul (computeFrom c P A pm ops y i).1 (c.sub 1 (am.get i)) ∧
    ops'.get i = (computeFrom c P A pm ops y i).2
  kept : ∀ i : Fin 4, i.val < k → ops'.get i = ops.get i

theorem MixedFrom.start : MixedFrom c P A pm am ops 4 (Quad.replicate 0) ops where
  done i hi := absurd i.isLt hi.not_gt
  kept _ _ := rfl

variable {c P A pm am ops} (hacyclic : ∀ i j : Fin 4, (A.mods.get i).get j = true → i < j)

include hacyclic

/-- An output written later, that of a lower-numbered operator or the operator's own, is none of its modulators' (R250). -/
theorem computeFrom_set {i j : Fin 4} (hij : i ≤ j) (y : Quad Num) (a : Num) :
    computeFrom c P A pm ops (y.set i a) j = computeFrom c P A pm ops y j := by
  unfold computeFrom
  rw [ascendingSum_congr c fun m hm => Quad.get_set_other y a (hij.trans_lt (hacyclic j m hm)).ne']

/-- The turn of operator `i` adds it to the operators done, and leaves those above as they are. -/
theorem MixedFrom.turn {i : Fin 4} {r : Quad Num × Quad Operator} (h : MixedFrom c P A pm am ops (i.val + 1) r.1 r.2) :
    MixedFrom c P A pm am ops i.val (stepOperator c P A pm am r.1 r.2 i).1 (stepOperator c P A pm am r.1 r.2 i).2 := by
  obtain ⟨y, ops'⟩ := r
  obtain ⟨hdone, hkept⟩ := h
  have hturn : operCompute c P i (c.mul c.modIndex (sumFlagged c (A.mods.get i) y)) (pm.get i) (ops'.get i) =
      computeFrom c P A pm ops y i := by
    rw [hkept i (Nat.lt_succ_self _), sumFlagged_eq_ascendingSum, computeFrom]
  simp only [stepOperator, hturn]
  refine ⟨fun j hj => ?_, fun j hj => ?_⟩
  · rw [computeFrom_set hacyclic hj]
    rcases eq_or_ne j i with rfl | hne
    · rw [Quad.get_set_same, Quad.get_set_same]
      exact ⟨rfl, rfl⟩
    · rw [Quad.get_set_other _ _ hne, Quad.get_set_other _ _ hne]
      exact hdone j (Nat.lt_of_le_of_ne hj (Fin.val_ne_of_ne hne.symm))
  · rw [Quad.get_set_other _ _ (Fin.ne_of_lt hj)]
    exact hkept j (Nat.lt_succ_of_lt hj)

/-- After the turns 3, 2, 1, 0 every operator is done (R251 line 4). -/
theorem stepOperators_mixed :
    MixedFrom c P A pm am ops 0 (stepOperators c P A pm am ops).1 (stepOperators c P A pm am ops).2 :=
  (MixedFrom.start c P A pm am ops).turn hacyclic (i := 3) (r := (_, _)) |>.turn hacyclic (i := 2) |>.turn hacyclic (i := 1)
    |>.turn hacyclic (i := 0)

end

/-! A voice step. -/

section

variable (c : Cfg) (P : Memory) (ctl : Controls)

theorem algorithmOf_valid {algId : Byte} {a : Fin 12} (h : algId.toNat = a.val) : algorithmOf c algId = some (c.algTable a) := by
  rw [algorithmOf, dif_pos (h ▸ a.isLt)]
  simp only [h]

theorem algorithmOf_invalid {algId : Byte} (h : 11 < algId.toNat) : algorithmOf c algId = none := dif_neg (by omega)

theorem voiceStep_valid {x : Voice} {a : Fin 12} (h : x.algId.toNat = a.val) :
    MixesAlgorithm c P ctl (c.algTable a) x (voiceStep c P ctl x).1 (voiceStep c P ctl x).2
      (stepOperators c P (c.algTable a) (voiceUpdateMods c P ctl x).pm (voiceUpdateMods c P ctl x).am x.op).1.get := by
  obtain ⟨hacyclic, -⟩ := c.valid.algTable_shaped a
  obtain ⟨hdone, -⟩ := stepOperators_mixed (c := c) (P := P) (pm := (voiceUpdateMods c P ctl x).pm)
    (am := (voiceUpdateMods c P ctl x).am) (ops := x.op) hacyclic
  simp only [voiceStep, voiceUpdateMods_algId, algorithmOf_valid c h]
  refine ⟨hacyclic, fun i => (hdone i (Nat.zero_le _)).1, fun i => (hdone i (Nat.zero_le _)).2, rfl, ?_⟩
  rw [sumFlagged_eq_ascendingSum]
  rfl

/-- An invalid algorithm id scores 0 (R252, R262). -/
theorem calcScore_invalid {x : Voice} (hmark : x.justAllocated = false) (h : 11 < x.algId.toNat) : calcScore c x = 0 := by
  rw [calcScore, if_neg (show ¬ x.justAllocated = true by simp [hmark]), algorithmOf_invalid c h]
  exact ite_self 0

/-! A voice of an invalid algorithm id under `RENDER` (R252, R374). -/

/-- The operators and the algorithm id are as they were. -/
structure SameOperators (x y : Voice) : Prop where
  op : y.op = x.op
  algId : y.algId = x.algId

theorem SameOperators.trans {x y z : Voice} (hxy : SameOperators x y) (hyz : SameOperators y z) : SameOperators x z :=
  ⟨hyz.op.trans hxy.op, hyz.algId.trans hxy.algId⟩

theorem SameOperators.isActive_eq {x y : Voice} (h : SameOperators x y) : isActive y = isActive x := by
  rw [isActive, isActive, h.op]

theorem voiceBlockStart_sameOperators (n : Nat) (x : Voice) : SameOperators x (voiceBlockStart c P n x) := by
  unfold voiceBlockStart
  split_ifs <;> exact ⟨rfl, rfl⟩

theorem voiceTick_invalid {x : Voice} (h : 11 < x.algId.toNat) : SameOperators x (voiceTick c P ctl x) := by
  unfold voiceTick
  split_ifs
  · rw [voiceStep_invalid c P ctl h]
    exact ⟨rfl, rfl⟩
  · exact ⟨rfl, rfl⟩

theorem renderSamples_invalid {v : Nat} {x : Voice} (h : 11 < x.algId.toNat) (n : Nat) {l : List Voice} (hx : l[v]? = some x) :
    ∃ y, (renderSamples c P ctl n l).2[v]? = some y ∧ SameOperators x y := by
  induction n generalizing l x with
  | zero => exact ⟨x, hx, rfl, rfl⟩
  | succ n ih =>
    have hsame := voiceTick_invalid c P ctl h
    have htick : (mixVoices c P ctl l 0).2[v]? = some (voiceTick c P ctl x) := by
      rw [mixVoices_voices, List.getElem?_map, hx]
      rfl
    obtain ⟨y, hy, hsame'⟩ := ih (hsame.algId ▸ h) htick
    exact ⟨y, hy, hsame.trans hsame'⟩

theorem cmdRender_invalid {s : State} {v : Nat} {x : Voice} (hx : s.voices[v]? = some x) (h : 11 < x.algId.toNat) (n : Nat) :
    ∃ y, (cmdRender c n s).voices[v]? = some y ∧ SameOperators x y := by
  unfold cmdRender
  split_ifs
  · exact ⟨x, hx, rfl, rfl⟩
  · have hsame := voiceBlockStart_sameOperators c s.cur n x
    have hstart : (s.voices.map (voiceBlockStart c s.cur n))[v]? = some (voiceBlockStart c s.cur n x) := by
      rw [List.getElem?_map, hx]
      rfl
    obtain ⟨y, hy, hsame'⟩ := renderSamples_invalid c s.cur s.ctl (hsame.algId ▸ h) n hstart
    exact ⟨y, hy, hsame.trans hsame'⟩

end

/-- Settles O35: the operator loop meets the equations of `MixesAlgorithm`; a voice of an invalid id keeps its operators, so its activity, through a block. -/
theorem stepMixesTheAlgorithmOrIsSilent : Obligations.StepMixesTheAlgorithmOrIsSilent := by
  unfold Obligations.StepMixesTheAlgorithmOrIsSilent
  refine ⟨fun c P ctl x a h => ⟨_, voiceStep_valid c P ctl h⟩,
    fun c P ctl x h => ⟨voiceStep_invalid c P ctl h, fun hmark => calcScore_invalid c hmark h⟩, fun s n v x hx h hactive => ?_⟩
  obtain ⟨y, hy, hsame⟩ := cmdRender_invalid Config.cfg hx h n
  exact ⟨_, y, exec_eq _ s, hy, hsame.op, hsame.algId, hsame.isActive_eq.trans hactive⟩

/-! The stealing score. -/

section

variable (c : Cfg) {x : Voice}

theorem calcScore_stolen (hactive : isActive x = true) (hmark : x.justAllocated = true) : calcScore c x = c.scoreSentinel := by
  rw [calcScore, if_neg (by simp [hactive]), if_pos hmark]

/-- The number of carriers of an algorithm (R250, R262). -/
def carrierCount (A : AlgDesc) : Nat := ((List.finRange 4).filter A.carriers.get).length

theorem scoreWeight_eq (n : Nat) :
    scoreWeight c n = if n = 1 then 1 else if n = 2 then c.invSqrt2 else if n = 3 then c.invSqrt3 else 1 / 2 := by
  unfold scoreWeight
  split <;> simp_all

/-- The score of an active voice that is not just stolen, under algorithm `A` (R262 lines 5 to 9). -/
theorem calcScore_valid (hactive : isActive x = true) (hmark : x.justAllocated = false) {a : Fin 12} (h : x.algId.toNat = a.val) :
    calcScore c x = c.mul (c.mul (c.mul
      (ascendingSum c (fun i => (c.algTable a).carriers.get i && (x.op.get i).enabled) fun i => aegOut c (x.op.get i).aeg)
      (scoreWeight c (carrierCount (c.algTable a)))) (c.ofNat x.velocity.val))
      (if x.gate = true ∨ x.sustained = true then 1 else c.scoreReleasedAtten) := by
  unfold calcScore
  rw [if_neg (by simp [hactive]), if_neg (by simp [hmark]), algorithmOf_valid c h]
  simp only [sumFlagged_eq_ascendingSum, Quad.count_eq_length, Bool.or_eq_true, carrierCount]
  congr
  · funext i; simp
  · funext i; simp

theorem calcScore_velocity_zero (hvel : x.velocity = 0) (hmark : x.justAllocated = false) : calcScore c x = 0 := by
  rcases calcScore_cases c x with h | ⟨h, -⟩ | ⟨n, flags, h⟩
  · exact h
  · exact absurd (h.symm.trans hmark) (by decide)
  · have hzero : c.ofNat x.velocity.val = 0 := by simp [hvel, Cfg.ofNat]
    rw [h, hzero, Cfg.mul_zero, Cfg.zero_mul]

end

/-! Its bound in exact arithmetic (R263 (3)). -/

section

variable {c : Cfg} (hc : c.num = .exact)

/-- A count of carriers and its weight make no more than 2 (R262, R263; log entry 10). -/
theorem scoreWeight_range {n : Nat} (hn : n ≤ 4) : 0 ≤ scoreWeight c n ∧ (n : Num) * scoreWeight c n ≤ 2 := by
  obtain ⟨⟨h2pos, h2le⟩, h3pos, h3le⟩ := c.valid.invSqrt_range
  interval_cases n <;> simp only [scoreWeight] <;> push_cast
  · norm_num
  · norm_num
  · constructor <;> linarith
  · constructor <;> linarith
  · norm_num

include hc

/-- In exact arithmetic a sum is at most its number of terms times a bound on them. -/
theorem ascendingSum_le {flag : Fin 4 → Bool} {y : Fin 4 → Num} {G : Num} (h : ∀ i, y i ≤ G) :
    ascendingSum c flag y ≤ ((List.finRange 4).filter flag).length * G := by
  have hsum : ascendingSum c flag y = (((List.finRange 4).filter flag).map y).sum := by
    simp only [ascendingSum, Cfg.add_exact hc, List.sum_eq_foldl, List.foldl_map]
  rw [hsum, ← nsmul_eq_mul, ← List.length_map y]
  refine List.sum_le_card_nsmul _ _ fun z hz => ?_
  obtain ⟨i, -, rfl⟩ := List.mem_map.mp hz
  exact h i

/-- The sum over the enabled carriers, times the weight, is at most twice a bound on the levels: 4 carriers weigh 1/2 each (R263 (3)). -/
theorem carrierSum_mul_weight_le (A : AlgDesc) (enabled : Fin 4 → Bool) {y : Fin 4 → Num} {G : Num} (hG : 0 ≤ G) (h : ∀ i, y i ≤ G) :
    ascendingSum c (fun i => A.carriers.get i && enabled i) y * scoreWeight c (carrierCount A) ≤ 2 * G := by
  have hcount : carrierCount A ≤ 4 := List.length_filter_le _ _
  obtain ⟨hweight, htwo⟩ := scoreWeight_range (c := c) hcount
  have henabled : (((List.finRange 4).filter fun i => A.carriers.get i && enabled i).length : Num) ≤ carrierCount A := by
    exact_mod_cast (List.monotone_filter_right _ fun i hi => (Bool.and_eq_true_iff.mp hi).1).length_le
  calc _ ≤ (carrierCount A * G) * scoreWeight c (carrierCount A) :=
        mul_le_mul_of_nonneg_right ((ascendingSum_le hc h).trans (mul_le_mul_of_nonneg_right henabled hG)) hweight
    _ = (carrierCount A * scoreWeight c (carrierCount A)) * G := by ring
    _ ≤ 2 * G := mul_le_mul_of_nonneg_right htwo hG

/-- The velocity is at most 127, and a release only lowers the score (R263 (3)). -/
theorem calcScore_le {x : Voice} (hmark : x.justAllocated = false) {G : Num} (hG : 0 ≤ G) (h : ∀ i, aegOut c (x.op.get i).aeg ≤ G) :
    calcScore c x ≤ 4 * G * (1 / 2) * 127 := by
  have hbound : 0 ≤ 4 * G * (1 / 2) * 127 := by positivity
  cases hactive : isActive x with
  | false => rwa [calcScore_inactive c hactive]
  | true =>
    rcases lt_or_ge 11 x.algId.toNat with hid | hid
    · rwa [calcScore_invalid c hmark hid]
    · have hsum := carrierSum_mul_weight_le hc (c.algTable ⟨x.algId.toNat, Nat.lt_succ_of_le hid⟩) (fun i => (x.op.get i).enabled) hG h
      have hvel : (x.velocity.val : Num) ≤ 127 := by exact_mod_cast Nat.le_of_lt_succ x.velocity.isLt
      have hheld : (0 : Num) ≤ (if x.gate = true ∨ x.sustained = true then 1 else 1 / 10) ∧
          (if x.gate = true ∨ x.sustained = true then 1 else 1 / 10) ≤ (1 : Num) := by split_ifs <;> norm_num
      rw [calcScore_valid c hactive hmark (a := ⟨x.algId.toNat, Nat.lt_succ_of_le hid⟩) rfl, Cfg.scoreReleasedAtten, Cfg.round_exact hc,
        Cfg.mul_exact hc, Cfg.mul_exact hc, Cfg.mul_exact hc, Cfg.ofNat_exact hc]
      calc _ ≤ (2 * G * 127) * (if x.gate = true ∨ x.sustained = true then 1 else 1 / 10) :=
            mul_le_mul_of_nonneg_right (mul_le_mul hsum hvel (by positivity) (by positivity)) hheld.1
        _ ≤ 2 * G * 127 := mul_le_of_le_one_right (by positivity) hheld.2
        _ = 4 * G * (1 / 2) * 127 := by ring

end

/-- Settles O43: line by line; in a sound state no voice bears the mark and every AEG is one the rules bring about, which is what the constraint on
`SCORE_SENTINEL` speaks of. -/
theorem stealingScoreLineByLine : Obligations.StealingScoreLineByLine := by
  unfold Obligations.StealingScoreLineByLine
  refine ⟨fun c x => ⟨calcScore_inactive c, calcScore_stolen c, fun _ => calcScore_invalid c, fun a hactive hmark h => ?_,
    calcScore_velocity_zero c, fun G hc hmark => calcScore_le hc hmark⟩, fun s x hs hx => ?_⟩
  · simp only [calcScore_valid c hactive hmark h, scoreWeight_eq]
    rfl
  · obtain ⟨hop, -, -, -, -, hmark, -⟩ := hs.voices x hx
    refine Config.cfg_sentinelAboveScores.scores x (fun i => ?_) hmark
    obtain ⟨-, -, -, hreached⟩ := hop i
    exact hreached

end Sys2Proof.Machine

/-! The voice allocator (45_allocator.md): the note stack (R281, R282), the polyphonic search (R284), a polyphonic note-off (R288) and the bulk releases
(R289, R290). -/

namespace Sys2Proof.Machine

/-! The note stack (R281, R282). -/

section

variable {n : U7} {stack : List U7} {a : Alloc}

theorem allocPush_below {c : Cfg} (h : a.depth < c.noteStackCap) :
    allocPush c n a = { a with stack := a.stack.set a.depth n, depth := a.depth + 1 } := if_pos h

theorem allocPush_full {c : Cfg} (h : c.noteStackCap ≤ a.depth) : allocPush c n a = a := if_neg h.not_gt

/-- The search answers the greatest index below `d` that holds the note. -/
theorem lastIndexOf_eq_some {d k : Nat} (hlt : k < d) (hk : stack[k]? = some n)
    (hlast : ∀ m : Nat, k < m → m < d → stack[m]? ≠ some n) : lastIndexOf n stack d = some k := by
  induction d with
  | zero => omega
  | succ d ih =>
    rw [lastIndexOf]
    rcases Nat.lt_succ_iff_lt_or_eq.mp hlt with hkd | rfl
    · rw [if_neg (hlast d hkd d.lt_succ_self)]
      exact ih hkd fun m hm hmd => hlast m hm (hmd.trans d.lt_succ_self)
    · rw [if_pos hk]

theorem lastIndexOf_eq_none {d : Nat} (h : ∀ k : Nat, k < d → stack[k]? ≠ some n) : lastIndexOf n stack d = none := by
  induction d with
  | zero => rfl
  | succ d ih =>
    rw [lastIndexOf, if_neg (h d d.lt_succ_self)]
    exact ih fun k hk => h k (hk.trans d.lt_succ_self)

/-- The shift of R282, cell by cell: the cells from `k` to `depth - 2` take their upper neighbours, every other cell stands. -/
theorem closeGap_getElem? {k depth : Nat} (hk : k < depth) (hd : depth ≤ stack.length) (m : Nat) :
    (closeGap stack k depth)[m]? = if k ≤ m ∧ m + 1 < depth then stack[m + 1]? else stack[m]? := by
  have hhead : (stack.take k).length = k := by simp; omega
  have hmid : ((stack.take depth).drop (k + 1)).length = depth - (k + 1) := by simp; omega
  rw [closeGap, List.append_assoc]
  rcases lt_or_ge m k with hm | hm
  · rw [if_neg (by omega), List.getElem?_append_left (by omega), List.getElem?_take_of_lt hm]
  · rw [List.getElem?_append_right (by omega), hhead]
    rcases lt_or_ge (m + 1) depth with hmd | hmd
    · rw [if_pos ⟨hm, hmd⟩, List.getElem?_append_left (by omega), List.getElem?_drop, List.getElem?_take_of_lt (by omega)]
      congr 1
      omega
    · rw [if_neg (by omega), List.getElem?_append_right (by omega), hmid, List.getElem?_drop]
      congr 1
      omega

theorem allocRemove_found {k : Nat} (h : lastIndexOf n a.stack a.depth = some k) :
    allocRemove n a = { a with stack := closeGap a.stack k a.depth, depth := a.depth - 1 } := by
  simp only [allocRemove, h]

theorem allocRemove_absent (h : lastIndexOf n a.stack a.depth = none) : allocRemove n a = a := by
  simp only [allocRemove, h]

end

/-- Settles O22. -/
theorem pushAppendsOrIsDropped : Obligations.PushAppendsOrIsDropped := by
  unfold Obligations.PushAppendsOrIsDropped
  intro c n a hlen
  refine ⟨fun hlt => ?_, allocPush_full⟩
  rw [allocPush_below hlt]
  exact ⟨rfl, List.getElem?_set_self (hlen ▸ hlt), fun k hk => List.getElem?_set_ne hk.symm, rfl⟩

/-- Settles O23: the search finds the most recent entry, and each range of cells is a branch of the shift. -/
theorem removeTakesMostRecentEntry : Obligations.RemoveTakesMostRecentEntry := by
  unfold Obligations.RemoveTakesMostRecentEntry
  intro n a hd
  refine ⟨fun k hlt hk hlast => ?_, fun habsent => allocRemove_absent (lastIndexOf_eq_none habsent)⟩
  rw [allocRemove_found (lastIndexOf_eq_some hlt hk hlast)]
  have hcell := closeGap_getElem? hlt hd
  exact ⟨rfl, fun m hm => (hcell m).trans (if_neg (by omega)), fun m hm hmd => (hcell m).trans (if_pos ⟨hm, hmd⟩),
    fun m hm => (hcell m).trans (if_neg (by omega)), rfl⟩

/-! One voice of the pool, or each of them. -/

section

variable (s : State) (v : Nat) (f : Voice → Voice)

theorem State.modifyVoice_surroundings : SameSurroundings s (s.modifyVoice v f) := ⟨rfl, rfl, rfl, rfl, rfl⟩

theorem State.modifyVoice_onlyVoice : OnlyVoice v s (s.modifyVoice v f) :=
  ⟨List.length_modify .., fun u hu => by rw [State.modifyVoice_voices, modify_getElem?, if_neg hu]⟩

variable {s v}

theorem State.modifyVoice_getElem?_same {x : Voice} (h : s.voices[v]? = some x) : (s.modifyVoice v f).voices[v]? = some (f x) := by
  rw [State.modifyVoice_voices, modify_getElem?, if_pos rfl, h]
  rfl

variable {f}

/-- A pool mapped voice by voice meets every effect that the map has on a voice. -/
theorem eachVoice_of_map {t : State} {effect : Voice → Voice → Prop} (ht : t.voices = s.voices.map f) (h : ∀ x, effect x (f x)) :
    EachVoice effect s t := by
  refine ⟨by rw [ht, List.length_map], fun v x hx => ⟨f x, ?_, h x⟩⟩
  rw [ht, List.getElem?_map, hx]
  rfl

/-- The search of R284 and R288: the first voice with a property. -/
theorem findIdx?_eq_some_of_first {l : List Voice} {p : Voice → Bool} {x : Voice} (hx : l[v]? = some x) (hp : p x = true)
    (hfirst : ∀ (u : Nat) (y : Voice), u < v → l[u]? = some y → p y = false) : l.findIdx? p = some v := by
  obtain ⟨hv, rfl⟩ := List.getElem?_eq_some_iff.mp hx
  refine List.findIdx?_eq_some_iff_getElem.mpr ⟨hv, hp, fun u hu => ?_⟩
  simp [hfirst u l[u] hu (List.getElem?_eq_getElem (hu.trans hv))]

end

/-! The polyphonic search (R284). -/

section

variable {c : Cfg} {l : List Voice} {x z : Voice} {k : Nat}

theorem firstLeastScore_cons_zero (h : ∀ y ∈ l, calcScore c x ≤ calcScore c y) : FirstLeastScore c (x :: l) 0 := by
  refine ⟨x, rfl, fun u y hy => ?_, fun u y hu => absurd hu u.not_lt_zero⟩
  rcases List.mem_cons.mp (List.mem_iff_getElem?.mpr ⟨u, hy⟩) with rfl | hmem
  · exact le_refl _
  · exact h y hmem

theorem FirstLeastScore.cons_succ (h : FirstLeastScore c l k) (hz : l[k]? = some z) (hlt : calcScore c z < calcScore c x) :
    FirstLeastScore c (x :: l) (k + 1) := by
  obtain ⟨w, hw, hleast, hfirst⟩ := h
  obtain rfl : z = w := Option.some.inj (hz.symm.trans hw)
  refine ⟨z, hz, fun u y hy => ?_, fun u y hu hy => ?_⟩
  · cases u with
    | zero => exact Option.some.inj hy ▸ hlt.le
    | succ u => exact hleast u y hy
  · cases u with
    | zero => exact Option.some.inj hy ▸ hlt
    | succ u => exact hfirst u y (Nat.lt_of_succ_lt_succ hu) hy

/-- Everything the scan from voice `v` on can answer: the best before it, which no voice of the scan undercuts, or the first with the least score in the scan,
which undercuts it. -/
theorem leastScore_cases (c : Cfg) (l : List Voice) (v best : Nat) (bestScore : Num) :
    (leastScore c l v best bestScore = best ∧ ∀ y ∈ l, bestScore ≤ calcScore c y) ∨
    ∃ k z, leastScore c l v best bestScore = v + k ∧ l[k]? = some z ∧ calcScore c z < bestScore ∧ FirstLeastScore c l k := by
  induction l generalizing v best bestScore with
  | nil => exact .inl ⟨rfl, fun y hy => absurd hy List.not_mem_nil⟩
  | cons x rest ih =>
    rw [leastScore]
    split_ifs with hx
    · right
      rcases ih (v + 1) v (calcScore c x) with ⟨e, hle⟩ | ⟨k, z, e, hz, hlt, hfirst⟩
      · exact ⟨0, x, e, rfl, hx, firstLeastScore_cons_zero hle⟩
      · exact ⟨k + 1, z, by omega, hz, hlt.trans hx, hfirst.cons_succ hz hlt⟩
    · rcases ih (v + 1) best bestScore with ⟨e, hle⟩ | ⟨k, z, e, hz, hlt, hfirst⟩
      · exact .inl ⟨e, List.forall_mem_cons.mpr ⟨not_lt.mp hx, hle⟩⟩
      · exact .inr ⟨k + 1, z, by omega, hz, hlt, hfirst.cons_succ hz (hlt.trans_le (not_lt.mp hx))⟩

/-- The voice stolen is the first with the least score. -/
theorem stealVoice_firstLeastScore (c : Cfg) (h : l ≠ []) : FirstLeastScore c l (stealVoice c l) := by
  cases l with
  | nil => exact absurd rfl h
  | cons x rest =>
    rw [stealVoice]
    rcases leastScore_cases c rest 1 0 (calcScore c x) with ⟨e, hle⟩ | ⟨k, z, e, hz, hlt, hfirst⟩ <;> rw [e]
    · exact firstLeastScore_cons_zero hle
    · rw [Nat.add_comm]
      exact hfirst.cons_succ hz hlt

variable (c) {s : State} {v : Nat}

theorem findVoicePoly_free (hx : s.voices[v]? = some x) (hinactive : isActive x = false)
    (hfirst : ∀ (u : Nat) (y : Voice), u < v → s.voices[u]? = some y → isActive y = true) : findVoicePoly c s = (v, s) := by
  have hfind := findIdx?_eq_some_of_first (p := fun v => !isActive v) hx (by simp [hinactive])
    fun u y hu hy => by simp [hfirst u y hu hy]
  simp only [findVoicePoly, hfind]

theorem findVoicePoly_full (h : ∀ x ∈ s.voices, isActive x = true) :
    findVoicePoly c s =
      (stealVoice c s.voices, s.modifyVoice (stealVoice c s.voices) fun v => { v with justAllocated := true }) := by
  have hfind : s.voices.findIdx? (fun v => !isActive v) = none := List.findIdx?_eq_none_iff.mpr fun x hx => by simp [h x hx]
  simp only [findVoicePoly, hfind]

/-- The polyphonic search does not write the allocator's state. -/
theorem findVoicePoly_alloc (s : State) : (findVoicePoly c s).2.alloc = s.alloc := by
  rcases findVoicePoly_cases c s with ⟨v, x, e, -⟩ | ⟨-, e⟩ <;> rw [e]
  rfl

end

/-- Settles O24. -/
theorem findVoicePolyPrefersFree : Obligations.FindVoicePolyPrefersFree := by
  unfold Obligations.FindVoicePolyPrefersFree
  intro c n s hne
  refine ⟨fun v x => findVoicePoly_free c, fun hfull => ?_⟩
  have hleast := stealVoice_firstLeastScore c hne
  have ⟨x, hx, _⟩ := hleast
  exact ⟨_, x, _, findVoicePoly_full c hfull, hleast, hx, State.modifyVoice_getElem?_same _ hx, State.modifyVoice_onlyVoice ..,
    State.modifyVoice_surroundings .., rfl⟩

/-! A polyphonic note-off (R288). -/

section

variable {n : U7} {x : Voice}

theorem holdsNote_iff : holdsNote n x = true ↔ isActive x = true ∧ x.gate = true ∧ x.note = n := by
  simp [holdsNote, and_assoc]

theorem holdsNote_eq_false_iff : holdsNote n x = false ↔ ¬ (isActive x = true ∧ x.gate = true ∧ x.note = n) := by
  rw [← holdsNote_iff, Bool.not_eq_true]

variable (c : Cfg) {s : State} {v : Nat}

theorem allocNoteOffPoly_match (h : s.voices.findIdx? (holdsNote n) = some v) : allocNoteOffPoly c n s = noteOffVoice c v s := by
  simp only [allocNoteOffPoly, h]

theorem allocNoteOffPoly_no_match (h : ∀ x ∈ s.voices, holdsNote n x = false) : allocNoteOffPoly c n s = s := by
  simp only [allocNoteOffPoly, List.findIdx?_eq_none_iff.mpr h]

/-- A polyphonic note-off does not write the allocator's state. -/
theorem allocNoteOffPoly_alloc (n : U7) (s : State) : (allocNoteOffPoly c n s).alloc = s.alloc := by
  unfold allocNoteOffPoly
  split <;> rfl

theorem cmdNoteOff_poly {note : Nat} (hnote : note ≤ 127) (hmode : patchMode s.cur = .poly) :
    cmdNoteOff c note s = allocNoteOffPoly c (u7Nat note) s := by
  rw [cmdNoteOff, if_neg hnote.not_gt, hmode]
  rfl

end

/-- Settles O18: the search finds the first match, and a note-off is an update of that voice alone. -/
theorem polyNoteOffReleasesFirstMatch : Obligations.PolyNoteOffReleasesFirstMatch := by
  unfold Obligations.PolyNoteOffReleasesFirstMatch
  intro s note hnote hmode
  have hexec : exec (.noteOff note) s = .next (allocNoteOffPoly Config.cfg (u7Nat note) s) :=
    (exec_eq _ s).trans (congrArg _ (cmdNoteOff_poly Config.cfg hnote hmode))
  refine ⟨fun v x hx hactive hgate hnoteEq hfirst => ?_, fun hno => ?_⟩ <;> rw [hexec]
  · have hfind := findIdx?_eq_some_of_first hx (holdsNote_iff.mpr ⟨hactive, hgate, hnoteEq⟩)
      fun u y hu hy => holdsNote_eq_false_iff.mpr (hfirst u y hu hy)
    rw [allocNoteOffPoly_match Config.cfg hfind]
    exact ⟨_, _, rfl, State.modifyVoice_getElem?_same _ hx, voiceNoteOff_effect Config.cfg s.cur s.ctl x,
      State.modifyVoice_onlyVoice .., State.modifyVoice_surroundings .., rfl⟩
  · exact congrArg _ (allocNoteOffPoly_no_match Config.cfg fun x hx => holdsNote_eq_false_iff.mpr (hno x hx))

/-! The allocator's state in polyphonic mode (R291 (2)). -/

section

variable (c : Cfg) {s : State} (hmode : patchMode s.cur = .poly)

include hmode

theorem cmdNoteOn_poly_alloc (note velocity : Nat) : (cmdNoteOn c note velocity s).alloc = s.alloc := by
  rw [cmdNoteOn, hmode]
  split_ifs
  · rfl
  · exact findVoicePoly_alloc c s

theorem cmdNoteOff_poly_alloc (note : Nat) : (cmdNoteOff c note s).alloc = s.alloc := by
  rw [cmdNoteOff, hmode]
  split_ifs
  · rfl
  · exact allocNoteOffPoly_alloc c _ s

/-- In polyphonic mode the allocator's state has four writers among the commands. -/
theorem applyInstr_poly_alloc {i : Instr} (hnotes : i ≠ .allNotesOff) (hsilence : i ≠ .allSoundOff) (happly : i ≠ .applyPatch)
    (hreset : i ≠ .sysReset) : (applyInstr c i s).alloc = s.alloc := by
  cases i with
  | noteOn note velocity => exact cmdNoteOn_poly_alloc c hmode note velocity
  | noteOff note => exact cmdNoteOff_poly_alloc c hmode note
  | ctrlChange id value => rw [applyInstr, cmdCtrlChange_frame]
  | opParam op offset value => rw [applyInstr, cmdOpParam_frame]
  | patchWr addr value => rw [applyInstr, cmdPatchWr_frame]
  | render n => rw [applyInstr, cmdRender_frame]
  | allNotesOff => exact absurd rfl hnotes
  | allSoundOff => exact absurd rfl hsilence
  | applyPatch => exact absurd rfl happly
  | sysReset => exact absurd rfl hreset
  | nop => rfl
  | pitchBend bend => rfl

end

/-- Settles O25. -/
theorem polyModeNeverWritesStack : Obligations.PolyModeNeverWritesStack := by
  unfold Obligations.PolyModeNeverWritesStack
  intro i s t hmode hnotes hsilence happly hreset hexec
  obtain rfl := exec_next_iff.mp hexec
  exact applyInstr_poly_alloc Config.cfg hmode hnotes hsilence happly hreset

/-! The bulk releases (R289, R290), and what `RENDER` does with no active voice (R312). -/

/-- Settles O20: a voice that is not both active and held is left as it is. -/
theorem allNotesOffIsPedalAware : Obligations.AllNotesOffIsPedalAware := by
  unfold Obligations.AllNotesOffIsPedalAware
  refine fun s => ⟨_, exec_eq _ s, eachVoice_of_map rfl fun x => ⟨fun hactive hgate => ?_, fun hnot => if_neg ?_⟩,
    ⟨rfl, rfl, rfl, rfl, rfl⟩, rfl⟩
  · rw [if_pos (by simp [hactive, hgate])]
    exact voiceNoteOff_effect Config.cfg s.cur s.ctl x
  · rcases hnot with h | h <;> simp [h]

section

variable (c : Cfg)

theorem outputSample_silence (ctl : Controls) : outputSample c ctl 0 = { left := 0, right := 0 } := by
  simp [outputSample]

theorem voiceBlockStart_inactive (P : Memory) (n : Nat) {x : Voice} (h : isActive x = false) : voiceBlockStart c P n x = x :=
  if_neg (by simp [h])

theorem renderSamples_silent (P : Memory) (ctl : Controls) {l : List Voice} (h : ∀ x ∈ l, isActive x = false) (n : Nat) :
    renderSamples c P ctl n l = (List.replicate n { left := 0, right := 0 }, l) := by
  induction n with
  | zero => rfl
  | succ n ih => simp only [renderSamples, mixVoices_silent c P ctl h, outputSample_silence, ih, List.replicate_succ]

/-- `RENDER n` with no active voice appends `n` pairs of zeros and does nothing else (R312). -/
theorem cmdRender_silent {s : State} (h : ∀ x ∈ s.voices, isActive x = false) (n : Nat) :
    cmdRender c n s = { s with out := s.out ++ List.replicate n { left := 0, right := 0 } } := by
  unfold cmdRender
  split_ifs with hn
  · simp [hn]
  · have hstart : s.voices.map (voiceBlockStart c s.cur n) = s.voices :=
      (List.map_congr_left fun x hx => voiceBlockStart_inactive c s.cur n (h x hx)).trans (List.map_id' _)
    rw [hstart, renderSamples_silent c s.cur s.ctl h]

end

/-- Settles O21: a voice just reset is inactive, so what follows renders silence. -/
theorem allSoundOffIsImmediate : Obligations.AllSoundOffIsImmediate := by
  unfold Obligations.AllSoundOffIsImmediate
  intro s
  have hinactive : ∀ x ∈ (resetVoices Config.cfg s).voices, isActive x = false :=
    List.forall_mem_map.mpr fun x _ => isActive_voiceReset Config.cfg s.cur x
  exact ⟨_, exec_eq _ s, eachVoice_of_map rfl (voiceReset_effect Config.cfg s.cur), hinactive, ⟨rfl, rfl, rfl, rfl, rfl⟩, rfl,
    fun n => (exec_eq _ _).trans (congrArg _ (cmdRender_silent Config.cfg hinactive n))⟩

end Sys2Proof.Machine

/-! The commands (46_commands.md): the notes in either mode (R301, R302), the Controls (R304, R305), the patch memories (R306 to R308), `SYS_RESET` (R311),
`RENDER` (R312) and the step that runs them (R313). -/

namespace Sys2Proof.Machine

/-- Settles O4. -/
theorem stepRunsTheDecodedCommand : Obligations.StepRunsTheDecodedCommand := fun _ _ _ _ => step_of_ok

/-! `SYS_RESET` (R311). -/

/-- Over the zeroed patch `SYS_RESET` leaves nothing of the voice it finds. -/
theorem voiceSysReset_eq_powerOn (c : Cfg) (v : Nat) (x : Voice) : voiceSysReset c [] v x = Voice.powerOn c v := rfl

/-- `SYS_RESET` answers the power-on state but for the stack cells, the output stream and the port. -/
theorem cmdSysReset_eq_powerOn (c : Cfg) {s : State} (hpool : s.voices.length = c.numVoices) :
    cmdSysReset c s = { State.powerOn c with alloc := s.alloc.clear, out := s.out, port := s.port } := by
  have hvoices : s.voices.mapIdx (fun v x => voiceSysReset c [] v x) = (State.powerOn c).voices := by
    simp only [voiceSysReset_eq_powerOn, State.powerOn_voices, ← hpool]
    exact List.ext_getElem (by simp) (by simp)
  simp only [cmdSysReset, hvoices]
  rfl

/-- Settles O9: what is known of the state after power-on holds of the state after `SYS_RESET`, which shares its memories, Controls and voices. -/
theorem sysResetRestoresPowerOn : Obligations.SysResetRestoresPowerOn := by
  unfold Obligations.SysResetRestoresPowerOn
  intro s hpool
  obtain ⟨hmem, hctl, -, -, -, hsize, hvoices, -⟩ := powerOnState
  refine ⟨_, exec_next_iff.mpr (cmdSysReset_eq_powerOn Config.cfg hpool).symm, hmem, hctl, rfl, rfl, rfl, hsize, fun v x hx => ?_,
    rfl, rfl, rfl, rfl, rfl, rfl⟩
  obtain ⟨heffect, hseed, -, hcache⟩ := hvoices v x hx
  exact ⟨heffect, hseed, hcache⟩

/-! The note commands (R301, R302). -/

section

variable (c : Cfg) {note velocity : Nat} {s : State}

theorem cmdNoteOn_bad_note (h : 127 < note) : cmdNoteOn c note velocity s = s := if_pos h

theorem cmdNoteOff_bad_note (h : 127 < note) : cmdNoteOff c note s = s := if_pos h

theorem cmdNoteOn_poly (hnote : note ≤ 127) (hmode : patchMode s.cur = .poly) :
    cmdNoteOn c note velocity s = noteOnVoice c (findVoicePoly c s).1 (u7Nat note) (u7Nat velocity) (findVoicePoly c s).2 := by
  rw [cmdNoteOn, if_neg hnote.not_gt, hmode]
  rfl

/-- On a full pool the mark the search sets does not reach the note-on, which plays the voice as it was (R284, R301). -/
theorem cmdNoteOn_poly_full (hnote : note ≤ 127) (hmode : patchMode s.cur = .poly) (hfull : ∀ x ∈ s.voices, isActive x = true) :
    cmdNoteOn c note velocity s = noteOnVoice c (stealVoice c s.voices) (u7Nat note) (u7Nat velocity) s := by
  rw [cmdNoteOn_poly c hnote hmode, findVoicePoly_full c hfull, noteOnVoice_stolen]

theorem cmdNoteOff_mono (hnote : note ≤ 127) (hmode : patchMode s.cur ≠ .poly) :
    cmdNoteOff c note s = allocNoteOffMono c (u7Nat note) s := by
  rw [cmdNoteOff, if_neg hnote.not_gt]
  cases hm : patchMode s.cur with
  | poly => exact absurd hm hmode
  | monoFull => rfl
  | monoLegato => rfl

variable {n : U7}

theorem allocNoteOffMono_release (h : (allocRemove n s.alloc).depth = 0) :
    allocNoteOffMono c n s = noteOffVoice c 0 { s with alloc := { allocRemove n s.alloc with monoActive := false } } := if_pos h

theorem allocNoteOffMono_fallback (h : (allocRemove n s.alloc).depth ≠ 0) :
    allocNoteOffMono c n s =
      noteOnVoice c 0 (allocTop (allocRemove n s.alloc)) c.fallbackVelocity { s with alloc := allocRemove n s.alloc } := if_neg h

end

/-! One voice of the pool changed, and the allocator's state replaced: what the mono modes do (R283, R287). -/

section

variable (s : State) (a : Alloc) (v : Nat) (f : Voice → Voice)

theorem State.modifyVoice_withAlloc_onlyVoice : OnlyVoice v s (State.modifyVoice { s with alloc := a } v f) :=
  State.modifyVoice_onlyVoice { s with alloc := a } v f

theorem State.modifyVoice_withAlloc_surroundings : SameSurroundings s (State.modifyVoice { s with alloc := a } v f) :=
  ⟨rfl, rfl, rfl, rfl, rfl⟩

end

theorem allocRemove_depth_le (n : U7) (a : Alloc) : (allocRemove n a).depth ≤ a.depth := by
  rw [allocRemove_depth]
  split_ifs
  · exact Nat.sub_le ..
  · exact le_rfl

/-- The top note is the cell at `depth - 1` (R27). -/
theorem getElem?_allocTop {a : Alloc} (hne : a.depth ≠ 0) (hd : a.depth ≤ a.stack.length) :
    a.stack[a.depth - 1]? = some (allocTop a) := by
  have hlt : a.depth - 1 < a.stack.length := by omega
  rw [allocTop, List.getD_eq_getElem _ _ hlt, List.getElem?_eq_getElem hlt]

/-- Settles O12. -/
theorem badNoteIsIgnored : Obligations.BadNoteIsIgnored := fun _ _ _ h =>
  ⟨exec_next_iff.mpr (cmdNoteOn_bad_note Config.cfg h).symm, exec_next_iff.mpr (cmdNoteOff_bad_note Config.cfg h).symm⟩

/-- Settles O14: the search answers the free voice and writes nothing, and every polyphonic note-on is action A. -/
theorem polyNoteOnTakesFirstFreeVoice : Obligations.PolyNoteOnTakesFirstFreeVoice := by
  unfold Obligations.PolyNoteOnTakesFirstFreeVoice
  intro s note velocity v x hnote hmode hx hinactive hfirst
  have hcmd := cmdNoteOn_poly Config.cfg (velocity := velocity) hnote hmode
  rw [findVoicePoly_free Config.cfg hx hinactive hfirst] at hcmd
  exact ⟨_, _, exec_next_iff.mpr hcmd.symm, State.modifyVoice_getElem?_same _ hx, (voiceNoteOn_effect Config.cfg s.cur s.ctl).poly hmode,
    State.modifyVoice_onlyVoice .., State.modifyVoice_surroundings .., rfl⟩

/-- Settles O15: the same on the voice the scan of the scores answers. -/
theorem polyNoteOnStealsFirstLeastScore : Obligations.PolyNoteOnStealsFirstLeastScore := by
  unfold Obligations.PolyNoteOnStealsFirstLeastScore
  intro s note velocity hnote hmode hne hfull
  have hcmd := cmdNoteOn_poly_full Config.cfg (velocity := velocity) hnote hmode hfull
  have hleast := stealVoice_firstLeastScore Config.cfg hne
  have ⟨x, hx, _⟩ := hleast
  exact ⟨_, _, x, _, exec_next_iff.mpr hcmd.symm, hleast, hx, State.modifyVoice_getElem?_same _ hx,
    (voiceNoteOn_effect Config.cfg s.cur s.ctl).poly hmode, State.modifyVoice_onlyVoice .., State.modifyVoice_surroundings .., rfl⟩

/-- Settles O16: the stack by `pushAppendsOrIsDropped`, voice 0 by the action table. -/
theorem monoNoteOnPlaysVoiceZero : Obligations.MonoNoteOnPlaysVoiceZero := by
  unfold Obligations.MonoNoteOnPlaysVoiceZero
  intro s note velocity x hnote hmode hx hlen
  have hcmd := cmdNoteOn_mono Config.cfg (velocity := velocity) hnote hmode
  obtain ⟨hpush, hdrop⟩ := pushAppendsOrIsDropped Config.cfg (u7Nat note) s.alloc hlen
  refine ⟨_, _, exec_next_iff.mpr hcmd.symm, State.modifyVoice_getElem?_same _ hx, voiceNoteOn_effect Config.cfg s.cur s.ctl,
    State.modifyVoice_withAlloc_onlyVoice .., State.modifyVoice_withAlloc_surroundings .., rfl, fun hlt => ?_, fun hfull => ?_⟩
  · obtain ⟨hdepth, htop, hkept, -⟩ := hpush hlt
    exact ⟨hdepth, htop, hkept⟩
  · obtain ⟨hstack, hdepth, -⟩ := Alloc.mk.inj (hdrop hfull)
    exact ⟨hdepth, hstack⟩

/-- Settles O19: after the removal an empty stack releases voice 0 and any other plays its top note there; in a sound state that voice is held, since a note was
on the stack before. -/
theorem monoNoteOffReleasesOrFallsBack : Obligations.MonoNoteOffReleasesOrFallsBack := by
  unfold Obligations.MonoNoteOffReleasesOrFallsBack
  intro s note x hnote hmode hx hd
  have hcmd := cmdNoteOff_mono Config.cfg hnote hmode
  have hle := allocRemove_depth_le (u7Nat note) s.alloc
  refine ⟨fun hempty => ?_, fun hne => ?_⟩
  · rw [allocNoteOffMono_release Config.cfg hempty] at hcmd
    exact ⟨_, _, exec_next_iff.mpr hcmd.symm, State.modifyVoice_getElem?_same _ hx, voiceNoteOff_effect Config.cfg s.cur s.ctl x,
      rfl, State.modifyVoice_withAlloc_onlyVoice .., State.modifyVoice_withAlloc_surroundings ..⟩
  · rw [allocNoteOffMono_fallback Config.cfg hne] at hcmd
    have htop := getElem?_allocTop hne ((hle.trans hd).trans (allocRemove_length (u7Nat note) hd).ge)
    have heffect := voiceNoteOn_effect Config.cfg s.cur s.ctl (n := allocTop (allocRemove (u7Nat note) s.alloc))
      (vel := Config.cfg.fallbackVelocity) (x := x)
    refine ⟨_, _, _, exec_next_iff.mpr hcmd.symm, State.modifyVoice_getElem?_same _ hx, htop, heffect, fun hs => ?_, rfl,
      State.modifyVoice_withAlloc_onlyVoice .., State.modifyVoice_withAlloc_surroundings ..⟩
    have hgate := hs.mono_held hmode (by omega) x hx
    exact ⟨hgate, heffect.overlap hmode hgate⟩

/-! The Controls (R304, R305). -/

/-- A switch reads its value the same before and after the clamp (R12, R304). -/
theorem switchOn_u7Nat (value : Nat) : switchOn (u7Nat value) = decide (64 ≤ value) := by
  rw [switchOn, decide_eq_decide, u7Nat]
  exact le_min_iff.trans (and_iff_left (by decide))

section

variable (c : Cfg)

theorem cmdCtrlChange_ignored {id : Nat} (h : 5 ≤ id) (value : Nat) (s : State) : cmdCtrlChange c id value s = s := by
  match id, h with
  | _ + 5, _ => rfl

/-- A pedal that goes up releases (R304, id 2). -/
theorem setSustain_up {s : State} (h : s.ctl.sustain = true) :
    setSustain c false s = releaseSustained c { s with ctl := { s.ctl with sustain := false } } := if_pos (by rw [h]; rfl)

/-- A pedal already up, or down now, releases nothing (R304, id 2). -/
theorem setSustain_silent {s : State} {down : Bool} (h : s.ctl.sustain = false ∨ down = true) :
    setSustain c down s = { s with ctl := { s.ctl with sustain := down } } :=
  if_neg (by rcases h with h | h <;> simp [pedalRaised, h])

/-- Of everything but the voices the pedal writes its own Control only (R304, id 2). -/
theorem setSustain_rest (down : Bool) (s : State) :
    (setSustain c down s).stg = s.stg ∧ (setSustain c down s).cur = s.cur ∧ (setSustain c down s).alloc = s.alloc ∧
    (setSustain c down s).out = s.out ∧ (setSustain c down s).port = s.port ∧
    (setSustain c down s).ctl = { s.ctl with sustain := down } := by
  unfold setSustain
  dsimp only
  split_ifs <;> exact ⟨rfl, rfl, rfl, rfl, rfl, rfl⟩

/-- Only the sustained voices are released (R304, id 2). -/
theorem releaseSustained_eachVoice (s : State) :
    EachVoice (fun x y => (x.sustained = true → ReleaseEffect c s.cur x y) ∧ (x.sustained = false → y = x)) s (releaseSustained c s) :=
  eachVoice_of_map rfl fun x => ⟨fun h => by rw [if_pos h]; exact voiceRelease_effect c s.cur x, fun h => if_neg (by simp [h])⟩

end

/-- Settles O26. -/
theorem ctrlChangeById : Obligations.CtrlChangeById := by
  unfold Obligations.CtrlChangeById
  intro s id value
  refine ⟨?_, ?_, ?_, ?_, ?_, fun h => exec_next_iff.mpr (cmdCtrlChange_ignored Config.cfg h value s).symm⟩ <;> rintro rfl
  · rfl
  · rfl
  · have hexec : exec (.ctrlChange 2 value) s = .next (setSustain Config.cfg (decide (64 ≤ value)) s) := by
      rw [← switchOn_u7Nat]
      rfl
    obtain ⟨hstg, hcur, halloc, hout, hport, hctl⟩ := setSustain_rest Config.cfg (decide (64 ≤ value)) s
    refine ⟨_, hexec, hstg, hcur, halloc, hout, hport, hctl, fun hdown hlt => ?_, fun hno => ?_⟩
    · rw [decide_eq_false hlt.not_ge, setSustain_up Config.cfg hdown]
      exact releaseSustained_eachVoice Config.cfg { s with ctl := { s.ctl with sustain := false } }
    · rw [setSustain_silent Config.cfg (hno.imp_right decide_eq_true)]
  · rfl
  · rw [← switchOn_u7Nat]
    rfl

theorem exec_pitchBend (bend : Int) (s : State) :
    exec (.pitchBend bend) s = .next { s with ctl := { s.ctl with pitchBend := Config.cfg.bendMap bend (u7 (memRead s.cur 0x0F)) } } := rfl

/-- Opcode 4 reads its low 16 bits only (R83, R305). -/
theorem decode_pitchBend {w : Word} (h : fieldOpcode w = 4) : decode w = .ok (.pitchBend (fieldSigned16 w)) := by
  simp only [decode, h]

/-- Settles O27. -/
theorem pitchBendSetsSemitones : Obligations.PitchBendSetsSemitones := by
  unfold Obligations.PitchBendSetsSemitones
  refine ⟨fun s bend => exec_pitchBend bend s, fun s w rest hp hop => ?_⟩
  rw [step_of_ok hp (decode_pitchBend ((fieldOpcode_eq_ushiftRight w).trans hop)), exec_pitchBend]
  rfl

/-! The patch memories (R306 to R308). -/

section

variable {value : Nat}

theorem operandByte_toNat (h : value < 256) : (operandByte value).toNat = value :=
  (BitVec.toNat_ofNat ..).trans (Nat.mod_eq_of_lt h)

variable {s : State}

theorem cmdPatchWr_inside {addr : Nat} (h : addr ≤ 149) :
    cmdPatchWr addr value s = { s with stg := memWrite s.stg addr (operandByte value) } := if_neg h.not_gt

theorem cmdPatchWr_ignored {addr : Nat} (h : 149 < addr) : cmdPatchWr addr value s = s := if_pos h

theorem cmdOpParam_inside {op offset : Nat} (hop : op ≤ 3) (hoffset : offset ≤ 27) :
    cmdOpParam op offset value s = { s with cur := memWrite s.cur (opAddr op offset) (operandByte value) } :=
  if_neg (not_or.mpr ⟨hop.not_gt, hoffset.not_gt⟩)

theorem cmdOpParam_ignored {op offset : Nat} (h : 3 < op ∨ 27 < offset) : cmdOpParam op offset value s = s := if_pos h

/-- A byte operand reads back as it was given, at its address (R306, R307). -/
theorem memRead_memWrite_operandByte {m : Memory} (hm : Memory.wf m = true) (a : Nat) (h : value < 256) :
    (memRead (memWrite m a (operandByte value)) a).toNat = value := by
  rw [memRead_memWrite_same hm, operandByte_toNat h]

end

/-- Settles O28. -/
theorem patchWrWritesOneStagingByte : Obligations.PatchWrWritesOneStagingByte := by
  unfold Obligations.PatchWrWritesOneStagingByte
  refine fun s addr value hwf hv => ⟨fun h => ?_, fun h => exec_next_iff.mpr (cmdPatchWr_ignored h).symm⟩
  exact ⟨_, exec_next_iff.mpr (cmdPatchWr_inside h).symm, memRead_memWrite_operandByte hwf addr hv,
    fun a ha => memRead_memWrite_other _ _ ha, rfl, rfl, rfl, rfl, rfl, rfl⟩

/-- Settles O29. -/
theorem opParamWritesOneCurrentByte : Obligations.OpParamWritesOneCurrentByte := by
  unfold Obligations.OpParamWritesOneCurrentByte
  refine fun s op offset value hwf hv => ⟨fun hop hoffset => ?_, fun h => exec_next_iff.mpr (cmdOpParam_ignored h).symm⟩
  exact ⟨_, exec_next_iff.mpr (cmdOpParam_inside hop hoffset).symm, memRead_memWrite_operandByte hwf _ hv,
    fun a ha => memRead_memWrite_other _ _ ha, rfl, rfl, rfl, rfl, rfl, rfl⟩

/-- Settles O30: the voices are reset after the copy, so from the patch that was staged. -/
theorem applyPatchReplacesPatchAndResets : Obligations.ApplyPatchReplacesPatchAndResets := by
  unfold Obligations.ApplyPatchReplacesPatchAndResets
  exact fun s => ⟨_, exec_eq _ s, fun _ => rfl, rfl, rfl,
    eachVoice_of_map rfl fun x => ⟨voiceReset_effect Config.cfg s.stg x, isActive_voiceReset Config.cfg s.stg x⟩, rfl, rfl, rfl⟩

/-! `RENDER` (R312). -/

section

variable (c : Cfg)

theorem cmdRender_zero (s : State) : cmdRender c 0 s = s := if_pos rfl

theorem cmdRender_pos {n : Nat} (hn : 1 ≤ n) (s : State) :
    cmdRender c n s =
      { s with voices := (renderSamples c s.cur s.ctl n (s.voices.map (voiceBlockStart c s.cur n))).2,
               out := s.out ++ (renderSamples c s.cur s.ctl n (s.voices.map (voiceBlockStart c s.cur n))).1 } :=
  if_neg (Nat.one_le_iff_ne_zero.mp hn)

theorem voiceBlockStart_eq_blockStarted (P : Memory) (n : Nat) : voiceBlockStart c P n = blockStarted c P n := rfl

variable (P : Memory) (ctl : Controls)

/-- The mix adds up the active voices' samples in ascending order (R312 lines 7 to 9). -/
theorem mixVoices_mix (l : List Voice) (mix : Num) :
    (mixVoices c P ctl l mix).1 = (l.filter isActive).foldl (fun mix x => c.add mix (voiceStep c P ctl x).1) mix := by
  induction l generalizing mix with
  | nil => rfl
  | cons x rest ih =>
    rw [mixVoices]
    by_cases h : isActive x = true <;> simp [h, ih]

/-- One sample is the mix of the pool, and the pool one tick on. -/
theorem mixVoices_eq (l : List Voice) : mixVoices c P ctl l 0 = (poolMix c P ctl l, l.map (voiceTick c P ctl)) :=
  Prod.ext (mixVoices_mix c P ctl l 0) (mixVoices_voices c P ctl l 0)

/-- The `k`-th of `n` samples is the mix of the pool after `k` ticks. -/
theorem renderSamples_eq (n : Nat) (l : List Voice) :
    renderSamples c P ctl n l =
      ((List.range n).map fun k => outputSample c ctl (poolMix c P ctl ((List.map (voiceTick c P ctl))^[k] l)),
        (List.map (voiceTick c P ctl))^[n] l) := by
  induction n generalizing l with
  | zero => rfl
  | succ n ih =>
    rw [renderSamples, mixVoices_eq, ih, List.range_succ_eq_map, List.map_cons, List.map_map]
    rfl

/-- A pool ticked `n` times is each voice ticked `n` times: no voice reaches another. -/
theorem getElem?_iterate_map (f : Voice → Voice) (n : Nat) (l : List Voice) (v : Nat) :
    ((List.map f)^[n] l)[v]? = l[v]?.map f^[n] := by
  induction n generalizing l with
  | zero => simp
  | succ n ih => rw [Function.iterate_succ_apply, ih, List.getElem?_map, Option.map_map, Function.iterate_succ]

variable {P ctl} {n : Nat}

/-- An inactive voice stands still through a block. -/
theorem cmdRender_inactive {s : State} {v : Nat} {x : Voice} (hx : s.voices[v]? = some x) (h : isActive x = false) :
    (cmdRender c n s).voices[v]? = some x := by
  rcases n.eq_zero_or_pos with rfl | hn
  · rwa [cmdRender_zero]
  · have htick : voiceTick c s.cur s.ctl x = x := if_neg (by simp [h])
    rw [cmdRender_pos c hn]
    dsimp only
    rw [renderSamples_eq, getElem?_iterate_map, List.getElem?_map, hx, Option.map_some, Option.map_some,
      voiceBlockStart_inactive c s.cur n h, Function.iterate_fixed htick]

end

/-- Settles O31. -/
theorem renderAppendsExactlyNPairs : Obligations.RenderAppendsExactlyNPairs := by
  unfold Obligations.RenderAppendsExactlyNPairs
  refine fun s n => ⟨?_, exec_next_iff.mpr (cmdRender_zero Config.cfg s).symm⟩
  rcases n.eq_zero_or_pos with rfl | hn
  · exact ⟨s, [], exec_next_iff.mpr (cmdRender_zero Config.cfg s).symm, (List.append_nil _).symm, rfl, fun _ hp => absurd hp List.not_mem_nil,
      rfl, rfl, rfl, rfl, rfl, rfl⟩
  · exact ⟨_, _, exec_next_iff.mpr (cmdRender_pos Config.cfg hn s).symm, rfl, renderSamples_length ..,
      renderSamples_stereo Config.cfg s.cur s.ctl n _, rfl, rfl, rfl, rfl, rfl, (renderSamples_pool_size ..).trans (List.length_map _)⟩

/-- Settles O32: `renderSamples_eq` from the pool after the block start. -/
theorem renderIsTickedPool : Obligations.RenderIsTickedPool := by
  unfold Obligations.RenderIsTickedPool
  intro s n hn
  have hcmd := cmdRender_pos Config.cfg hn s
  rw [renderSamples_eq, voiceBlockStart_eq_blockStarted] at hcmd
  exact ⟨_, exec_next_iff.mpr hcmd.symm, rfl, rfl⟩

/-- Settles O33. -/
theorem inactiveVoicesAreSkipped : Obligations.InactiveVoicesAreSkipped := by
  unfold Obligations.InactiveVoicesAreSkipped
  exact ⟨fun s n h => exec_next_iff.mpr (cmdRender_silent Config.cfg h n).symm,
    fun s n v x hx h => ⟨_, exec_eq _ s, cmdRender_inactive Config.cfg hx h⟩⟩

end Sys2Proof.Machine


/-! The machine as a whole (60_exceptions.md): nothing is raised (R340), voices do not interfere (R353), and the core idles (R355). -/

namespace Sys2Proof.Machine

section

variable (c : Cfg)

/-- What `RENDER n` makes of one voice under a patch and Controls: nothing for `n = 0`, else the block start and `n` ticks (R312). -/
def voiceRender (P : Memory) (ctl : Controls) (n : Nat) (x : Voice) : Voice :=
  if n = 0 then x else (voiceTick c P ctl)^[n] (voiceBlockStart c P n x)

/-- Each voice after `RENDER n` is a function of that voice, the current patch and the Controls alone (R353). -/
theorem cmdRender_getElem? (n : Nat) (s : State) (v : Nat) :
    (cmdRender c n s).voices[v]? = s.voices[v]?.map (voiceRender c s.cur s.ctl n) := by
  rcases n.eq_zero_or_pos with rfl | hn
  · rw [cmdRender_zero]
    exact Option.map_id'.symm
  · have hrender : voiceRender c s.cur s.ctl n = (voiceTick c s.cur s.ctl)^[n] ∘ voiceBlockStart c s.cur n :=
      funext fun _ => if_neg hn.ne'
    rw [cmdRender_pos c hn, renderSamples_eq, hrender, ← Option.map_map, ← List.getElem?_map]
    exact getElem?_iterate_map ..

end

/-- Settles O34: both states make of the voice what `voiceRender` gives at the patch and Controls they share. -/
theorem voicesDoNotInterfere : Obligations.VoicesDoNotInterfere := by
  unfold Obligations.VoicesDoNotInterfere
  intro s₁ s₂ n v x hcur hctl h₁ h₂
  refine ⟨_, _, voiceRender Config.cfg s₂.cur s₂.ctl n x, exec_eq _ s₁, exec_eq _ s₂, ?_, ?_⟩
  · exact (cmdRender_getElem? Config.cfg n s₁ v).trans (by rw [h₁, hcur, hctl, Option.map_some])
  · exact (cmdRender_getElem? Config.cfg n s₂ v).trans (by rw [h₂, Option.map_some])

theorem step_of_idle {s : State} (hp : s.port = []) : step s = .next s := by
  simp only [step, takeCommand, hp]

/-- Settles O5. -/
theorem idleCoreHoldsItsState : Obligations.IdleCoreHoldsItsState := fun _ => step_of_idle

/-- Every step completes: it idles, or runs a command, or runs a reserved word as `NOP` (R85, R313, R355). -/
theorem step_next (s : State) : ∃ t, step s = .next t := by
  cases hp : s.port with
  | nil => exact ⟨s, step_of_idle hp⟩
  | cons w rest =>
    cases hd : decode w with
    | ok i => exact ⟨_, (step_of_ok hp hd).trans (exec_eq i _)⟩
    | error r =>
      obtain ⟨op⟩ := r
      exact ⟨_, (step_of_reserved hp hd).trans (exec_nop _)⟩

/-- Settles O7. -/
theorem nothingIsRaised : Obligations.NothingIsRaised := ⟨fun i s => ⟨_, exec_eq i s⟩, step_next⟩

end Sys2Proof.Machine

/-! Nothing sounds before a patch is applied (R363): while neither the patch nor a voice enables an operator, only `APPLY_PATCH` and `OP_PARAM` can change that. -/

namespace Sys2Proof.Machine

/-- No operator of the voice is enabled: what `NoneEnabled` asks of each voice. -/
def AllDisabled (x : Voice) : Prop := ∀ i, (x.op.get i).enabled = false

/-! The voice operations. -/

section

variable {c : Cfg} {P : Memory} {x : Voice}

theorem AllDisabled.inactive (h : AllDisabled x) : isActive x = false := by
  rw [← Bool.not_eq_true, isActive_iff]
  rintro ⟨i, hi, -⟩
  exact Bool.false_ne_true ((h i).symm.trans hi)

theorem AllDisabled.release (h : AllDisabled x) : AllDisabled (voiceRelease c P x) := fun i => by
  rw [(voiceRelease_effect c P x).op i]
  exact h i

theorem AllDisabled.noteOff (h : AllDisabled x) (ctl : Controls) : AllDisabled (voiceNoteOff c P ctl x) := by
  cases hpedal : ctl.sustain with
  | true => rw [voiceNoteOff_pedal_down c P ctl hpedal]; exact h
  | false =>
    rw [voiceNoteOff_pedal_up c P ctl hpedal]
    exact AllDisabled.release (x := { x with gate := false }) h

theorem AllDisabled.reset (h : AllDisabled x) : AllDisabled (voiceReset c P x) := fun i =>
  have ⟨_, _, _, henabled⟩ := (voiceReset_effect c P x).cached i
  henabled.trans (h i)

theorem voicePowerOn_allDisabled (v : Nat) : AllDisabled (Voice.powerOn c v) := fun i => by
  simp [Voice.powerOn, Operator.powerOn]

/-- Each action of a note-on takes the enable flags from the patch (R122, R236 to R238). -/
theorem voiceNoteOn_enabled (ctl : Controls) (n vel : U7) (i : Fin 4) :
    ((voiceNoteOn c P ctl n vel x).op.get i).enabled = en (opEnable P i) := by
  rcases voiceNoteOn_cases c P ctl n vel x with ⟨-, e⟩ | ⟨-, e⟩ | ⟨-, e⟩ <;> rw [e]
  · simp [voiceRetrigger]
  · simp [voiceGlide]
  · simp [voiceRegate, voiceGlide]

end

/-! The pool. -/

section

variable {c : Cfg} {s : State}

theorem NoneEnabled.mapVoices (h : NoneEnabled s) {f : Voice → Voice} (hf : ∀ x, AllDisabled x → AllDisabled (f x)) :
    NoneEnabled (s.mapVoices f) :=
  ⟨h.1, List.forall_mem_map.mpr fun x hx => hf x (h.2 x hx)⟩

theorem NoneEnabled.modifyVoice (h : NoneEnabled s) {f : Voice → Voice} (hf : ∀ x, AllDisabled x → AllDisabled (f x)) (v : Nat) :
    NoneEnabled (s.modifyVoice v f) := by
  obtain ⟨hpatch, hvoices⟩ := h
  refine ⟨hpatch, fun y hy => ?_⟩
  obtain ⟨u, hu⟩ := List.mem_iff_getElem?.mp hy
  rw [State.modifyVoice_voices, modify_getElem?] at hu
  split_ifs at hu
  · obtain ⟨x, hx, rfl⟩ := Option.map_eq_some_iff.mp hu
    exact hf x (hvoices x (List.mem_of_getElem? hx))
  · exact hvoices y (List.mem_of_getElem? hu)

theorem noteOnVoice_noneEnabled (h : NoneEnabled s) (v : Nat) (n vel : U7) : NoneEnabled (noteOnVoice c v n vel s) :=
  h.modifyVoice (fun _ _ i => (voiceNoteOn_enabled s.ctl n vel i).trans ((en_eq_false_iff _).mpr (h.1 i))) v

theorem noteOffVoice_noneEnabled (h : NoneEnabled s) (v : Nat) : NoneEnabled (noteOffVoice c v s) :=
  h.modifyVoice (fun _ hx => hx.noteOff s.ctl) v

theorem findVoice_noneEnabled (h : NoneEnabled s) (n : U7) (mode : Mode) : NoneEnabled (findVoice c n mode s).2 := by
  cases mode with
  | poly =>
    rcases findVoicePoly_cases c s with ⟨v, -, e, -⟩ | ⟨-, e⟩ <;> simp only [findVoice, e]
    · exact h
    · exact h.modifyVoice (f := fun v => { v with justAllocated := true }) (fun _ hx => hx) _
  | monoFull => exact h
  | monoLegato => exact h

/-! The commands. -/

theorem cmdNoteOn_noneEnabled (h : NoneEnabled s) (note velocity : Nat) : NoneEnabled (cmdNoteOn c note velocity s) := by
  unfold cmdNoteOn
  split_ifs
  · exact h
  · exact noteOnVoice_noneEnabled (findVoice_noneEnabled h _ _) _ _ _

/-- The note stack, which a mono note-off also writes, is no part of `NoneEnabled`. -/
theorem allocNoteOffMono_noneEnabled (h : NoneEnabled s) (n : U7) : NoneEnabled (allocNoteOffMono c n s) := by
  have hremoved : NoneEnabled { s with alloc := allocRemove n s.alloc } := h
  unfold allocNoteOffMono
  dsimp only
  split_ifs
  · exact (noteOffVoice_noneEnabled hremoved 0 :)
  · exact noteOnVoice_noneEnabled hremoved 0 _ _

theorem allocNoteOffPoly_noneEnabled (h : NoneEnabled s) (n : U7) : NoneEnabled (allocNoteOffPoly c n s) := by
  unfold allocNoteOffPoly
  split
  · exact noteOffVoice_noneEnabled h _
  · exact h

theorem cmdNoteOff_noneEnabled (h : NoneEnabled s) (note : Nat) : NoneEnabled (cmdNoteOff c note s) := by
  unfold cmdNoteOff
  split_ifs
  · exact h
  · cases patchMode s.cur with
    | poly => exact allocNoteOffPoly_noneEnabled h _
    | monoFull => exact allocNoteOffMono_noneEnabled h _
    | monoLegato => exact allocNoteOffMono_noneEnabled h _

theorem cmdAllNotesOff_noneEnabled (h : NoneEnabled s) : NoneEnabled (cmdAllNotesOff c s) := by
  refine h.mapVoices fun x hx => ?_
  split_ifs
  · exact hx.noteOff _
  · exact hx

theorem setSustain_noneEnabled (h : NoneEnabled s) (down : Bool) : NoneEnabled (setSustain c down s) := by
  have ht : NoneEnabled { s with ctl := { s.ctl with sustain := down } } := h
  unfold setSustain
  dsimp only
  split_ifs
  · refine ht.mapVoices fun x hx => ?_
    split_ifs
    · exact hx.release
    · exact hx
  · exact ht

theorem cmdCtrlChange_noneEnabled (h : NoneEnabled s) (id value : Nat) : NoneEnabled (cmdCtrlChange c id value s) := by
  unfold cmdCtrlChange
  dsimp only
  split
  case h_3 => exact setSustain_noneEnabled h _
  all_goals exact h

theorem powerOn_noneEnabled : NoneEnabled (State.powerOn c) := by
  refine ⟨fun _ => rfl, fun x hx => ?_⟩
  obtain ⟨v, hv⟩ := List.mem_iff_getElem?.mp hx
  obtain ⟨-, rfl⟩ := State.powerOn_voice c hv
  exact voicePowerOn_allDisabled v

theorem cmdSysReset_noneEnabled (s : State) : NoneEnabled (cmdSysReset c s) := by
  refine ⟨fun _ => rfl, fun y hy => ?_⟩
  obtain ⟨v, -, rfl⟩ := List.mem_mapIdx.mp hy
  exact voicePowerOn_allDisabled v

/-- With no operator enabled no voice is active, so `RENDER` leaves the pool as it is (R312). -/
theorem cmdRender_of_noneEnabled (h : NoneEnabled s) (n : Nat) :
    cmdRender c n s = { s with out := s.out ++ List.replicate n { left := 0, right := 0 } } :=
  cmdRender_silent c (fun x hx => AllDisabled.inactive (h.2 x hx)) n

theorem applyInstr_noneEnabled (h : NoneEnabled s) {i : Instr} (happly : i ≠ .applyPatch) (hparam : ∀ o a v, i ≠ .opParam o a v) :
    NoneEnabled (applyInstr c i s) := by
  cases i with
  | nop => exact h
  | noteOn note velocity => exact cmdNoteOn_noneEnabled h note velocity
  | noteOff note => exact cmdNoteOff_noneEnabled h note
  | ctrlChange id value => exact cmdCtrlChange_noneEnabled h id value
  | pitchBend bend => exact h
  | opParam op offset value => exact absurd rfl (hparam op offset value)
  | patchWr addr value => rw [applyInstr, cmdPatchWr_frame]; exact h
  | applyPatch => exact absurd rfl happly
  | allNotesOff => exact cmdAllNotesOff_noneEnabled h
  | allSoundOff => exact h.mapVoices fun _ hx => hx.reset
  | sysReset => exact cmdSysReset_noneEnabled s
  | render n => rw [applyInstr, cmdRender_of_noneEnabled h]; exact h

/-- Only `RENDER` appends pairs, and with no operator enabled they are zeros (R312, R363). -/
theorem applyInstr_out_of_noneEnabled (h : NoneEnabled s) (i : Instr) :
    ∃ n, (applyInstr c i s).out = s.out ++ List.replicate n { left := 0, right := 0 } := by
  by_cases hrender : ∀ n, i ≠ .render n
  · exact ⟨0, by rw [applyInstr_out c hrender, List.replicate_zero, List.append_nil]⟩
  · push Not at hrender
    obtain ⟨n, rfl⟩ := hrender
    exact ⟨n, by rw [applyInstr, cmdRender_of_noneEnabled h]⟩

end

/-- Settles O37: a note-on takes its enable flags from the patch, which enables none, and every other command but the two named keeps or clears those of the
voices. -/
theorem silentUntilAPatchIsApplied : Obligations.SilentUntilAPatchIsApplied := by
  unfold Obligations.SilentUntilAPatchIsApplied
  refine ⟨powerOn_noneEnabled, fun i s t h happly hparam hexec => ?_⟩
  obtain rfl := exec_next_iff.mp hexec
  have hkept := applyInstr_noneEnabled (c := Config.cfg) h happly hparam
  exact ⟨hkept, fun x hx => AllDisabled.inactive (hkept.2 x hx), applyInstr_out_of_noneEnabled h i⟩

end Sys2Proof.Machine
